-- ==== Sys2Proof/Word.lean ====
section
/-! DEFINITION. The word types of the block: bytes of BUF, 32-bit registers, bit sequences
(spec/00_scope.md R12, spec/10_state.md R22). -/

namespace Sys2Proof

/-- One byte of BUF (20_memory.md R51). -/
abbrev Byte := BitVec 8

/-- One 32-bit register (10_state.md R22). -/
abbrev Word := BitVec 32

/-- A bit sequence in transmission order: the head is position 0, the first bit (00_scope.md R12). -/
abbrev Bits := List Bool

end Sys2Proof
end

