-- ==== Sys2Proof/Config.lean ====
section
/-! DEFINITION. What one implementation of the block fixes (its parameters, spec/00_scope.md R9 and
spec/20_memory.md R52) and the values the spec leaves open (free values: constants with no body). -/

namespace Sys2Proof

/-- The parameters of the block (00_scope.md R9) and of the platform (20_memory.md R52). A state
carries them as its field `cfg`; no step changes it. -/
structure Params where
  /-- N_MAX: the most entries the frequency table holds. -/
  nMax : Nat
  /-- BUF_BYTES: the size of BUF in bytes. -/
  bufBytes : Nat
  /-- PBUF_BITS: the capacity of PBUF in bits. -/
  pbufBits : Nat
  /-- MARKER_W: the width of the alignment marker in bits. -/
  markerW : Nat
  /-- MARKER, zero-extended to 32 bits as CFG_MARKER reads it (10_state.md R37). -/
  marker : Word
  /-- BLOCK_BASE: the host address the platform places the block at (20_memory.md R52). -/
  blockBase : Nat
  deriving DecidableEq, Repr

/-- The default parameters (00_scope.md R9). `blockBase` has no default in the spec: 0 is a
DESIGN CHOICE (notes/assumptions/2.md), and no statement rests on it. -/
def Params.default : Params :=
  { nMax := 256, bufBytes := 65536, pbufBits := 524288, markerW := 16, marker := 0xA55A#32,
    blockBase := 0 }

/-- FREE VALUE: the k-th byte drawn for a destination byte that the spec leaves with any value
(60_exceptions.md R250 (c), 93_implementation_defined.md U7; notes/assumptions/8.md and 10.md). It has no body: nothing can be proved of it. -/
opaque Config.freeByte : Nat → Byte

/-- FREE VALUE: which sticky bit an ill-formed BUF access sets while BUSY = 1, where 20_memory.md R55
says BUSERR and R57 says HAZ: 0 is HAZ alone, 1 is BUSERR alone, 2 is both
(notes/assumptions/9.md). It has no body. -/
opaque Config.illFormedWhileLocked : Nat → Fin 3

end Sys2Proof
end

