-- ==== Sys2Proof/Syntax.lean ====
section
/-! DEFINITION. The instruction set: the seven commands of the block, one constructor per row of
spec/opcode_table.json (spec/30_encoding.md R72). A command word carries no operand (R71), so no
constructor has a field. -/

namespace Sys2Proof

/-- The seven commands (30_encoding.md R72). -/
inductive Instr where
  /-- ANALYZE, OP 0x1 (41_frequency_analyzer.md R104). -/
  | analyze
  /-- BUILD_TREE, OP 0x2 (42_tree_builder.md R123). -/
  | buildTree
  /-- GEN_CODES, OP 0x3 (43_code_generator.md R142). -/
  | genCodes
  /-- ENCODE, OP 0x4 (45_bitstream_packer.md R190). -/
  | encode
  /-- PACK, OP 0x5 (45_bitstream_packer.md R193). -/
  | pack
  /-- UNPACK, OP 0x6 (46_bitstream_unpacker.md R211). -/
  | unpack
  /-- DECODE, OP 0x7 (46_bitstream_unpacker.md R214). -/
  | decode
  deriving DecidableEq, Repr

end Sys2Proof
end

