-- ==== Sys2Proof/WellFormed.lean ====
section
/-! DEFINITION. The static checks: the constraints on the parameters (spec/00_scope.md R9,
spec/20_memory.md R52), the form of a command word (spec/30_encoding.md R70, R72), and the check on
an instruction, which has nothing to check because a command has no operand (R71). -/

namespace Sys2Proof

/-- An instruction is well-formed. A command has no field (30_encoding.md R71), so every one is. -/
abbrev Instr.WellFormed (_ : Instr) : Prop := True

/-- A command word selects a command: RSVD is 0 and OP is 1 to 7 (30_encoding.md R70, R72). -/
abbrev CommandWordOk (w : Word) : Prop :=
  w.extractLsb 31 4 = 0 ∧ 1 ≤ (w.extractLsb 3 0).toNat ∧ (w.extractLsb 3 0).toNat ≤ 7

namespace Params

/-- 1 ≤ N_MAX ≤ 2³²−1 (00_scope.md R9). -/
abbrev NMaxOk (p : Params) : Prop := 1 ≤ p.nMax ∧ p.nMax < 2 ^ 32

/-- 1 ≤ BUF_BYTES ≤ 65536 (00_scope.md R9). -/
abbrev BufBytesOk (p : Params) : Prop := 1 ≤ p.bufBytes ∧ p.bufBytes ≤ 65536

/-- 1 ≤ PBUF_BITS ≤ 2³²−1 (00_scope.md R9). -/
abbrev PbufBitsOk (p : Params) : Prop := 1 ≤ p.pbufBits ∧ p.pbufBits < 2 ^ 32

/-- 1 ≤ MARKER_W ≤ 32 (00_scope.md R9). -/
abbrev MarkerWOk (p : Params) : Prop := 1 ≤ p.markerW ∧ p.markerW ≤ 32

/-- MARKER has MARKER_W bits and its first transmitted bit, bit MARKER_W−1, is 1 (00_scope.md R9). -/
abbrev MarkerOk (p : Params) : Prop :=
  p.marker.toNat < 2 ^ p.markerW ∧ p.marker.getLsbD (p.markerW - 1) = true

/-- BLOCK_BASE is aligned to 0x20000 (20_memory.md R52). -/
abbrev BlockBaseOk (p : Params) : Prop := p.blockBase % 0x20000 = 0

/-- All the constraints on the parameters. -/
abbrev WellFormed (p : Params) : Prop :=
  p.NMaxOk ∧ p.BufBytesOk ∧ p.PbufBitsOk ∧ p.MarkerWOk ∧ p.MarkerOk ∧ p.BlockBaseOk

end Params

end Sys2Proof
end

