-- ==== Sys2Proof/Decode.lean ====
section
/-! DEFINITION. Decoding a command word (spec/30_encoding.md R70 to R74), total on every 32-bit word,
and the encoder written from the same table. -/

namespace Sys2Proof

/-- Why a command word selects no command (30_encoding.md R74). -/
inductive IllegalWord where
  /-- A bit of RSVD, bits 31:4, is 1. -/
  | reservedBits
  /-- RSVD is 0 and OP is 0x0 or 0x8 to 0xF. -/
  | noSuchOpcode
  deriving DecidableEq, Repr

/-- What a command word decodes to: a command, or an illegal word with its reason. -/
inductive Decoded where
  | command (i : Instr)
  | illegal (why : IllegalWord)
  deriving DecidableEq, Repr

/-- The field OP, bits 3:0 (30_encoding.md R70). -/
def opField (w : Word) : BitVec 4 := w.extractLsb 3 0

/-- The field RSVD, bits 31:4 (30_encoding.md R70). -/
def rsvdField (w : Word) : BitVec 28 := w.extractLsb 31 4

/-- The opcode map (30_encoding.md R72). -/
def opcodeMap (op : BitVec 4) : Option Instr :=
  match op.toNat with
  | 1 => some .analyze
  | 2 => some .buildTree
  | 3 => some .genCodes
  | 4 => some .encode
  | 5 => some .pack
  | 6 => some .unpack
  | 7 => some .decode
  | _ => none

/-- The decode procedure (30_encoding.md R73). -/
def decode (w : Word) : Decoded :=
  if rsvdField w ≠ 0 then .illegal .reservedBits
  else
    match opcodeMap (opField w) with
    | some i => .command i
    | none => .illegal .noSuchOpcode

/-- The opcode of a command (30_encoding.md R72). -/
def opcode : Instr → BitVec 4
  | .analyze => 0x1#4
  | .buildTree => 0x2#4
  | .genCodes => 0x3#4
  | .encode => 0x4#4
  | .pack => 0x5#4
  | .unpack => 0x6#4
  | .decode => 0x7#4

/-- The command word of a command: OP in bits 3:0, RSVD = 0 (30_encoding.md R70, R72). -/
def encode (i : Instr) : Word := 0#28 ++ opcode i

/-- The 32-bit command word that an opcode-table word stands for: the bits below `nbits`, every bit
above them 0. A word with a bit above bit 31 is no command word (30_encoding.md R75). -/
def tableWord (nbits w : Nat) : Option Word :=
  if w % 2 ^ nbits < 2 ^ 32 then some (BitVec.ofNat 32 (w % 2 ^ nbits)) else none

/-- The command the decoder reads from an opcode-table word (the host's interface). A command word is
written to CMD in one 32-bit access (30_encoding.md R70), so its bits are the register's bits. -/
def decodeTableWord (nbits w : Nat) : Option Instr :=
  match tableWord nbits w with
  | none => none
  | some cw =>
    match decode cw with
    | .command i => some i
    | .illegal _ => none

end Sys2Proof
end

