-- ==== Sys2Proof/Machine/State.lean ====
section
/-! DEFINITION. The state of the block as plain data: every register, store and latch of
spec/10_state.md, BUF (spec/20_memory.md R51), the parameters, and the model's own fields (the agenda,
the data returned to the host, the counter of free values); and the state after reset
(spec/70_reset_and_hazards.md R280). -/

namespace Sys2Proof.Machine

/-- The table-serialization and symbol-record mode (10_state.md R23): 0 numeric, 1 byte-sequence. -/
inductive Mode where
  | numeric
  | byteSeq
  deriving DecidableEq, Repr

/-- The codes STATUS.ERRCODE can hold (60_exceptions.md R245); 12 to 15 are never produced. -/
inductive ErrCode where
  | success
  | emptyInput
  | incompleteTable
  | duplicateKey
  | corruptStream
  | illegalCommand
  | notReady
  | regionFault
  | capacityExceeded
  | badSymbol
  | unknownSymbol
  | fieldRange
  deriving DecidableEq, Repr

/-- What a piece of a command's work gives: a value, or `raise E` (00_scope.md R14). -/
inductive Attempt (α : Type) where
  | done (a : α)
  | raised (e : ErrCode)
  deriving DecidableEq, Repr

/-- A symbol, and so a key of the frequency table (00_scope.md R11, R16; 10_state.md R30): a numeric
value (below 2⁶³ in every table the block builds) or a byte sequence (of 1 to 63 bytes). -/
inductive Symbol where
  | num (v : Nat)
  | octets (bs : List Byte)
  deriving DecidableEq, Repr

/-- One entry of the frequency table (10_state.md R30). -/
structure Entry where
  key : Symbol
  freq : Nat
  deriving DecidableEq, Repr

/-- The frequency table FT: entries in table order; an entry's table index is its position
(10_state.md R30). -/
abbrev Table := List Entry

/-- The Huffman tree (10_state.md R31; HuffmanNode of 00_scope.md R16). A leaf holds the table index
of its symbol; an internal node holds its canonical number (42_tree_builder.md R122). Having no
sharing, no cycles and two children at every internal node, a value of this type meets the shape
invariants of R31 by its form (notes/assumptions/11.md). -/
inductive HuffTree where
  | leaf (sym freq : Nat)
  | internal (num freq : Nat) (left right : HuffTree)
  deriving DecidableEq, Repr

/-- The code ROM (10_state.md R32): the code at each table index; CLEN is its length. -/
abbrev CodeRom := List Bits

/-- The registers of the register window (10_state.md R22). -/
inductive Reg where
  | ctrl
  | cmd
  | status
  | srcBase
  | srcLen
  | dstBase
  | dstCap
  | resultLen
  | symCount
  | tableCount
  | pbitLen
  | payloadOff
  | cfgNmax
  | cfgBufbytes
  | cfgPbufbits
  | cfgMarker
  | cfgMarkerW
  deriving DecidableEq, Repr

/-- Where a host directs an access: an offset of the register window, a BUF address, which is an
offset of the BUF window (20_memory.md R50), or a host address, which the block decodes to one of the
two or not at all (20_memory.md R52; notes/assumptions/15.md). -/
inductive Place where
  | reg (off : Nat)
  | buf (a : Nat)
  | address (addr : Nat)
  deriving DecidableEq, Repr

/-- One host access (20_memory.md R53 to R55). `width` is in bits; every width is a possible access,
and widths other than the well-formed ones are ill-formed (R55). A write of `width` bits carries its
data in the low bits of `data`. -/
inductive Access where
  | read (place : Place) (width : Nat)
  | write (place : Place) (width : Nat) (data : Word)
  deriving DecidableEq, Repr

/-- What can happen next: a host access, the core's completion step (60_exceptions.md R241), or the
platform's reset (70_reset_and_hazards.md R280). -/
inductive Event where
  | access (a : Access)
  | completion
  | reset
  deriving DecidableEq, Repr

/-- CTRL (10_state.md R23): its two fields. Bits 31:2 hold nothing. -/
structure Ctrl where
  mode : Mode
  irqEn : Bool
  deriving DecidableEq, Repr

/-- The stored fields of STATUS (10_state.md R25). ERR is a view of `errcode`; each valid flag is the
tag of the store it guards (R38; notes/assumptions/5.md). -/
structure Status where
  busy : Bool
  done : Bool
  haz : Bool
  buserr : Bool
  errcode : ErrCode
  lastop : BitVec 4
  ftMode : Mode
  deriving DecidableEq, Repr

/-- The operand registers SRC_BASE, SRC_LEN, DST_BASE and DST_CAP (10_state.md R26, R27). -/
structure Operands where
  srcBase : Word
  srcLen : Word
  dstBase : Word
  dstCap : Word
  deriving DecidableEq, Repr

/-- The latched operands L_CMD, L_MODE, L_SRC_BASE, L_SRC_LEN, L_DST_BASE and L_DST_CAP
(10_state.md R35). -/
structure Latch where
  cmd : Word
  mode : Mode
  args : Operands
  deriving DecidableEq, Repr

/-- BUF: the bytes that hold a value, addresses strictly rising. An address that is not listed holds
no value (20_memory.md R51). -/
abbrev Memory := List Host.Cell

/-- The state of the block. -/
structure State where
  /-- The parameters; no step changes them. -/
  cfg : Params
  ctrl : Ctrl
  status : Status
  operands : Operands
  /-- RESULT_LEN (10_state.md R28). -/
  resultLen : Word
  /-- SYM_COUNT (10_state.md R28). -/
  symCount : Word
  /-- PAYLOAD_OFF (10_state.md R29). -/
  payloadOff : Word
  latch : Latch
  /-- FT; present exactly when FT_VALID = 1 (10_state.md R30, R38). -/
  ft : Option Table
  /-- TREE; present exactly when TREE_VALID = 1 (10_state.md R31, R38). -/
  tree : Option HuffTree
  /-- CROM; present exactly when CODES_VALID = 1 (10_state.md R32, R38). -/
  crom : Option CodeRom
  /-- PBUF; present exactly when PBUF_VALID = 1 (10_state.md R34, R38). -/
  pbuf : Option Bits
  buf : Memory
  /-- The MODEL'S own: what happens next, in order (notes/assumptions/3.md). -/
  agenda : List Event
  /-- The MODEL'S own: the data the block returned to the most recent host access
  (notes/assumptions/16.md). -/
  hostData : Option Word
  /-- The MODEL'S own: how many free values have been drawn (notes/assumptions/17.md). -/
  draws : Nat
  deriving DecidableEq, Repr

/-- Why the model stops. -/
inductive Fault where
  /-- A command's read of its source region, or a host read of BUF, meets a byte not written since
  reset, which holds no value (20_memory.md R51; 93_implementation_defined.md U1). Raised by ANALYZE,
  ENCODE, UNPACK and host BUF reads. SAFE: the hardware goes on with some value. -/
  | bufByteHoldsNoValue
  deriving DecidableEq, Repr

/-- Why the model gives an instruction no meaning. -/
inductive Refusal where
  /-- The instruction has no meaning yet. No arm of `exec` answers it: every command has its meaning.
  SAFE. -/
  | notModelled (mnemonic : String)
  deriving DecidableEq, Repr

/-- All operand registers at 0 (10_state.md R22). -/
def Operands.zero : Operands := { srcBase := 0, srcLen := 0, dstBase := 0, dstCap := 0 }

/-- The block with parameters `cfg` right after reset (70_reset_and_hazards.md R280, R281;
10_state.md R41): every register at its reset value, every store and every byte of BUF without a
value. The latched operands, which the spec leaves without a value and unread, are 0
(DESIGN CHOICE, notes/assumptions/6.md). -/
def State.resetWith (cfg : Params) : State :=
  { cfg := cfg
    ctrl := { mode := .numeric, irqEn := false }
    status :=
      { busy := false, done := false, haz := false, buserr := false, errcode := .success,
        lastop := 0, ftMode := .numeric }
    operands := Operands.zero
    resultLen := 0
    symCount := 0
    payloadOff := 0
    latch := { cmd := 0, mode := .numeric, args := Operands.zero }
    ft := none
    tree := none
    crom := none
    pbuf := none
    buf := []
    agenda := []
    hostData := none
    draws := 0 }

/-- The machine right after reset, with the default parameters (00_scope.md R9). -/
def State.reset : State := State.resetWith Params.default

end Sys2Proof.Machine
end

