-- ==== Sys2Proof/Machine/Flags.lean ====
section
/-! DEFINITION. The flags: the codes of STATUS.ERRCODE (spec/60_exceptions.md R245), the valid flags
and the count registers that follow them (spec/10_state.md R29, R38), which flags a command requires
(R39), what an execution error clears (R39; 60_exceptions.md R250), and the words STATUS and CTRL read
as (R23, R25). -/

namespace Sys2Proof.Machine

/-- The number of an error code (60_exceptions.md R245). -/
def ErrCode.code : ErrCode → BitVec 4
  | .success => 0
  | .emptyInput => 1
  | .incompleteTable => 2
  | .duplicateKey => 3
  | .corruptStream => 4
  | .illegalCommand => 5
  | .notReady => 6
  | .regionFault => 7
  | .capacityExceeded => 8
  | .badSymbol => 9
  | .unknownSymbol => 10
  | .fieldRange => 11

/-- The bit of a mode: 0 numeric, 1 byte-sequence (10_state.md R23, R33). -/
def Mode.bit : Mode → Bool
  | .numeric => false
  | .byteSeq => true

/-- The mode of a bit (10_state.md R23). -/
def Mode.ofBit (b : Bool) : Mode := if b then .byteSeq else .numeric

/-- STATUS.ERR: 1 when ERRCODE is not 0 (10_state.md R25). -/
def Status.err (st : Status) : Bool := decide (st.errcode ≠ .success)

/-- FT_VALID (10_state.md R38). -/
def State.ftValid (s : State) : Bool := s.ft.isSome

/-- TREE_VALID (10_state.md R38). -/
def State.treeValid (s : State) : Bool := s.tree.isSome

/-- CODES_VALID (10_state.md R38). -/
def State.codesValid (s : State) : Bool := s.crom.isSome

/-- PBUF_VALID (10_state.md R38). -/
def State.pbufValid (s : State) : Bool := s.pbuf.isSome

/-- TABLE_COUNT: `FT_VALID ? len(FT) : 0` (10_state.md R29). -/
def State.tableCount (s : State) : Word :=
  match s.ft with
  | some t => BitVec.ofNat 32 t.length
  | none => 0

/-- PBIT_LEN: `PBUF_VALID ? len(PBUF) : 0` (10_state.md R29). -/
def State.pbitLen (s : State) : Word :=
  match s.pbuf with
  | some p => BitVec.ofNat 32 p.length
  | none => 0

/-- IRQ, a level: CTRL.IRQ_EN and STATUS.DONE (60_exceptions.md R260). -/
def State.irq (s : State) : Bool := s.ctrl.irqEn && s.status.done

/-- The valid flags a command requires (10_state.md R39; 60_exceptions.md R246). -/
def State.ready (s : State) : Instr → Bool
  | .analyze => true
  | .buildTree => s.ftValid
  | .genCodes => s.treeValid
  | .encode => s.codesValid
  | .pack => s.ftValid && s.pbufValid
  | .unpack => true
  | .decode => s.treeValid && s.pbufValid

/-- What an execution error of a command does beside STATUS (60_exceptions.md R250): the valid flags
it clears, the count registers it zeroes, and whether the destination region is left with any
value. -/
structure FailEffect where
  clearsFt : Bool := false
  clearsTree : Bool := false
  clearsCodes : Bool := false
  clearsPbuf : Bool := false
  zeroesSymCount : Bool := false
  zeroesResultLen : Bool := false
  zeroesPayloadOff : Bool := false
  spoilsDest : Bool := false
  deriving DecidableEq, Repr

/-- The column "on an execution error clears" of 10_state.md R39, with 60_exceptions.md R250 (b) and
(c). -/
def failEffect : Instr → FailEffect
  | .analyze =>
    { clearsFt := true, clearsTree := true, clearsCodes := true, clearsPbuf := true,
      zeroesSymCount := true }
  | .buildTree => { clearsTree := true, clearsCodes := true }
  | .genCodes => { clearsCodes := true }
  | .encode => { clearsPbuf := true, zeroesSymCount := true }
  | .pack => { zeroesResultLen := true, spoilsDest := true }
  | .unpack =>
    { clearsFt := true, clearsTree := true, clearsCodes := true, clearsPbuf := true,
      zeroesPayloadOff := true }
  | .decode => { zeroesResultLen := true, zeroesSymCount := true, spoilsDest := true }

/-- The word CTRL reads as: bits 31:2 read 0 (10_state.md R23). -/
def Ctrl.word (c : Ctrl) : Word := 0#30 ++ BitVec.ofBool c.irqEn ++ BitVec.ofBool c.mode.bit

/-- The word STATUS reads as, bit 31 first (10_state.md R25). -/
def State.statusWord (s : State) : Word :=
  0#11 ++ BitVec.ofBool s.status.ftMode.bit ++ BitVec.ofBool s.pbufValid
    ++ BitVec.ofBool s.codesValid ++ BitVec.ofBool s.treeValid ++ BitVec.ofBool s.ftValid
    ++ s.status.lastop ++ s.status.errcode.code ++ 0#3 ++ BitVec.ofBool s.status.buserr
    ++ BitVec.ofBool s.status.haz ++ BitVec.ofBool s.status.err ++ BitVec.ofBool s.status.done
    ++ BitVec.ofBool s.status.busy

end Sys2Proof.Machine
end

