-- ==== Sys2Proof/Machine/Memory.lean ====
section
/-! DEFINITION. BUF as a list of (address, byte) pairs in canonical form, and the operations over it
(spec/00_scope.md R14, spec/20_memory.md R51, R56). -/

namespace Sys2Proof.Machine

/-- What an address that is not listed reads as: no value (20_memory.md R51). -/
def Memory.unlisted : Option Byte := none

/-- The byte at an address, if the address holds one. -/
def Memory.read (m : Memory) (a : Nat) : Option Byte :=
  match m with
  | [] => Memory.unlisted
  | (a', v) :: rest => if a' = a then some v else Memory.read rest a

/-- Write one byte, keeping the addresses strictly rising. -/
def Memory.write (m : Memory) (a : Nat) (v : Byte) : Memory :=
  match m with
  | [] => [(a, v)]
  | (a', v') :: rest =>
    if a < a' then (a, v) :: (a', v') :: rest
    else if a = a' then (a, v) :: rest
    else (a', v') :: Memory.write rest a v

/-- `MemRead(addr, n)`: the bytes at addr to addr+n−1; none if one of them holds no value
(00_scope.md R14; 20_memory.md R51). -/
def Memory.readBytes (m : Memory) (a : Nat) : Nat → Option (List Byte)
  | 0 => some []
  | n + 1 =>
    match m.read a, m.readBytes (a + 1) n with
    | some b, some bs => some (b :: bs)
    | _, _ => none

/-- `MemWrite(addr, n, v)`: the bytes of v at addr to addr+n−1 (00_scope.md R14). -/
def Memory.writeBytes (m : Memory) (a : Nat) : List Byte → Memory
  | [] => m
  | b :: bs => (m.write a b).writeBytes (a + 1) bs

/-- The canonical form: addresses strictly rising. An unlisted address holds no value, so no listed
entry can equal what an unlisted address reads as. -/
abbrev Memory.wf (m : Memory) : Prop := List.Pairwise (fun c d => c.1 < d.1) m

/-- Every listed address exists: it is below `bound` (20_memory.md R51). -/
abbrev Memory.below (m : Memory) (bound : Nat) : Prop := ∀ c ∈ m, c.1 < bound

/-- The address `x` is one of the `n` addresses from `base` on. -/
abbrev inRegion (base n x : Nat) : Prop := base ≤ x ∧ x < base + n

end Sys2Proof.Machine
end

