-- ==== Sys2Proof/Machine/Ops.lean ====
section
/-! DEFINITION. The shared operations: accepting a command (spec/60_exceptions.md R240), ending it
(R241), raising an error, which is this block's exception (R246, R248, R250), acknowledging it, which
is its return (R249), and the pre-checks on the regions (R246; spec/20_memory.md R56). -/

namespace Sys2Proof.Machine

/-- What one transition answers. -/
abbrev Outcome := Host.Outcome State Fault Refusal

/-- Acceptance of the command word `w` (60_exceptions.md R240): the operands are latched, LASTOP is
recorded, DONE, ERR and ERRCODE are cleared and BUSY is set. -/
def State.accept (s : State) (w : Word) : State :=
  { s with
    latch := { cmd := w, mode := s.ctrl.mode, args := s.operands }
    status :=
      { s.status with
        busy := true, done := false, errcode := .success, lastop := w.extractLsb 3 0 } }

/-- The end of every completion step (60_exceptions.md R241). A pre-check error is this alone: it
changes nothing but STATUS (R246). -/
def State.finish (s : State) (e : ErrCode) : State :=
  { s with status := { s.status with busy := false, done := true, errcode := e } }

/-- The bytes a failed or abandoned command leaves in a region of `n` bytes: free values, the next `n`
of them (60_exceptions.md R250 (c); 93_implementation_defined.md U3, U7). -/
def drawBytes (k : Nat) : Nat → List Byte
  | 0 => []
  | n + 1 => Config.freeByte k :: drawBytes (k + 1) n

/-- The destination region is left with any value: every byte of it is a free value
(60_exceptions.md R250 (c)). -/
def State.spoilDest (s : State) : State :=
  { s with
    buf := s.buf.writeBytes s.latch.args.dstBase.toNat (drawBytes s.draws s.latch.args.dstCap.toNat)
    draws := s.draws + s.latch.args.dstCap.toNat }

/-- The flags cleared and the count registers zeroed by an execution error (60_exceptions.md R250 (a)
and (b)). -/
def State.clearOutputs (s : State) (f : FailEffect) : State :=
  { s with
    ft := if f.clearsFt then none else s.ft
    tree := if f.clearsTree then none else s.tree
    crom := if f.clearsCodes then none else s.crom
    pbuf := if f.clearsPbuf then none else s.pbuf
    symCount := if f.zeroesSymCount then 0 else s.symCount
    resultLen := if f.zeroesResultLen then 0 else s.resultLen
    payloadOff := if f.zeroesPayloadOff then 0 else s.payloadOff }

/-- RAISING AN EXECUTION ERROR `e` in command `i`: the block's exception (60_exceptions.md R248,
R250). Nothing is saved and no vector is taken; the outputs of the command are marked unusable and the
error is reported in STATUS. -/
def State.raise (s : State) (i : Instr) (e : ErrCode) : State :=
  let s' := s.clearOutputs (failEffect i)
  (if (failEffect i).spoilsDest then s'.spoilDest else s').finish e

/-- THE RETURN (60_exceptions.md R249): the host acknowledges a report by writing 1 to DONE. ERR and
ERRCODE stay until the next acceptance. -/
def State.acknowledge (s : State) : State :=
  { s with status := { s.status with done := false } }

/-- FT_MODE takes the latched mode, when ANALYZE or UNPACK starts executing (10_state.md R33). -/
def State.sampleMode (s : State) : State :=
  { s with status := { s.status with ftMode := s.latch.mode } }

/-- A region is valid when it ends inside BUF, computed without wrap-around (20_memory.md R56). -/
abbrev regionValid (cfg : Params) (base len : Word) : Prop :=
  base.toNat + len.toNat ≤ cfg.bufBytes

/-- The latched source region is valid (60_exceptions.md R246). -/
abbrev State.srcValid (s : State) : Prop :=
  regionValid s.cfg s.latch.args.srcBase s.latch.args.srcLen

/-- The latched destination region is valid (60_exceptions.md R246). -/
abbrev State.dstValid (s : State) : Prop :=
  regionValid s.cfg s.latch.args.dstBase s.latch.args.dstCap

/-- The bytes of the latched source region; none if one of them holds no value (00_scope.md R14;
20_memory.md R51). -/
def State.srcBytes (s : State) : Option (List Byte) :=
  s.buf.readBytes s.latch.args.srcBase.toNat s.latch.args.srcLen.toNat

/-- Write `bytes` from the base of the latched destination region on. -/
def State.writeDest (s : State) (bytes : List Byte) : State :=
  { s with buf := s.buf.writeBytes s.latch.args.dstBase.toNat bytes }

/-- A command that reads the source region: the REGION_FAULT pre-check, then MemRead of the whole
region, then the command's own work (60_exceptions.md R246; 20_memory.md R51). -/
def State.withSource (s : State) (work : List Byte → State) : Outcome :=
  if s.srcValid then
    match s.srcBytes with
    | some src => .next (work src)
    | none => .fault .bufByteHoldsNoValue
  else .next (s.finish .regionFault)

/-- A command that writes the destination region: the REGION_FAULT pre-check, then the command's own
work (60_exceptions.md R246). -/
def State.withDest (s : State) (work : State) : Outcome :=
  if s.dstValid then .next work else .next (s.finish .regionFault)

/-- The pre-check NOT_READY: the command's flags are not all set (60_exceptions.md R246). -/
def State.notReady (s : State) : Outcome := .next (s.finish .notReady)

end Sys2Proof.Machine
end

