-- ==== Sys2Proof/Machine/Bits.lean ====
section
/-! DEFINITION. The pseudocode primitives on numbers, bytes and bit sequences (spec/00_scope.md R12 to
R15, spec/20_memory.md R58 to R60). All arithmetic is on naturals (R13). -/

namespace Sys2Proof.Machine

/-- `U(v, n)`: the n bits of v, most significant bit first (00_scope.md R14). -/
def u (v : Nat) : Nat → Bits
  | 0 => []
  | n + 1 => v.testBit n :: u v n

/-- `Val(S)`: the number a bit sequence spells, first bit most significant (00_scope.md R14). -/
def val (s : Bits) : Nat := s.foldl (fun acc b => 2 * acc + b.toNat) 0

/-- `zeros(n)`: n zero bits (00_scope.md R14). -/
def zeros (n : Nat) : Bits := List.replicate n false

/-- `bitlen(v)`: the least n with v < 2ⁿ; bitlen(0) = 0 (00_scope.md R14, R15). -/
def bitlen (v : Nat) : Nat := if v = 0 then 0 else v.log2 + 1

/-- `BE(bytes)`: the number whose big-endian representation is `bytes` (00_scope.md R14). -/
def be (bytes : List Byte) : Nat := bytes.foldl (fun acc b => 256 * acc + b.toNat) 0

/-- `BytesBE(v, n)`: the n bytes of v, most significant byte first (00_scope.md R14). -/
def bytesBE (v : Nat) : Nat → List Byte
  | 0 => []
  | n + 1 => BitVec.ofNat 8 (v >>> (8 * n)) :: bytesBE v n

/-- `Bits(bytes)`: each byte gives its bits 7 down to 0, bytes in list order (00_scope.md R14;
20_memory.md R58). -/
def bitsOf : List Byte → Bits
  | [] => []
  | b :: bs => u b.toNat 8 ++ bitsOf bs

/-- `Bytes(S)`: the inverse of `Bits`, for a sequence of whole bytes (00_scope.md R14). Bits left over
after the last whole byte are dropped; every caller gives whole bytes. -/
def bytesOf : Bits → List Byte
  | b7 :: b6 :: b5 :: b4 :: b3 :: b2 :: b1 :: b0 :: rest =>
    BitVec.ofNat 8 (val [b7, b6, b5, b4, b3, b2, b1, b0]) :: bytesOf rest
  | _ => []

/-- The number of zero bits that bring a length to a multiple of 8 (45_bitstream_packer.md R193). -/
def padBits (len : Nat) : Nat := (8 - len % 8) % 8

end Sys2Proof.Machine
end

