-- ==== Sys2Proof/Machine/Operands.lean ====
section
/-! DEFINITION. The operand forms: symbol records in BUF (spec/41_frequency_analyzer.md R100 to R103),
read by ANALYZE and ENCODE and written by DECODE. -/

namespace Sys2Proof.Machine

/-- NextSymbol (41_frequency_analyzer.md R101): the record at the head of `src` and what follows it.
The position `pos` of the spec is held as the rest of the source from `pos` on. -/
def nextSymbol (mode : Mode) (src : List Byte) : Attempt (Symbol × List Byte) :=
  match mode, src with
  | .numeric, src =>
    if src.length < 8 then .raised .badSymbol
    else if be (src.take 8) < 2 ^ 63 then .done (.num (be (src.take 8)), src.drop 8)
    else .raised .badSymbol
  | .byteSeq, [] => .raised .badSymbol
  | .byteSeq, l :: rest =>
    if l.toNat = 0 ∨ 63 < l.toNat then .raised .badSymbol
    else if rest.length < l.toNat then .raised .badSymbol
    else .done (.octets (rest.take l.toNat), rest.drop l.toNat)

/-- A source region parsed into symbols in stream order: the symbols before the first ill-formed
record, and the error that record raises, if there is one (41_frequency_analyzer.md R101). -/
structure SymbolStream where
  syms : List Symbol
  fail : Option ErrCode
  deriving DecidableEq, Repr

/-- NextSymbol called until the source is used up (41_frequency_analyzer.md R101), with fuel. Every
record takes at least one byte, so a fuel of the source's length never runs out before the source
does. -/
def symbolStreamFuel (mode : Mode) : Nat → List Byte → SymbolStream
  | _, [] => { syms := [], fail := none }
  | 0, _ :: _ => { syms := [], fail := some .badSymbol }
  | fuel + 1, b :: src =>
    match nextSymbol mode (b :: src) with
    | .raised e => { syms := [], fail := some e }
    | .done (k, rest) =>
      let r := symbolStreamFuel mode fuel rest
      { syms := k :: r.syms, fail := r.fail }

/-- The symbols of a source region, in stream order (41_frequency_analyzer.md R100, R101). -/
def symbolStream (mode : Mode) (src : List Byte) : SymbolStream :=
  symbolStreamFuel mode src.length src

/-- The numeric value of a symbol. A byte sequence never meets numeric mode (41_frequency_analyzer.md
R102); it counts as its big-endian value there (notes/assumptions/14.md). -/
def Symbol.value : Symbol → Nat
  | .num v => v
  | .octets bs => be bs

/-- The bytes of a symbol. A numeric value never meets byte-sequence mode (41_frequency_analyzer.md
R102); it counts as its 8 bytes there (notes/assumptions/14.md). -/
def Symbol.bytes : Symbol → List Byte
  | .num v => bytesBE v 8
  | .octets bs => bs

/-- SymbolRecord (41_frequency_analyzer.md R103): the record of a symbol. -/
def symbolRecord (mode : Mode) (k : Symbol) : List Byte :=
  match mode with
  | .numeric => bytesBE k.value 8
  | .byteSeq => BitVec.ofNat 8 k.bytes.length :: k.bytes

/-- A symbol the mode can hold (41_frequency_analyzer.md R100): a number below 2⁶³, or 1 to 63
bytes. -/
def Symbol.okFor (mode : Mode) (k : Symbol) : Bool :=
  match mode, k with
  | .numeric, .num v => decide (v < 2 ^ 63)
  | .byteSeq, .octets bs => decide (1 ≤ bs.length ∧ bs.length ≤ 63)
  | .numeric, .octets _ => false
  | .byteSeq, .num _ => false

end Sys2Proof.Machine
end

