-- ==== Sys2Proof/Machine/TableCodec.lean ====
section
/-! DEFINITION. The Frequency Table Codec: the serializer used by PACK and the parser used by UNPACK
(spec/44_table_codec.md R160 to R175). -/

namespace Sys2Proof.Machine

/-- The largest number of a list; 0 for the empty list (44_table_codec.md R161). -/
def maxOf (l : List Nat) : Nat := l.foldl max 0

/-- F: the width of the frequency field (44_table_codec.md R161). -/
def freqWidth (t : Table) : Nat := bitlen (maxOf (t.map (·.freq)))

/-- K: the width of the key field (44_table_codec.md R161). -/
def keyWidth (t : Table) : Nat := bitlen (maxOf (t.map (·.key.value)))

/-- The numeric-mode header, 44 bits (44_table_codec.md R161). -/
def numericHeader (t : Table) : Bits := u t.length 32 ++ u (freqWidth t) 6 ++ u (keyWidth t) 6

/-- The numeric-mode body (44_table_codec.md R162). -/
def numericBody (k f : Nat) (t : Table) : Bits :=
  t.flatMap fun e => u e.key.value k ++ u e.freq f

/-- KeyEnc (44_table_codec.md R163): a 6-bit length, then the bytes. -/
def keyEnc (k : Symbol) : Bits := u k.bytes.length 6 ++ bitsOf k.bytes

/-- SENTINEL: six zero bits (44_table_codec.md R164). -/
def sentinel : Bits := u 0 6

/-- One record of the byte-sequence-mode body (44_table_codec.md R164). -/
def byteSeqRecord (e : Entry) : Bits := keyEnc e.key ++ u e.freq 32

/-- SerTable (44_table_codec.md R160 to R165). FIELD_RANGE when a field cannot hold its value (R165);
a key longer than its 6-bit length field can say is one such value (notes/assumptions/13.md). -/
def serTable (mode : Mode) (t : Table) : Attempt Bits :=
  match mode with
  | .numeric =>
    if 2 ^ 32 ≤ t.length ∨ 63 < freqWidth t ∨ 63 < keyWidth t then .raised .fieldRange
    else .done (numericHeader t ++ numericBody (keyWidth t) (freqWidth t) t)
  | .byteSeq =>
    if t.any (fun e => decide (2 ^ 32 ≤ e.freq ∨ 63 < e.key.bytes.length)) then .raised .fieldRange
    else .done (t.flatMap byteSeqRecord ++ sentinel)

/-- ReadField (44_table_codec.md R166): the value of the next `n` bits and the bits after them. The
cursor q of the spec is held as the bits from q on. -/
def readField (n : Nat) (s : Bits) : Attempt (Nat × Bits) :=
  if s.length < n then .raised .incompleteTable else .done (val (s.take n), s.drop n)

/-- Some entry has the key (44_table_codec.md R170). -/
def hasKey (t : Table) (k : Symbol) : Bool := t.any fun e => decide (e.key = k)

/-- The record loop of the numeric parse (44_table_codec.md R168), `cnt` records still to read. -/
def parseNumericRecords (k f : Nat) : Nat → Table → Bits → Attempt (Table × Bits)
  | 0, t, s => .done (t, s)
  | cnt + 1, t, s =>
    match readField k s with
    | .raised e => .raised e
    | .done (key, s1) =>
      match readField f s1 with
      | .raised e => .raised e
      | .done (freq, s2) =>
        if hasKey t (.num key) then .raised .duplicateKey
        else parseNumericRecords k f cnt (t ++ [⟨.num key, freq⟩]) s2

/-- The numeric-mode parse (44_table_codec.md R168). -/
def parseNumeric (nMax : Nat) (s : Bits) : Attempt (Table × Bits) :=
  match readField 32 s with
  | .raised e => .raised e
  | .done (cnt, s1) =>
    match readField 6 s1 with
    | .raised e => .raised e
    | .done (f, s2) =>
      match readField 6 s2 with
      | .raised e => .raised e
      | .done (k, s3) =>
        if nMax < cnt then .raised .capacityExceeded else parseNumericRecords k f cnt [] s3

/-- The next `n` bytes as fields of 8 bits (44_table_codec.md R169). -/
def readBytesField : Nat → Bits → Attempt (List Byte × Bits)
  | 0, s => .done ([], s)
  | n + 1, s =>
    match readField 8 s with
    | .raised e => .raised e
    | .done (b, s1) =>
      match readBytesField n s1 with
      | .raised e => .raised e
      | .done (bs, s2) => .done (BitVec.ofNat 8 b :: bs, s2)

/-- The byte-sequence-mode parse (44_table_codec.md R169). The first argument is fuel: each record
takes bits, so a fuel of the sequence's length runs out only when no field is left to read. -/
def parseByteSeqFuel (nMax : Nat) : Nat → Table → Bits → Attempt (Table × Bits)
  | 0, _, _ => .raised .incompleteTable
  | fuel + 1, t, s =>
    match readField 6 s with
    | .raised e => .raised e
    | .done (l, s1) =>
      if l = 0 then .done (t, s1)
      else
        match readBytesField l s1 with
        | .raised e => .raised e
        | .done (key, s2) =>
          match readField 32 s2 with
          | .raised e => .raised e
          | .done (freq, s3) =>
            if hasKey t (.octets key) then .raised .duplicateKey
            else if t.length = nMax then .raised .capacityExceeded
            else parseByteSeqFuel nMax fuel (t ++ [⟨.octets key, freq⟩]) s3

/-- ParseTable (44_table_codec.md R167): the table at the head of the bits, and the bits after it. -/
def parseTable (nMax : Nat) (mode : Mode) (s : Bits) : Attempt (Table × Bits) :=
  match mode with
  | .numeric => parseNumeric nMax s
  | .byteSeq => parseByteSeqFuel nMax s.length [] s

end Sys2Proof.Machine
end

