-- ==== Sys2Proof/Machine/BitstreamPacker.lean ====
section
/-! DEFINITION. The Bitstream Packer: ENCODE and PACK (spec/45_bitstream_packer.md R190 to R197). -/

namespace Sys2Proof.Machine

/-- The table index of a key; none if it is not in the table (45_bitstream_packer.md R190). -/
def indexOf (t : Table) (k : Symbol) : Option Nat := t.findIdx? fun e => decide (e.key = k)

/-- CBITS at a table index (10_state.md R32). A valid ROM has an entry for every table index; past its
end it counts as no bits (notes/assumptions/14.md). -/
def codeAt (rom : CodeRom) (i : Nat) : Bits := rom.getD i []

/-- The loop of ENCODE (45_bitstream_packer.md R190): codes appended in stream order, up to the first
error. -/
def encodeSymbols (pbufBits : Nat) (t : Table) (rom : CodeRom) : List Symbol → Bits → Attempt Bits
  | [], p => .done p
  | k :: ks, p =>
    match indexOf t k with
    | none => .raised .unknownSymbol
    | some i =>
      if pbufBits < p.length + (codeAt rom i).length then .raised .capacityExceeded
      else encodeSymbols pbufBits t rom ks (p ++ codeAt rom i)

/-- The payload of a source and how many symbols it holds, or the first error in stream order
(45_bitstream_packer.md R190; 60_exceptions.md R247). -/
def encodeSource (pbufBits : Nat) (mode : Mode) (t : Table) (rom : CodeRom) (src : List Byte) :
    Attempt (Bits × Nat) :=
  let r := symbolStream mode src
  match encodeSymbols pbufBits t rom r.syms [] with
  | .raised e => .raised e
  | .done p =>
    match r.fail with
    | some e => .raised e
    | none => .done (p, r.syms.length)

/-- ENCODE stores its payload: PBUF_VALID is set and SYM_COUNT written (45_bitstream_packer.md
R190). -/
def State.storePayload (s : State) (p : Bits) (n : Nat) : State :=
  { s with pbuf := some p, symCount := BitVec.ofNat 32 n }

/-- ENCODE (45_bitstream_packer.md R190). CODES_VALID = 1 comes with FT_VALID = 1 (10_state.md R38); a
state in which it does not is not ready. -/
def execEncode (s : State) : Outcome :=
  match s.ft, s.crom with
  | some t, some rom =>
    s.withSource fun src =>
      match encodeSource s.cfg.pbufBits s.status.ftMode t rom src with
      | .raised e => s.raise .encode e
      | .done (p, n) => (s.storePayload p n).finish .success
  | _, _ => s.notReady

/-- The frame of a table and a payload: leading zero bits to a whole number of bytes, the marker, the
serialized table, the payload (45_bitstream_packer.md R193, R194). -/
def frameBits (cfg : Params) (tableBits payload : Bits) : Bits :=
  let body := u cfg.marker.toNat cfg.markerW ++ tableBits ++ payload
  zeros (padBits body.length) ++ body

/-- The bytes PACK writes into a destination of `cap` bytes (45_bitstream_packer.md R193). -/
def packFrame (cfg : Params) (mode : Mode) (t : Table) (payload : Bits) (cap : Nat) :
    Attempt (List Byte) :=
  match serTable mode t with
  | .raised e => .raised e
  | .done tb =>
    let frame := frameBits cfg tb payload
    if cap < frame.length / 8 then .raised .capacityExceeded else .done (bytesOf frame)

/-- PACK stores its frame and RESULT_LEN (45_bitstream_packer.md R193). -/
def State.storeFrame (s : State) (bytes : List Byte) : State :=
  { s.writeDest bytes with resultLen := BitVec.ofNat 32 bytes.length }

/-- PACK (45_bitstream_packer.md R193). -/
def execPack (s : State) : Outcome :=
  match s.ft, s.pbuf with
  | some t, some p =>
    s.withDest <|
      match packFrame s.cfg s.status.ftMode t p s.latch.args.dstCap.toNat with
      | .raised e => s.raise .pack e
      | .done bytes => (s.storeFrame bytes).finish .success
  | _, _ => s.notReady

end Sys2Proof.Machine
end

