-- ==== Sys2Proof/Machine/BitstreamUnpacker.lean ====
section
/-! DEFINITION. The Bitstream Unpacker: UNPACK and DECODE (spec/46_bitstream_unpacker.md R210 to
R218). -/

namespace Sys2Proof.Machine

/-- LocateFrame (46_bitstream_unpacker.md R210): leading zero bits are skipped, then MARKER_W bits from
the first 1 bit on, unchecked. It answers the bits after the marker. -/
def locateFrame (markerW : Nat) (s : Bits) : Attempt Bits :=
  let m := s.dropWhile (fun b => !b)
  if m = [] ∨ m.length < markerW then .raised .incompleteTable else .done (m.drop markerW)

/-- A frame taken apart: its table and its payload, or the first error in stream order
(46_bitstream_unpacker.md R211; 60_exceptions.md R247). -/
def unpackFrame (cfg : Params) (mode : Mode) (s : Bits) : Attempt (Table × Bits) :=
  match locateFrame cfg.markerW s with
  | .raised e => .raised e
  | .done s1 =>
    match parseTable cfg.nMax mode s1 with
    | .raised e => .raised e
    | .done (t, payload) =>
      if cfg.pbufBits < payload.length then .raised .capacityExceeded else .done (t, payload)

/-- UNPACK stores the table and the payload: FT_VALID and PBUF_VALID are set, TREE_VALID and
CODES_VALID cleared, and PAYLOAD_OFF written (46_bitstream_unpacker.md R211, R218). -/
def State.storeUnpacked (s : State) (t : Table) (payload : Bits) (off : Nat) : State :=
  { s with
    ft := some t, pbuf := some payload, tree := none, crom := none,
    payloadOff := BitVec.ofNat 32 off }

/-- UNPACK (46_bitstream_unpacker.md R211). -/
def execUnpack (s : State) : Outcome :=
  s.withSource fun src =>
    match unpackFrame s.cfg s.latch.mode (bitsOf src) with
    | .raised e => s.sampleMode.raise .unpack e
    | .done (t, payload) =>
      (s.sampleMode.storeUnpacked t payload ((bitsOf src).length - payload.length)).finish .success

/-- What DECODE has put out so far: the bytes, and how many symbols they are
(46_bitstream_unpacker.md R214). -/
structure Emitted where
  out : List Byte
  count : Nat
  deriving DecidableEq, Repr

/-- The record of the symbol at a table index (46_bitstream_unpacker.md R214). A tree of the current
table has no other index; past the table's end there is no record (notes/assumptions/14.md). -/
def recordAt (mode : Mode) (t : Table) (sym : Nat) : List Byte :=
  match t[sym]? with
  | some e => symbolRecord mode e.key
  | none => []

/-- Emit (46_bitstream_unpacker.md R214): one more record, if the destination has room for it. -/
def emit (cap : Nat) (r : List Byte) (d : Emitted) : Attempt Emitted :=
  if cap < d.out.length + r.length then .raised .capacityExceeded
  else .done { out := d.out ++ r, count := d.count + 1 }

/-- The child a payload bit leads to: left on 0, right on 1 (46_bitstream_unpacker.md R213). A leaf has
none; the walk never asks for one. -/
def HuffTree.child (t : HuffTree) (b : Bool) : HuffTree :=
  match t with
  | .leaf sym f => .leaf sym f
  | .internal _ _ l r => if b then r else l

/-- The walk of a tree whose root is an internal node (46_bitstream_unpacker.md R213, R214, R216): the
cursor `cur` moves with each bit, emits at a leaf and returns to the root. -/
def walkTree (mode : Mode) (t : Table) (cap : Nat) (root : HuffTree) :
    HuffTree → Bits → Emitted → Attempt Emitted
  | cur, [], d => if cur = root then .done d else .raised .corruptStream
  | cur, b :: bs, d =>
    match cur.child b with
    | .leaf sym _ =>
      match emit cap (recordAt mode t sym) d with
      | .raised e => .raised e
      | .done d' => walkTree mode t cap root root bs d'
    | .internal k f l r => walkTree mode t cap root (.internal k f l r) bs d

/-- The walk of a one-leaf tree: each 0 emits the one symbol, a 1 is an error
(46_bitstream_unpacker.md R215). -/
def walkLeaf (cap : Nat) (r : List Byte) : Bits → Emitted → Attempt Emitted
  | [], d => .done d
  | true :: _, _ => .raised .corruptStream
  | false :: bs, d =>
    match emit cap r d with
    | .raised e => .raised e
    | .done d' => walkLeaf cap r bs d'

/-- The records a payload decodes to (46_bitstream_unpacker.md R214). -/
def decodePayload (mode : Mode) (t : Table) (cap : Nat) (root : HuffTree) (payload : Bits) :
    Attempt Emitted :=
  match root with
  | .leaf sym _ => walkLeaf cap (recordAt mode t sym) payload { out := [], count := 0 }
  | .internal k f l r =>
    walkTree mode t cap (.internal k f l r) (.internal k f l r) payload { out := [], count := 0 }

/-- DECODE stores its records, RESULT_LEN and SYM_COUNT (46_bitstream_unpacker.md R214). -/
def State.storeDecoded (s : State) (d : Emitted) : State :=
  { s.writeDest d.out with
    resultLen := BitVec.ofNat 32 d.out.length, symCount := BitVec.ofNat 32 d.count }

/-- DECODE (46_bitstream_unpacker.md R214). TREE_VALID = 1 comes with FT_VALID = 1 (10_state.md R38); a
state in which it does not is not ready. -/
def execDecode (s : State) : Outcome :=
  match s.ft, s.tree, s.pbuf with
  | some t, some root, some p =>
    s.withDest <|
      match decodePayload s.status.ftMode t s.latch.args.dstCap.toNat root p with
      | .raised e => s.raise .decode e
      | .done d => (s.storeDecoded d).finish .success
  | _, _, _ => s.notReady

end Sys2Proof.Machine
end

