-- ==== Sys2Proof/Machine/CodeGenerator.lean ====
section
/-! DEFINITION. The Code Generator: GEN_CODES (spec/43_code_generator.md R140 to R145). -/

namespace Sys2Proof.Machine

/-- The leaves of a tree, left first, each with its table index and its path from a root reached by
the path `c`: 0 for a descent to the left, 1 to the right (43_code_generator.md R140, R141). -/
def HuffTree.paths (c : Bits) : HuffTree → List (Nat × Bits)
  | .leaf sym _ => [(sym, c)]
  | .internal _ _ l r => l.paths (c ++ [false]) ++ r.paths (c ++ [true])

/-- The codes of a tree by table index: the path of each leaf, and the single bit 0 for a root that is
a leaf (43_code_generator.md R140). -/
def HuffTree.codes : HuffTree → List (Nat × Bits)
  | .leaf sym _ => [(sym, [false])]
  | .internal k f l r => HuffTree.paths [] (.internal k f l r)

/-- GenCodes (43_code_generator.md R141): each code is written into the ROM at its table index. The
ROM has one entry for each leaf; entries past the table are never read (10_state.md R32). -/
def genCodes (t : HuffTree) : CodeRom :=
  t.codes.foldl (fun rom c => rom.set c.1 c.2) (List.replicate t.codes.length [])

/-- GEN_CODES stores the code ROM: CODES_VALID is set (43_code_generator.md R142). -/
def State.storeCodes (s : State) (rom : CodeRom) : State := { s with crom := some rom }

/-- GEN_CODES (43_code_generator.md R142). It has no execution error. -/
def execGenCodes (s : State) : Outcome :=
  match s.tree with
  | none => s.notReady
  | some t => .next ((s.storeCodes (genCodes t)).finish .success)

end Sys2Proof.Machine
end

