-- ==== Sys2Proof/Machine/FrequencyAnalyzer.lean ====
section
/-! DEFINITION. The Frequency Analyzer: ANALYZE (spec/41_frequency_analyzer.md R104 to R106). -/

namespace Sys2Proof.Machine

/-- Count one more occurrence of a key already in the table; none if it is not there
(41_frequency_analyzer.md R104). -/
def bump (k : Symbol) : Table → Option Table
  | [] => none
  | e :: t =>
    if e.key = k then some ({ e with freq := e.freq + 1 } :: t)
    else (bump k t).map (e :: ·)

/-- Count one symbol: a seen symbol's frequency rises, a new one is appended while there is room
(41_frequency_analyzer.md R104). -/
def countSymbol (nMax : Nat) (t : Table) (k : Symbol) : Attempt Table :=
  match bump k t with
  | some t' => .done t'
  | none => if t.length = nMax then .raised .capacityExceeded else .done (t ++ [⟨k, 1⟩])

/-- Count symbols in stream order, up to the first error (41_frequency_analyzer.md R104). -/
def countSymbols (nMax : Nat) : List Symbol → Table → Attempt Table
  | [], t => .done t
  | k :: ks, t =>
    match countSymbol nMax t k with
    | .done t' => countSymbols nMax ks t'
    | .raised e => .raised e

/-- The table of a source and how many symbols it holds, or the first error in stream order
(41_frequency_analyzer.md R104; 60_exceptions.md R247). -/
def analyzeSource (nMax : Nat) (mode : Mode) (src : List Byte) : Attempt (Table × Nat) :=
  if src = [] then .raised .emptyInput
  else
    let r := symbolStream mode src
    match countSymbols nMax r.syms [] with
    | .raised e => .raised e
    | .done t =>
      match r.fail with
      | some e => .raised e
      | none => .done (t, r.syms.length)

/-- ANALYZE stores its table: FT_VALID is set and the other valid flags are cleared, and SYM_COUNT is
written (41_frequency_analyzer.md R104; 10_state.md R39). -/
def State.storeAnalysis (s : State) (t : Table) (n : Nat) : State :=
  { s with
    ft := some t, tree := none, crom := none, pbuf := none, symCount := BitVec.ofNat 32 n }

/-- ANALYZE (41_frequency_analyzer.md R104). -/
def execAnalyze (s : State) : Outcome :=
  s.withSource fun src =>
    match analyzeSource s.cfg.nMax s.latch.mode src with
    | .raised e => s.sampleMode.raise .analyze e
    | .done (t, n) => (s.sampleMode.storeAnalysis t n).finish .success

end Sys2Proof.Machine
end

