-- ==== Sys2Proof/Machine/TreeBuilder.lean ====
section
/-! DEFINITION. The Tree Builder: BUILD_TREE (spec/42_tree_builder.md R120 to R129). -/

namespace Sys2Proof.Machine

/-- The frequency of a node (10_state.md R31). -/
def HuffTree.freq : HuffTree → Nat
  | .leaf _ f => f
  | .internal _ f _ _ => f

/-- The canonical number of a node: leaf i is node i (42_tree_builder.md R122). -/
def HuffTree.number : HuffTree → Nat
  | .leaf sym _ => sym
  | .internal k _ _ _ => k

/-- ROOT: the number of the root node (10_state.md R31). -/
def HuffTree.root (t : HuffTree) : Nat := t.number

/-- What NODE holds at one index (10_state.md R31). -/
inductive Node where
  | leaf (sym freq : Nat)
  | internal (left right freq : Nat)
  deriving DecidableEq, Repr

/-- NODE[x].freq (10_state.md R31). -/
def Node.freq : Node → Nat
  | .leaf _ f => f
  | .internal _ _ f => f

/-- NODE, as (index, node) pairs: the node pool of a tree in the canonical numbering (10_state.md R31;
42_tree_builder.md R122). -/
def HuffTree.nodes : HuffTree → List (Nat × Node)
  | .leaf sym f => [(sym, .leaf sym f)]
  | .internal k f l r => l.nodes ++ r.nodes ++ [(k, .internal l.number r.number f)]

/-- `Insert(Q, x)`: x goes before the first node whose frequency is at least its own, or at the end
(42_tree_builder.md R120). -/
def insertNode (x : HuffTree) : List HuffTree → List HuffTree
  | [] => [x]
  | y :: q => if x.freq ≤ y.freq then x :: y :: q else y :: insertNode x q

/-- The leaves of a table inserted in table order, the first of them with table index `i`
(42_tree_builder.md R122). -/
def insertLeaves (i : Nat) : Table → List HuffTree → List HuffTree
  | [], q => q
  | e :: t, q => insertLeaves (i + 1) t (insertNode (.leaf i e.freq) q)

/-- The merge loop (42_tree_builder.md R122): while two nodes are left, the first removed becomes the
left child and the second the right child of node `k` (R121). The first argument is fuel: each merge
shortens Q by one, so a fuel of Q's length suffices. -/
def mergeNodes : Nat → Nat → List HuffTree → List HuffTree
  | fuel + 1, k, a :: b :: q =>
    mergeNodes fuel (k + 1) (insertNode (.internal k (a.freq + b.freq) a b) q)
  | _, _, q => q

/-- BuildTree (42_tree_builder.md R122): the tree of a table, none for an empty table. A one-entry
table gives its leaf without a merge (R124). -/
def buildTree (t : Table) : Option HuffTree :=
  (mergeNodes t.length t.length (insertLeaves 0 t [])).head?

/-- BUILD_TREE stores its tree: TREE_VALID is set and CODES_VALID cleared (42_tree_builder.md R123). -/
def State.storeTree (s : State) (t : HuffTree) : State :=
  { s with tree := some t, crom := none }

/-- BUILD_TREE (42_tree_builder.md R123). Only an empty table has no tree. -/
def execBuildTree (s : State) : Outcome :=
  match s.ft with
  | none => s.notReady
  | some t =>
    match buildTree t with
    | none => .next (s.raise .buildTree .emptyInput)
    | some tree => .next ((s.storeTree tree).finish .success)

end Sys2Proof.Machine
end

