-- ==== Sys2Proof/Machine/HostPort.lean ====
section
/-! DEFINITION. The host port: what a host access to the register window or the BUF window does
(spec/10_state.md R22 to R29, R37; spec/20_memory.md R50 to R57), and the platform's reset
(spec/70_reset_and_hazards.md R280). -/

namespace Sys2Proof.Machine

/-- The size of the host address range the block decodes (20_memory.md R52). -/
def blockSize : Nat := 0x20000

/-- The block offset of the BUF window (20_memory.md R50). -/
def bufWindow : Nat := 0x10000

/-- The offset of a register (10_state.md R22). -/
def Reg.offset : Reg → Nat
  | .ctrl => 0x00
  | .cmd => 0x04
  | .status => 0x08
  | .srcBase => 0x0C
  | .srcLen => 0x10
  | .dstBase => 0x14
  | .dstCap => 0x18
  | .resultLen => 0x1C
  | .symCount => 0x20
  | .tableCount => 0x24
  | .pbitLen => 0x28
  | .payloadOff => 0x2C
  | .cfgNmax => 0x30
  | .cfgBufbytes => 0x34
  | .cfgPbufbits => 0x38
  | .cfgMarker => 0x3C
  | .cfgMarkerW => 0x40

/-- The registers in the order of their offsets (10_state.md R22). -/
def Reg.all : List Reg :=
  [.ctrl, .cmd, .status, .srcBase, .srcLen, .dstBase, .dstCap, .resultLen, .symCount, .tableCount,
   .pbitLen, .payloadOff, .cfgNmax, .cfgBufbytes, .cfgPbufbits, .cfgMarker, .cfgMarkerW]

/-- The register at an offset; none at an unmapped or unaligned one (10_state.md R22). -/
def regAt (off : Nat) : Option Reg := Reg.all.find? fun r => decide (r.offset = off)

/-- The RO registers: a write to one is ill-formed (10_state.md R22; 20_memory.md R55). STATUS is not
among them: a write to it clears its W1C bits (10_state.md R25). -/
def Reg.readOnly : Reg → Bool
  | .ctrl => false
  | .cmd => false
  | .status => false
  | .srcBase => false
  | .srcLen => false
  | .dstBase => false
  | .dstCap => false
  | .resultLen => true
  | .symCount => true
  | .tableCount => true
  | .pbitLen => true
  | .payloadOff => true
  | .cfgNmax => true
  | .cfgBufbytes => true
  | .cfgPbufbits => true
  | .cfgMarker => true
  | .cfgMarkerW => true

/-- Where a host access goes. -/
inductive Target where
  /-- A register, in a 32-bit 4-aligned access at its offset (20_memory.md R53). -/
  | reg (r : Reg)
  /-- One byte of BUF (20_memory.md R54). -/
  | bufByte (a : Nat)
  /-- Four bytes of BUF (20_memory.md R54). -/
  | bufWord (a : Nat)
  /-- An ill-formed access to the register window (20_memory.md R55). -/
  | badReg
  /-- An ill-formed access to the BUF window (20_memory.md R55). -/
  | badBuf
  /-- An address the block does not decode (20_memory.md R52). -/
  | outside
  deriving DecidableEq, Repr

/-- The window and the offset that a host address stands for (20_memory.md R50, R52). An address the
block does not decode stays as it is. An access is decoded by the address of its first byte
(notes/assumptions/15.md). -/
def resolve (cfg : Params) (p : Place) : Place :=
  match p with
  | .reg off => .reg off
  | .buf a => .buf a
  | .address addr =>
    if cfg.blockBase ≤ addr ∧ addr < cfg.blockBase + blockSize then
      if addr - cfg.blockBase < bufWindow then .reg (addr - cfg.blockBase)
      else .buf (addr - cfg.blockBase - bufWindow)
    else .address addr

/-- An access at an offset of the register window (20_memory.md R53, R55). -/
def regTarget (off width : Nat) : Target :=
  if width = 32 then
    match regAt off with
    | some r => .reg r
    | none => .badReg
  else .badReg

/-- An access at an offset of the BUF window (20_memory.md R54, R55). -/
def bufTarget (bufBytes a width : Nat) : Target :=
  if width = 8 ∧ a < bufBytes then .bufByte a
  else if width = 32 ∧ a % 4 = 0 ∧ a + 4 ≤ bufBytes then .bufWord a
  else .badBuf

/-- Where a host access goes (20_memory.md R50 to R55). -/
def target (cfg : Params) (p : Place) (width : Nat) : Target :=
  match resolve cfg p with
  | .reg off => regTarget off width
  | .buf a => bufTarget cfg.bufBytes a width
  | .address _ => .outside

/-- STATUS.HAZ is set (20_memory.md R57; 60_exceptions.md R242). -/
def State.setHaz (s : State) : State := { s with status := { s.status with haz := true } }

/-- STATUS.BUSERR is set (20_memory.md R55). -/
def State.setBuserr (s : State) : State := { s with status := { s.status with buserr := true } }

/-- An ill-formed BUF access while BUSY = 1: R55 gives BUSERR, R57 gives HAZ. Which of them is set is
a free value, at least one is (notes/assumptions/9.md). -/
def State.lockedIllFormed (s : State) : State :=
  let c := Config.illFormedWhileLocked s.draws
  { s with
    status :=
      { s.status with
        haz := s.status.haz || decide (c ≠ 1)
        buserr := s.status.buserr || decide (c ≠ 0) }
    draws := s.draws + 1 }

/-- The effect of an ill-formed access: STATUS.BUSERR and nothing else (20_memory.md R55). -/
def State.illFormedBuf (s : State) : State :=
  if s.status.busy then s.lockedIllFormed else s.setBuserr

/-- The block answers a host access with data, or with none (a write, or an address it does not
decode). -/
def State.answer (s : State) (d : Option Word) : State := { s with hostData := d }

/-- What a register reads as (10_state.md R22 to R29, R37). CMD reads 0 (R24). -/
def State.readReg (s : State) : Reg → Word
  | .ctrl => s.ctrl.word
  | .cmd => 0
  | .status => s.statusWord
  | .srcBase => s.operands.srcBase
  | .srcLen => s.operands.srcLen
  | .dstBase => s.operands.dstBase
  | .dstCap => s.operands.dstCap
  | .resultLen => s.resultLen
  | .symCount => s.symCount
  | .tableCount => s.tableCount
  | .pbitLen => s.pbitLen
  | .payloadOff => s.payloadOff
  | .cfgNmax => BitVec.ofNat 32 s.cfg.nMax
  | .cfgBufbytes => BitVec.ofNat 32 s.cfg.bufBytes
  | .cfgPbufbits => BitVec.ofNat 32 s.cfg.pbufBits
  | .cfgMarker => s.cfg.marker
  | .cfgMarkerW => BitVec.ofNat 32 s.cfg.markerW

/-- A write to CTRL: bits 31:2 are ignored (10_state.md R23). -/
def State.writeCtrl (s : State) (d : Word) : State :=
  { s with ctrl := { mode := Mode.ofBit (d.getLsbD 0), irqEn := d.getLsbD 1 } }

/-- A write to CMD: accepted while BUSY = 0, dropped with HAZ while BUSY = 1 (60_exceptions.md R240,
R242). -/
def State.writeCmd (s : State) (d : Word) : State := if s.status.busy then s.setHaz else s.accept d

/-- HAZ and BUSERR are cleared where the written bit is 1 (10_state.md R25). -/
def State.clearSticky (s : State) (d : Word) : State :=
  { s with
    status :=
      { s.status with
        haz := s.status.haz && !d.getLsbD 3
        buserr := s.status.buserr && !d.getLsbD 4 } }

/-- A write to STATUS clears each W1C bit whose written bit is 1 (10_state.md R25): DONE by the
acknowledgement, HAZ and BUSERR. -/
def State.writeStatus (s : State) (d : Word) : State :=
  (if d.getLsbD 1 then s.acknowledge else s).clearSticky d

/-- A well-formed write to a register (10_state.md R22 to R27). A write to an RO register is
ill-formed (20_memory.md R55). -/
def State.writeReg (s : State) (r : Reg) (d : Word) : State :=
  match r with
  | .ctrl => s.writeCtrl d
  | .cmd => s.writeCmd d
  | .status => s.writeStatus d
  | .srcBase => { s with operands := { s.operands with srcBase := d } }
  | .srcLen => { s with operands := { s.operands with srcLen := d } }
  | .dstBase => { s with operands := { s.operands with dstBase := d } }
  | .dstCap => { s with operands := { s.operands with dstCap := d } }
  | .resultLen => s.setBuserr
  | .symCount => s.setBuserr
  | .tableCount => s.setBuserr
  | .pbitLen => s.setBuserr
  | .payloadOff => s.setBuserr
  | .cfgNmax => s.setBuserr
  | .cfgBufbytes => s.setBuserr
  | .cfgPbufbits => s.setBuserr
  | .cfgMarker => s.setBuserr
  | .cfgMarkerW => s.setBuserr

/-- A host read of `n` bytes of BUF: 0 with HAZ while BUSY = 1; the bytes, composed big-endian, while
BUSY = 0; the model fault if one of them holds no value (20_memory.md R51, R54, R57). -/
def State.hostReadBuf (s : State) (a n : Nat) : Outcome :=
  if s.status.busy then .next (s.setHaz.answer (some 0))
  else
    match s.buf.readBytes a n with
    | some bs => .next (s.answer (some (BitVec.ofNat 32 (be bs))))
    | none => .fault .bufByteHoldsNoValue

/-- A host write of the low `n` bytes of `d` to BUF, big-endian; dropped with HAZ while BUSY = 1
(20_memory.md R54, R57). -/
def State.hostWriteBuf (s : State) (a n : Nat) (d : Word) : State :=
  if s.status.busy then s.setHaz else { s with buf := s.buf.writeBytes a (bytesBE d.toNat n) }

/-- A host read. An ill-formed one returns 0 (20_memory.md R55). -/
def State.hostRead (s : State) (p : Place) (width : Nat) : Outcome :=
  match target s.cfg p width with
  | .reg r => .next (s.answer (some (s.readReg r)))
  | .bufByte a => s.hostReadBuf a 1
  | .bufWord a => s.hostReadBuf a 4
  | .badReg => .next (s.setBuserr.answer (some 0))
  | .badBuf => .next (s.illFormedBuf.answer (some 0))
  | .outside => .next (s.answer none)

/-- A host write. -/
def State.hostWrite (s : State) (p : Place) (width : Nat) (d : Word) : State :=
  match target s.cfg p width with
  | .reg r => (s.writeReg r d).answer none
  | .bufByte a => (s.hostWriteBuf a 1 d).answer none
  | .bufWord a => (s.hostWriteBuf a 4 d).answer none
  | .badReg => s.setBuserr.answer none
  | .badBuf => s.illFormedBuf.answer none
  | .outside => s.answer none

/-- One host access (20_memory.md R62: one indivisible transition). -/
def hostAccess (a : Access) (s : State) : Outcome :=
  match a with
  | .read p width => s.hostRead p width
  | .write p width d => .next (s.hostWrite p width d)

/-- A command is running that may have written bytes of its destination region: it is PACK or DECODE
and its pre-checks pass. -/
def State.mayHaveWritten (s : State) : Bool :=
  s.status.busy &&
    match decode s.latch.cmd with
    | .command i => (failEffect i).spoilsDest && s.ready i && decide s.dstValid
    | .illegal _ => false

/-- How many bytes a reset leaves with any value: the destination region of the command it abandons
(93_implementation_defined.md U7). -/
def State.abandonedBytes (s : State) : Nat :=
  if s.mayHaveWritten then s.latch.args.dstCap.toNat else 0

/-- The platform's reset (70_reset_and_hazards.md R280, R281): the state after reset. A running
command is abandoned: its destination region holds free values, any value as U7 says
(DESIGN CHOICE, notes/assumptions/10.md), and no other byte of BUF holds a value. The parameters stay,
and so does the model's own agenda. -/
def State.platformReset (s : State) : State :=
  { State.resetWith s.cfg with
    agenda := s.agenda
    buf := Memory.writeBytes [] s.latch.args.dstBase.toNat (drawBytes s.draws s.abandonedBytes)
    draws := s.draws + s.abandonedBytes }

end Sys2Proof.Machine
end

