-- ==== Sys2Proof/Machine/Lifecycle.lean ====
section
/-! DEFINITION. The command lifecycle (spec/60_exceptions.md R240, R241): where the command word comes
from, the completion step, and what each event of the agenda does. -/

namespace Sys2Proof.Machine

/-- The command word the completion step decodes: the latched one (30_encoding.md R73). -/
def fetchWord (s : State) : Word := s.latch.cmd

/-- The completion step (60_exceptions.md R241, R246): the ILLEGAL_COMMAND check, then the command. -/
def completionStep (s : State) : Outcome :=
  match decode (fetchWord s) with
  | .command i => exec i s
  | .illegal _ => .next (s.finish .illegalCommand)

/-- The core's turn: the completion step is enabled while BUSY = 1; while BUSY = 0 the core is idle
(60_exceptions.md R268; 70_reset_and_hazards.md R291). -/
def coreTurn (s : State) : Outcome := if s.status.busy then completionStep s else .next s

/-- What one event does. -/
def runEvent (ev : Event) (s : State) : Outcome :=
  match ev with
  | .access a => hostAccess a s
  | .completion => coreTurn s
  | .reset => .next s.platformReset

/-- The next transition: the first event of the agenda; with nothing on the agenda, the core's turn
(notes/assumptions/3.md). -/
def nextTransition (s : State) : Outcome :=
  match s.agenda with
  | [] => coreTurn s
  | ev :: rest => runEvent ev { s with agenda := rest }

/-- The state in which the command word `w` has been accepted and the next transition is its
completion (notes/assumptions/4.md). -/
def State.placeCommand (s : State) (w : Word) : State :=
  { s.accept w with agenda := .completion :: s.agenda }

end Sys2Proof.Machine
end

