-- ==== Sys2Proof/Machine/Step.lean ====
section
/-! DEFINITION. One step of the machine (spec/20_memory.md R65): one host access, one completion step
or one reset, as the agenda says; and the placing of a command word for the next step. -/

namespace Sys2Proof.Machine

/-- One step. -/
def step (s : State) : Host.Outcome State Fault Refusal := nextTransition s

/-- The state whose next step runs the command word `w` of `nbits` bits (the host's interface): the
word is accepted as if the host had written it to CMD, and the next event is its completion
(notes/assumptions/4.md). -/
def State.withFetchWord (s : State) (nbits w : Nat) : State :=
  s.placeCommand (BitVec.ofNat 32 (w % 2 ^ nbits))

end Sys2Proof.Machine
end

