-- ==== Sys2Proof/Machine/Script.lean ====
section
/-! DEFINITION. Host scripts (spec/30_encoding.md R76) and pseudo-commands (R77): the host accesses of a
script, and how a script runs on the block under any schedule (spec/20_memory.md R65). -/

namespace Sys2Proof.Machine

/-- A statement of a host script (30_encoding.md R76). -/
inductive Stmt where
  | wr (r : Reg) (v : Word)
  | rd (r : Reg)
  | bufw (a : Nat) (bs : List Byte)
  | bufr (a n : Nat)
  | cmd (i : Instr)
  | wait
  deriving DecidableEq, Repr

/-- What a script has the host do next: one access, or the loop of WAIT, which reads STATUS until
BUSY = 0. -/
inductive HostAction where
  | access (a : Access)
  | pollUntilIdle
  deriving DecidableEq, Repr

/-- One 32-bit write of a register (30_encoding.md R76). -/
def writeAccess (r : Reg) (v : Word) : Access := .write (.reg r.offset) 32 v

/-- One 32-bit read of a register (30_encoding.md R76). -/
def readAccess (r : Reg) : Access := .read (.reg r.offset) 32

/-- One 8-bit BUF write per byte, in increasing address order (30_encoding.md R76). -/
def bufWrites (a : Nat) : List Byte → List HostAction
  | [] => []
  | b :: bs => .access (.write (.buf a) 8 (b.setWidth 32)) :: bufWrites (a + 1) bs

/-- One 8-bit BUF read per byte (30_encoding.md R76). R76 gives the order of the bytes for BUFW only:
that BUFR reads them in increasing address order too is a DESIGN CHOICE (notes/assumptions/25.md). -/
def bufReads (a : Nat) : Nat → List HostAction
  | 0 => []
  | n + 1 => .access (.read (.buf a) 8) :: bufReads (a + 1) n

/-- What a statement has the host do (30_encoding.md R76). -/
def Stmt.actions : Stmt → List HostAction
  | .wr r v => [.access (writeAccess r v)]
  | .rd r => [.access (readAccess r)]
  | .bufw a bs => bufWrites a bs
  | .bufr a n => bufReads a n
  | .cmd i => [.access (writeAccess .cmd (encode i))]
  | .wait => [.pollUntilIdle]

/-- What a script has the host do. -/
def scriptActions (script : List Stmt) : List HostAction := script.flatMap Stmt.actions

/-- `RUN <MNEMONIC>` (30_encoding.md R77). -/
def runCmd (i : Instr) : List Stmt := [.cmd i, .wait]

/-- `COMPRESS` (30_encoding.md R77). -/
def compress : List Stmt := [Instr.analyze, .buildTree, .genCodes, .encode, .pack].flatMap runCmd

/-- `DECOMPRESS` (30_encoding.md R77). -/
def decompress : List Stmt := [Instr.unpack, .buildTree, .decode].flatMap runCmd

/-- Whose turn it is (20_memory.md R65): the host's, with its next access, or the core's, with its
completion step, which does nothing while no command runs. The schedule of a script is a list of them
(notes/assumptions/18.md). -/
inductive Turn where
  | host
  | core
  deriving DecidableEq, Repr

/-- A script under way: what the host still has to do, and the state of the block. -/
structure ScriptRun where
  todo : List HostAction
  state : State
  deriving DecidableEq, Repr

/-- The access the host makes next: a read of STATUS while it waits (30_encoding.md R76). -/
def HostAction.next : HostAction → Access
  | .access a => a
  | .pollUntilIdle => readAccess .status

/-- The read of STATUS just made answered BUSY = 1 (10_state.md R25). -/
def State.sawBusy (s : State) : Bool := (s.hostData.getD 0).getLsbD 0

/-- What is left of an action once its access is made and the block is in the state `t`: a WAIT stays
until its read has answered BUSY = 0 (30_encoding.md R76). -/
def HostAction.rest (t : State) : HostAction → List HostAction
  | .access _ => []
  | .pollUntilIdle => if t.sawBusy then [.pollUntilIdle] else []

/-- One event, as one step of the machine. -/
def State.stepOn (s : State) (ev : Event) : Outcome := step { s with agenda := ev :: s.agenda }

/-- One turn of a script: one step of the machine. A host that has nothing left to do makes none. -/
def ScriptRun.turn (r : ScriptRun) : Turn → Host.Outcome ScriptRun Fault Refusal
  | .core =>
    match r.state.stepOn .completion with
    | .next t => .next { r with state := t }
    | .fault f => .fault f
    | .refused e => .refused e
  | .host =>
    match r.todo with
    | [] => .next r
    | a :: todo =>
      match r.state.stepOn (.access a.next) with
      | .next t => .next { todo := a.rest t ++ todo, state := t }
      | .fault f => .fault f
      | .refused e => .refused e

/-- A script under a schedule, turn by turn. It has run to its end when nothing is left to do. -/
def ScriptRun.run (r : ScriptRun) : List Turn → Host.Outcome ScriptRun Fault Refusal
  | [] => .next r
  | t :: ts =>
    match r.turn t with
    | .next r' => r'.run ts
    | .fault f => .fault f
    | .refused e => .refused e

/-- The script from its start on, in the state `s`. -/
def startScript (script : List Stmt) (s : State) : ScriptRun :=
  { todo := scriptActions script, state := s }

end Sys2Proof.Machine
end

