-- ==== Sys2Proof/Safety.lean ====
section
/-! DEFINITION. What the statements about the block are said in: the invariant of the machine
(spec/10_state.md R30, R31, R38), the pre-checks as the spec tables them (spec/60_exceptions.md R246),
the source of a symbol sequence, the core's turn, and running one command from its acceptance to its
completion. -/

namespace Sys2Proof.Machine

/-- The leaves of a tree, left first: table index and frequency (10_state.md R31). -/
def HuffTree.leaves : HuffTree → List (Nat × Nat)
  | .leaf sym f => [(sym, f)]
  | .internal _ _ l r => l.leaves ++ r.leaves

/-- Every internal node's frequency is the sum of its children's (10_state.md R31). -/
def HuffTree.freqsAdd : HuffTree → Prop
  | .leaf _ _ => True
  | .internal _ f l r => f = l.freq + r.freq ∧ l.freqsAdd ∧ r.freqsAdd

/-- A table the block can hold (10_state.md R30): at most N_MAX entries, keys distinct and of the
table's mode, frequencies below 2⁶³, and below 2³² in byte-sequence mode, where a frequency comes from
a 32-bit field or from counting (44_table_codec.md R165). -/
structure TableOk (nMax : Nat) (mode : Mode) (t : Table) : Prop where
  room : t.length ≤ nMax
  keysDistinct : (t.map (·.key)).Nodup
  keysFit : ∀ e ∈ t, e.key.okFor mode = true
  freqsFit : ∀ e ∈ t, e.freq < 2 ^ 63
  byteSeqFreqsFit : mode = .byteSeq → ∀ e ∈ t, e.freq < 2 ^ 32

/-- The invariant of the machine: in every state a run reaches, from any reset, it holds. -/
structure Inv (s : State) : Prop where
  /-- The parameters meet their constraints (00_scope.md R9). -/
  cfgOk : s.cfg.WellFormed
  /-- BUF is in canonical form. -/
  bufCanonical : s.buf.wf
  /-- BUF holds bytes only where it exists (20_memory.md R51). -/
  bufInside : s.buf.below s.cfg.bufBytes
  /-- FT is a table of the mode FT_MODE (10_state.md R30, R33). -/
  tableOk : ∀ t, s.ft = some t → TableOk s.cfg.nMax s.status.ftMode t
  /-- TREE_VALID implies FT_VALID, and TREE is the result of BUILD_TREE on FT (10_state.md R38). -/
  treeOfTable : s.tree = none ∨ s.tree = s.ft.bind buildTree
  /-- CODES_VALID implies TREE_VALID, and CROM is the result of GEN_CODES on TREE
  (10_state.md R38). -/
  codesOfTree : s.crom = none ∨ s.crom = s.tree.map genCodes
  /-- PBUF_VALID implies FT_VALID (10_state.md R38), and PBUF fits (R34). -/
  payloadOk : ∀ p, s.pbuf = some p → s.ft.isSome ∧ p.length ≤ s.cfg.pbufBits
  /-- While a command runs, its report is not there yet and LASTOP is its own (60_exceptions.md
  R240, R241). -/
  running : s.status.busy = true →
    s.status.done = false ∧ s.status.errcode = .success ∧ s.status.lastop = opField s.latch.cmd

/-- The pre-checks after ILLEGAL_COMMAND, in their order (60_exceptions.md R246). -/
def preCheck (i : Instr) (s : State) : Option ErrCode :=
  if s.ready i = false then some .notReady
  else
    match i with
    | .analyze => if s.srcValid then none else some .regionFault
    | .buildTree => none
    | .genCodes => none
    | .encode => if s.srcValid then none else some .regionFault
    | .pack => if s.dstValid then none else some .regionFault
    | .unpack => if s.srcValid then none else some .regionFault
    | .decode => if s.dstValid then none else some .regionFault

/-- The commands that read a source region (20_memory.md R56). -/
def readsSource : Instr → Bool
  | .analyze => true
  | .buildTree => false
  | .genCodes => false
  | .encode => true
  | .pack => false
  | .unpack => true
  | .decode => false

/-- The commands that write a destination region (20_memory.md R56). -/
def writesDest : Instr → Bool
  | .analyze => false
  | .buildTree => false
  | .genCodes => false
  | .encode => false
  | .pack => true
  | .unpack => false
  | .decode => true

/-- A byte of the latched source region that the command may read holds a value: what a conforming
host sees to (70_reset_and_hazards.md R283). -/
def State.srcHeld (s : State) : Prop := ∃ src, s.srcBytes = some src

/-- The address lies in the latched source region. -/
abbrev State.inSrc (s : State) (a : Nat) : Prop :=
  inRegion s.latch.args.srcBase.toNat s.latch.args.srcLen.toNat a

/-- The address is one of the first `n` of the latched destination region. -/
abbrev State.inDst (s : State) (n a : Nat) : Prop := inRegion s.latch.args.dstBase.toNat n a

/-- The order of Q on nodes of the pool (42_tree_builder.md R126): the lower frequency first, and of
equal frequencies the node inserted later, which has the higher canonical number (R122). -/
abbrev queuedBefore (x y : Nat × Node) : Prop :=
  x.2.freq < y.2.freq ∨ x.2.freq = y.2.freq ∧ y.1 < x.1

/-- Node `j` of a pool is a child of an internal node made before node `k`: it has left Q when node `k`
is made (42_tree_builder.md R122). -/
def mergedBefore (pool : List (Nat × Node)) (k j : Nat) : Prop :=
  ∃ k' l m f, (k', Node.internal l m f) ∈ pool ∧ k' < k ∧ (j = l ∨ j = m)

/-- The bytes of a symbol sequence (41_frequency_analyzer.md R100): its records, one after another. -/
def records (mode : Mode) (syms : List Symbol) : List Byte := syms.flatMap (symbolRecord mode)

/-- The frequency table of a symbol sequence, said in one go: its distinct symbols in order of first
occurrence, each with the number of its occurrences (41_frequency_analyzer.md R105, R106). -/
def tally (ks : List Symbol) : Table := ks.eraseDups.map fun k => ⟨k, ks.count k⟩

/-- The code of a symbol: the one the ROM holds at its table index (45_bitstream_packer.md R191). -/
def codeOf (t : Table) (rom : CodeRom) (k : Symbol) : Bits :=
  match indexOf t k with
  | some i => codeAt rom i
  | none => []

/-- The frame length in bytes of a marker, a table and a payload of these lengths in bits
(45_bitstream_packer.md R197). -/
def frameBytes (markerW tableBits payloadBits : Nat) : Nat :=
  (markerW + tableBits + payloadBits + 7) / 8

/-- The next transition is the core's completion step, and `rest` is the agenda after it. -/
def State.coreMoves (s : State) (rest : List Event) : Prop :=
  s.status.busy = true ∧ (s.agenda = .completion :: rest ∨ s.agenda = [] ∧ rest = [])

/-- The next transition is the event `ev`, and `rest` is the agenda after it. -/
def State.nextIs (s : State) (ev : Event) (rest : List Event) : Prop := s.agenda = ev :: rest

/-- The next transition is the completion of the command `i`. -/
def State.completes (s : State) (i : Instr) : Prop :=
  (∃ rest, s.coreMoves rest) ∧ s.latch.cmd = encode i

/-- The next transition is the platform's reset. -/
def State.resets (s : State) : Prop := ∃ rest, s.nextIs .reset rest

/-- The next transition is a well-formed write of `d` to the register `r`. -/
def State.writes (s : State) (r : Reg) (d : Word) : Prop :=
  ∃ p width rest, s.nextIs (.access (.write p width d)) rest ∧ target s.cfg p width = .reg r

/-- STATUS after a command has ended with the code `e` (60_exceptions.md R241). -/
def Status.ended (st : Status) (e : ErrCode) : Status :=
  { st with busy := false, done := true, errcode := e }

/-- One command from its acceptance to its completion; none if the model stops (60_exceptions.md
R240, R241). -/
def runCommand (s : State) (i : Instr) : Option State :=
  match completionStep (s.accept (encode i)) with
  | .next t => some t
  | .fault _ => none
  | .refused _ => none

/-- Commands one after another (30_encoding.md R77); none if the model stops or one of them reports an
error. -/
def runAll (s : State) : List Instr → Option State
  | [] => some s
  | i :: is =>
    match runCommand s i with
    | some t => if t.status.errcode = .success then runAll t is else none
    | none => none

end Sys2Proof.Machine
end

