-- ==== Sys2Proof/Certificates/Slice0/Obligations.lean ====
section
/-! DEFINITION. The statements for the provers: what the numbered rules of the spec say of this
machine. The fields `agenda`, `hostData` and `draws` of a state are the model's own
(notes/assumptions/3.md, 16.md, 17.md): what a statement says of them is the model's convention, not the
spec's. -/

open Sys2Proof
open Sys2Proof.Machine

/-! ## Command words -/

/-- 30_encoding.md R72, R74: command words written out bit by bit decode to the commands they stand
for, and illegal words to their reasons. -/
def Obligations.CommandWordsDecode : Prop :=
  decode 0b00000000000000000000000000000001#32 = .command .analyze ∧
  decode 0b00000000000000000000000000000010#32 = .command .buildTree ∧
  decode 0b00000000000000000000000000000011#32 = .command .genCodes ∧
  decode 0b00000000000000000000000000000100#32 = .command .encode ∧
  decode 0b00000000000000000000000000000101#32 = .command .pack ∧
  decode 0b00000000000000000000000000000110#32 = .command .unpack ∧
  decode 0b00000000000000000000000000000111#32 = .command .decode ∧
  decode 0b00000000000000000000000000000000#32 = .illegal .noSuchOpcode ∧
  decode 0b00000000000000000000000000001000#32 = .illegal .noSuchOpcode ∧
  decode 0b00000000000000000000000000001111#32 = .illegal .noSuchOpcode ∧
  decode 0b00000000000000000000000000010001#32 = .illegal .reservedBits ∧
  decode 0b10000000000000000000000000000010#32 = .illegal .reservedBits

/-- 30_encoding.md R72: a word selects a command only when RSVD is 0 and OP is 1 to 7, each command has
exactly one word, and the words are 1 to 7 in the order of the table. -/
def Obligations.EachCommandHasOneWord : Prop :=
  (∀ w : Word, (∃ i, decode w = .command i) ↔ CommandWordOk w) ∧
  (∀ (w : Word) (i : Instr), decode w = .command i ↔ encode i = w) ∧
  [Instr.analyze, .buildTree, .genCodes, .encode, .pack, .unpack, .decode].map
    (fun i => (encode i).toNat) = [1, 2, 3, 4, 5, 6, 7]

/-! ## The command lifecycle -/

/-- 30_encoding.md R73: when the core moves, the step runs the latched command, with the agenda's
completion event taken off; an illegal word ends with ILLEGAL_COMMAND and changes nothing else; every
word is one or the other. -/
def Obligations.StepRunsLatchedCommand : Prop :=
  ∀ (s : State) (rest : List Event), s.coreMoves rest →
    (∀ i, s.latch.cmd = encode i → step s = exec i { s with agenda := rest }) ∧
    (¬ CommandWordOk s.latch.cmd →
      step s = .next { s with agenda := rest, status := s.status.ended .illegalCommand }) ∧
    ((∃ i, s.latch.cmd = encode i) ∨ ¬ CommandWordOk s.latch.cmd)

/-- 60_exceptions.md R240: a write to CMD while BUSY = 0 is accepted: the operands are latched, LASTOP
is bits 3:0 of the word, DONE, ERR and ERRCODE are cleared, BUSY is set, and nothing else changes. -/
def Obligations.CmdWriteIsAccepted : Prop :=
  ∀ (s : State) (w : Word) (rest : List Event),
    s.nextIs (.access (.write (.reg 0x04) 32 w)) rest → s.status.busy = false →
    ∃ t, step s = .next t ∧
      t = { s with
            agenda := rest, hostData := t.hostData
            latch := { cmd := w, mode := s.ctrl.mode, args := s.operands }
            status :=
              { s.status with
                busy := true, done := false, errcode := .success, lastop := w.extractLsb 3 0 } }

/-- 60_exceptions.md R242: a write to CMD while BUSY = 1 is dropped, sets HAZ and changes nothing
else. -/
def Obligations.CmdWriteWhileBusyIsDropped : Prop :=
  ∀ (s : State) (w : Word) (rest : List Event),
    s.nextIs (.access (.write (.reg 0x04) 32 w)) rest → s.status.busy = true →
    ∃ t, step s = .next t ∧
      t = { s with
            agenda := rest, hostData := t.hostData, status := { s.status with haz := true } }

/-- 60_exceptions.md R241, 70_reset_and_hazards.md R291: whatever the latched word and the stores hold,
a command whose source bytes hold values completes in one step: BUSY = 0 and DONE = 1. -/
def Obligations.EveryCommandCompletes : Prop :=
  ∀ (s : State) (rest : List Event), s.coreMoves rest →
    ((∃ i, s.latch.cmd = encode i ∧ readsSource i = true) → s.srcValid → s.srcHeld) →
    ∃ t, step s = .next t ∧ t.status.busy = false ∧ t.status.done = true ∧ t.agenda = rest

/-- 60_exceptions.md R246: the pre-checks run in the order ILLEGAL_COMMAND, NOT_READY, REGION_FAULT; the
first that fails gives its code, and nothing but STATUS changes. -/
def Obligations.PreCheckErrorChangesOnlyStatus : Prop :=
  ∀ s : State, Inv s →
    (¬ CommandWordOk s.latch.cmd →
      completionStep s = .next { s with status := s.status.ended .illegalCommand }) ∧
    (∀ (i : Instr) (e : ErrCode), s.latch.cmd = encode i → preCheck i s = some e →
      completionStep s = .next { s with status := s.status.ended e })

/-- 60_exceptions.md R250: an execution error clears the command's valid flags, zeroes its count
registers, leaves every byte of a destination region with some value, keeps the sampled FT_MODE, and
changes nothing else. -/
def Obligations.ExecutionErrorEffects : Prop :=
  ∀ (i : Instr) (s t : State), Inv s → preCheck i s = none → exec i s = .next t →
    t.status.errcode ≠ .success →
    (∃ (b : Memory) (k : Nat), t =
      match i with
      | .analyze =>
        { s with
          status := { s.status.ended t.status.errcode with ftMode := s.latch.mode }
          ft := none, tree := none, crom := none, pbuf := none, symCount := 0 }
      | .buildTree =>
        { s with status := s.status.ended t.status.errcode, tree := none, crom := none }
      | .genCodes => { s with status := s.status.ended t.status.errcode, crom := none }
      | .encode =>
        { s with status := s.status.ended t.status.errcode, pbuf := none, symCount := 0 }
      | .pack =>
        { s with status := s.status.ended t.status.errcode, resultLen := 0, buf := b, draws := k }
      | .unpack =>
        { s with
          status := { s.status.ended t.status.errcode with ftMode := s.latch.mode }
          ft := none, tree := none, crom := none, pbuf := none, payloadOff := 0 }
      | .decode =>
        { s with
          status := s.status.ended t.status.errcode, resultLen := 0, symCount := 0, buf := b
          draws := k }) ∧
    (∀ a, ¬ s.inDst s.latch.args.dstCap.toNat a → t.buf.read a = s.buf.read a) ∧
    (writesDest i = true →
      ∀ a, s.inDst s.latch.args.dstCap.toNat a → (t.buf.read a).isSome = true)

/-- 10_state.md R35: acceptance copies the word, CTRL.MODE and the operand registers, no register
reads the copies, and a later write to CTRL or an operand register does not reach the running command:
completing after the write and completing before it give the same state. -/
def Obligations.LatchedOperandsShieldTheCommand : Prop :=
  (∀ (s : State) (w : Word),
    (s.accept w).latch = { cmd := w, mode := s.ctrl.mode, args := s.operands }) ∧
  (∀ (s : State) (l : Latch) (r : Reg), ({ s with latch := l } : State).readReg r = s.readReg r) ∧
  ∀ (s : State) (r : Reg) (d : Word), r ∈ [Reg.ctrl, .srcBase, .srcLen, .dstBase, .dstCap] →
    (∀ t, completionStep s = .next t → completionStep (s.writeReg r d) = .next (t.writeReg r d)) ∧
    (∀ f, completionStep s = .fault f → completionStep (s.writeReg r d) = .fault f)

/-! ## ANALYZE -/

/-- 41_frequency_analyzer.md R104, R105: a well-formed, non-empty source with at most N_MAX distinct
symbols gives the table of its distinct symbols in order of first occurrence, each with its number of
occurrences, and SYM_COUNT; FT_MODE is the latched mode, and the tree, codes and payload go. -/
def Obligations.AnalyzeCountsSymbols : Prop :=
  ∀ (s : State) (ks : List Symbol), ks ≠ [] → (∀ k ∈ ks, k.okFor s.latch.mode = true) →
    ks.eraseDups.length ≤ s.cfg.nMax → s.srcValid →
    s.srcBytes = some (records s.latch.mode ks) →
    exec .analyze s = .next
      { s with
        status := { s.status.ended .success with ftMode := s.latch.mode }
        ft := some (ks.eraseDups.map fun k => ⟨k, ks.count k⟩)
        tree := none, crom := none, pbuf := none
        symCount := BitVec.ofNat 32 ks.length }

/-- 41_frequency_analyzer.md R106: after a successful ANALYZE the frequencies sum to SYM_COUNT, each
symbol's frequency is its number of records, and every frequency is at least 1. -/
def Obligations.AnalyzePreservesFrequencies : Prop :=
  ∀ s t : State, exec .analyze s = .next t → t.status.errcode = .success →
    ∃ (T : Table) (src : List Byte), t.ft = some T ∧ s.srcBytes = some src ∧
      (T.map (·.freq)).sum = t.symCount.toNat ∧
      (∀ k ∈ (symbolStream s.latch.mode src).syms,
        ∃ e ∈ T, e.key = k ∧ e.freq = (symbolStream s.latch.mode src).syms.count k) ∧
      ∀ e ∈ T, 1 ≤ e.freq

/-- 41_frequency_analyzer.md R104, 60_exceptions.md R247: ANALYZE reports the first error in stream
order, with the effects of R250. -/
def Obligations.AnalyzeReportsFirstError : Prop :=
  ∀ (s : State) (ks : List Symbol), s.srcValid → (∀ k ∈ ks, k.okFor s.latch.mode = true) →
    (s.srcBytes = some [] → exec .analyze s = .next
      { s with
        status := { s.status.ended .emptyInput with ftMode := s.latch.mode }
        ft := none, tree := none, crom := none, pbuf := none, symCount := 0 }) ∧
    (∀ bad : List Byte, bad ≠ [] → nextSymbol s.latch.mode bad = .raised .badSymbol →
      ks.eraseDups.length ≤ s.cfg.nMax → s.srcBytes = some (records s.latch.mode ks ++ bad) →
      exec .analyze s = .next
        { s with
          status := { s.status.ended .badSymbol with ftMode := s.latch.mode }
          ft := none, tree := none, crom := none, pbuf := none, symCount := 0 }) ∧
    (∀ (k : Symbol) (tail : List Byte), k.okFor s.latch.mode = true → k ∉ ks →
      ks.eraseDups.length = s.cfg.nMax →
      s.srcBytes = some (records s.latch.mode (ks ++ [k]) ++ tail) →
      exec .analyze s = .next
        { s with
          status := { s.status.ended .capacityExceeded with ftMode := s.latch.mode }
          ft := none, tree := none, crom := none, pbuf := none, symCount := 0 })

/-- 41_frequency_analyzer.md R101, R103: SymbolRecord and NextSymbol undo each other: a record is read
back to its symbol, whatever follows it, and what NextSymbol takes off a source is the record of the
symbol it gives, a symbol the mode can hold. -/
def Obligations.SymbolRecordRoundTrip : Prop :=
  ∀ (mode : Mode) (k : Symbol) (src rest : List Byte),
    (k.okFor mode = true → nextSymbol mode (symbolRecord mode k ++ rest) = .done (k, rest)) ∧
    (nextSymbol mode src = .done (k, rest) →
      src = symbolRecord mode k ++ rest ∧ k.okFor mode = true)

/-! ## BUILD_TREE -/

/-- 42_tree_builder.md R123, R124: BUILD_TREE stores the tree of FT and clears CODES_VALID; an empty
table reports EMPTY_INPUT and clears both flags; a one-entry table gives its leaf. -/
def Obligations.BuildTreeStoresTree : Prop :=
  ∀ (s : State) (T : Table), s.ft = some T →
    (T ≠ [] → ∃ r, buildTree T = some r ∧
      exec .buildTree s = .next
        { s with status := s.status.ended .success, tree := some r, crom := none }) ∧
    (T = [] → exec .buildTree s = .next
      { s with status := s.status.ended .emptyInput, tree := none, crom := none }) ∧
    (∀ e, T = [e] → buildTree T = some (.leaf 0 e.freq))

/-- 42_tree_builder.md R120: a node is inserted before the first node whose frequency is at least its
own, at the end if there is none, and Q stays in order of frequency. -/
def Obligations.InsertGoesBeforeEqualFrequency : Prop :=
  ∀ (x : HuffTree) (q : List HuffTree),
    insertNode x q =
      q.take (q.findIdx fun y => decide (x.freq ≤ y.freq)) ++
        x :: q.drop (q.findIdx fun y => decide (x.freq ≤ y.freq)) ∧
    (q.Pairwise (fun a b => a.freq ≤ b.freq) →
      (insertNode x q).Pairwise fun a b => a.freq ≤ b.freq)

/-- 42_tree_builder.md R126: among nodes of equal frequency in Q, the one inserted most recently (the
one with the higher canonical number) is nearer the front: so for the leaves of any table, and every
insertion of a newer node keeps it so. -/
def Obligations.NewestOfEqualFrequencyIsFirst : Prop :=
  (∀ (x : HuffTree) (q : List HuffTree), (∀ y ∈ q, y.number < x.number) →
    q.Pairwise (fun a b => a.freq < b.freq ∨ a.freq = b.freq ∧ b.number < a.number) →
    (insertNode x q).Pairwise fun a b => a.freq < b.freq ∨ a.freq = b.freq ∧ b.number < a.number) ∧
  ∀ T : Table, (insertLeaves 0 T []).Pairwise
    fun a b => a.freq < b.freq ∨ a.freq = b.freq ∧ b.number < a.number

/-- 42_tree_builder.md R127: after BUILD_TREE every internal node's frequency is the sum of its
children's, ROOT's is the sum of all frequencies of FT, there is exactly one leaf per entry, no leaf is
an ancestor of another, and every internal node has two different children in the pool. -/
def Obligations.TreeInvariants : Prop :=
  ∀ (T : Table) (r : HuffTree), buildTree T = some r →
    r.freqsAdd ∧ r.freq = (T.map (·.freq)).sum ∧
    r.leaves.Perm (T.zipIdx.map fun p => (p.2, p.1.freq)) ∧
    (r.paths []).Pairwise (fun p q => ¬ p.2 <+: q.2 ∧ ¬ q.2 <+: p.2) ∧
    ∀ k l m f, (k, Node.internal l m f) ∈ r.nodes →
      l ≠ m ∧ l ∈ r.nodes.map Prod.fst ∧ m ∈ r.nodes.map Prod.fst

/-- 42_tree_builder.md R122: the pool holds nodes 0 to 2n−2, each once, and ROOT is node 2n−2. -/
def Obligations.TreeNumbering : Prop :=
  ∀ (T : Table) (r : HuffTree), buildTree T = some r →
    (r.nodes.map Prod.fst).Perm (List.range (2 * T.length - 1)) ∧ r.root = 2 * T.length - 2

/-- 42_tree_builder.md R121, R122, R126: every internal node merges Q[0] and Q[1], Q[0] as its left
child: its children are made before it, the left one stands before the right one in the order of Q, and
the right one before every other node still in Q, that is, every node made before it that no earlier
internal node has as a child. -/
def Obligations.MergeTakesTheTwoSmallest : Prop :=
  ∀ (T : Table) (r : HuffTree), buildTree T = some r →
    ∀ k l m f, (k, Node.internal l m f) ∈ r.nodes →
      l < k ∧ m < k ∧ ∃ x y, (l, x) ∈ r.nodes ∧ (m, y) ∈ r.nodes ∧ queuedBefore (l, x) (m, y) ∧
        ¬ mergedBefore r.nodes k l ∧ ¬ mergedBefore r.nodes k m ∧
        ∀ j z, (j, z) ∈ r.nodes → j < k → j ≠ l → j ≠ m → ¬ mergedBefore r.nodes k j →
          queuedBefore (m, y) (j, z)

/-! ## GEN_CODES -/

/-- 43_code_generator.md R142: GEN_CODES stores the codes of the tree, sets CODES_VALID and changes
nothing else. -/
def Obligations.GenCodesStoresRom : Prop :=
  ∀ (s : State) (r : HuffTree), s.tree = some r →
    exec .genCodes s = .next
      { s with status := s.status.ended .success, crom := some (genCodes r) }

/-- 43_code_generator.md R140: the code at a table index spells the branches from ROOT to that index's
leaf, 0 for left and 1 for right, and no shorter start of it reaches a leaf; the code of a root that is
a leaf is the single bit 0. -/
def Obligations.CodeIsThePathToTheLeaf : Prop :=
  ∀ (T : Table) (r : HuffTree) (i : Nat), buildTree T = some r → i < T.length →
    (T.length = 1 → codeAt (genCodes r) i = [false]) ∧
    (2 ≤ T.length →
      (∃ f, (codeAt (genCodes r) i).foldl HuffTree.child r = .leaf i f) ∧
      ∀ q, q <+: codeAt (genCodes r) i → q ≠ codeAt (genCodes r) i →
        ∃ k f a b, q.foldl HuffTree.child r = .internal k f a b)

/-- 43_code_generator.md R143: after a successful GEN_CODES no code is a prefix of another, and every
code has at least one bit. -/
def Obligations.CodesArePrefixFree : Prop :=
  ∀ s t : State, Inv s → exec .genCodes s = .next t → t.status.errcode = .success →
    ∃ (T : Table) (rom : CodeRom), t.ft = some T ∧ t.crom = some rom ∧ rom.length = T.length ∧
      (∀ i, i < T.length → 1 ≤ (codeAt rom i).length) ∧
      ∀ i j, i < T.length → j < T.length → i ≠ j → ¬ codeAt rom i <+: codeAt rom j

/-- 43_code_generator.md R144: 1 ≤ CLEN[i] ≤ max(1, n−1). -/
def Obligations.CodeLengthsAreBounded : Prop :=
  ∀ (T : Table) (r : HuffTree) (i : Nat), buildTree T = some r → i < T.length →
    1 ≤ (codeAt (genCodes r) i).length ∧
      (codeAt (genCodes r) i).length ≤ max 1 (T.length - 1)

/-! ## ENCODE -/

/-- 45_bitstream_packer.md R190, R191: ENCODE of symbols of FT stores the concatenation of their codes
in stream order, PBIT_LEN is the sum of their lengths, SYM_COUNT their number, and nothing else
changes. An empty source is no error. -/
def Obligations.EncodeConcatenatesCodes : Prop :=
  ∀ (s : State) (T : Table) (rom : CodeRom) (ks : List Symbol), s.ft = some T → s.crom = some rom →
    s.srcValid → s.srcBytes = some (records s.status.ftMode ks) →
    (∀ k ∈ ks, k.okFor s.status.ftMode = true ∧ k ∈ T.map (·.key)) →
    (ks.flatMap (codeOf T rom)).length ≤ s.cfg.pbufBits →
    exec .encode s = .next
      { s with
        status := s.status.ended .success
        pbuf := some (ks.flatMap (codeOf T rom))
        symCount := BitVec.ofNat 32 ks.length }

/-- 45_bitstream_packer.md R190, 60_exceptions.md R247: ENCODE reports the first error in stream order:
an ill-formed record, a symbol that is not in FT, a code that does not fit PBUF. -/
def Obligations.EncodeReportsFirstError : Prop :=
  ∀ (s : State) (T : Table) (rom : CodeRom) (ks : List Symbol), s.ft = some T → s.crom = some rom →
    s.srcValid → (∀ k ∈ ks, k.okFor s.status.ftMode = true ∧ k ∈ T.map (·.key)) →
    (ks.flatMap (codeOf T rom)).length ≤ s.cfg.pbufBits →
    (∀ bad : List Byte, bad ≠ [] → nextSymbol s.status.ftMode bad = .raised .badSymbol →
      s.srcBytes = some (records s.status.ftMode ks ++ bad) →
      exec .encode s = .next
        { s with status := s.status.ended .badSymbol, pbuf := none, symCount := 0 }) ∧
    (∀ (k : Symbol) (tail : List Byte), k.okFor s.status.ftMode = true → k ∉ T.map (·.key) →
      s.srcBytes = some (records s.status.ftMode (ks ++ [k]) ++ tail) →
      exec .encode s = .next
        { s with status := s.status.ended .unknownSymbol, pbuf := none, symCount := 0 }) ∧
    (∀ (k : Symbol) (tail : List Byte), k.okFor s.status.ftMode = true → k ∈ T.map (·.key) →
      s.cfg.pbufBits < ((ks ++ [k]).flatMap (codeOf T rom)).length →
      s.srcBytes = some (records s.status.ftMode (ks ++ [k]) ++ tail) →
      exec .encode s = .next
        { s with status := s.status.ended .capacityExceeded, pbuf := none, symCount := 0 })

/-! ## The table codec -/

/-- 44_table_codec.md R162, R164: the serialized table field by field, and its length in either
mode. -/
def Obligations.SerializedTableLayout : Prop :=
  ∀ (T : Table) (tb : Bits),
    (serTable .numeric T = .done tb →
      tb = u T.length 32 ++ u (freqWidth T) 6 ++ u (keyWidth T) 6 ++
        T.flatMap (fun e => u e.key.value (keyWidth T) ++ u e.freq (freqWidth T)) ∧
      tb.length = 44 + T.length * (keyWidth T + freqWidth T) ∧
      (∀ w, freqWidth T ≤ w ↔ ∀ e ∈ T, e.freq < 2 ^ w) ∧
      (∀ w, keyWidth T ≤ w ↔ ∀ e ∈ T, e.key.value < 2 ^ w)) ∧
    (serTable .byteSeq T = .done tb →
      tb = T.flatMap
          (fun e => u e.key.bytes.length 6 ++ bitsOf e.key.bytes ++ u e.freq 32) ++ u 0 6 ∧
      tb.length = (T.map fun e => 6 + 8 * e.key.bytes.length + 32).sum + 6)

/-- 44_table_codec.md R165: SerTable raises FIELD_RANGE exactly when a field cannot hold its value, and
never on a table a reachable state holds. -/
def Obligations.FieldRangeIsUnreachable : Prop :=
  (∀ T : Table, serTable .numeric T = .raised .fieldRange ↔
    2 ^ 32 - 1 < T.length ∨ 63 < freqWidth T ∨ 63 < keyWidth T) ∧
  (∀ T : Table, (∀ e ∈ T, e.key.okFor .byteSeq = true) →
    (serTable .byteSeq T = .raised .fieldRange ↔ ∃ e ∈ T, 2 ^ 32 ≤ e.freq)) ∧
  ∀ (s : State) (T : Table), Inv s → s.ft = some T → ∃ tb, serTable s.status.ftMode T = .done tb

/-- 44_table_codec.md R174: parsing a serialized table, with any bits after it, gives the table back, in
order, and leaves the cursor just past it. -/
def Obligations.TableRoundTrip : Prop :=
  ∀ (nMax : Nat) (mode : Mode) (T : Table) (tb rest : Bits), serTable mode T = .done tb →
    (T.map (·.key)).Nodup → T.length ≤ nMax → (∀ e ∈ T, e.key.okFor mode = true) →
    parseTable nMax mode (tb ++ rest) = .done (T, rest)

/-- 44_table_codec.md R166, R168, R169: a serialized table cut short anywhere raises
INCOMPLETE_TABLE. -/
def Obligations.TruncatedTableIsIncomplete : Prop :=
  ∀ (nMax : Nat) (mode : Mode) (T : Table) (tb cut : Bits), serTable mode T = .done tb →
    (T.map (·.key)).Nodup → T.length ≤ nMax → (∀ e ∈ T, e.key.okFor mode = true) →
    cut <+: tb → cut ≠ tb → parseTable nMax mode cut = .raised .incompleteTable

/-- 44_table_codec.md R168 to R170: a record whose key equals an earlier key of the table raises
DUPLICATE_KEY as soon as it has been read, in either mode. -/
def Obligations.DuplicateKeyIsRejected : Prop :=
  (∀ (nMax k f cnt v freq : Nat) (T : Table) (rest : Bits), cnt ≤ nMax → cnt < 2 ^ 32 →
    T.length < cnt → k < 64 → f < 64 → v < 2 ^ k → freq < 2 ^ f → (T.map (·.key)).Nodup →
    (∀ e ∈ T, (∃ x, e.key = .num x ∧ x < 2 ^ k) ∧ e.freq < 2 ^ f) → .num v ∈ T.map (·.key) →
    parseTable nMax .numeric
        (u cnt 32 ++ u f 6 ++ u k 6 ++ numericBody k f (T ++ ([⟨.num v, freq⟩] : Table)) ++ rest) =
      .raised .duplicateKey) ∧
  (∀ (nMax freq : Nat) (key : List Byte) (T : Table) (rest : Bits), T.length ≤ nMax →
    freq < 2 ^ 32 → (T.map (·.key)).Nodup →
    (∀ e ∈ T, e.key.okFor .byteSeq = true ∧ e.freq < 2 ^ 32) → .octets key ∈ T.map (·.key) →
    parseTable nMax .byteSeq ((T ++ ([⟨.octets key, freq⟩] : Table)).flatMap byteSeqRecord ++ rest) =
      .raised .duplicateKey)

/-- 44_table_codec.md R168, R169: a table of more than N_MAX entries raises CAPACITY_EXCEEDED as soon as
that is known: in numeric mode right after the header, whatever follows it, and in byte-sequence mode
once the (N_MAX+1)-th record, of a new key, has been read. -/
def Obligations.OversizedTableIsRejected : Prop :=
  (∀ (nMax cnt f k : Nat) (rest : Bits), nMax < cnt → cnt < 2 ^ 32 → f < 64 → k < 64 →
    parseTable nMax .numeric (u cnt 32 ++ u f 6 ++ u k 6 ++ rest) = .raised .capacityExceeded) ∧
  (∀ (nMax : Nat) (T : Table) (e : Entry) (rest : Bits), T.length = nMax →
    ((T ++ [e]).map (·.key)).Nodup →
    (∀ x ∈ T ++ [e], x.key.okFor .byteSeq = true ∧ x.freq < 2 ^ 32) →
    parseTable nMax .byteSeq ((T ++ [e]).flatMap byteSeqRecord ++ rest) =
      .raised .capacityExceeded)

/-! ## PACK -/

/-- 45_bitstream_packer.md R194, R197: PACK writes the frame — fewer than 8 zero bits, the marker, the
serialized table, the payload — from DST_BASE on, its length in bytes to RESULT_LEN, and nothing
else. -/
def Obligations.PackWritesFrame : Prop :=
  ∀ (s : State) (T : Table) (p tb : Bits), s.ft = some T → s.pbuf = some p → s.dstValid →
    serTable s.status.ftMode T = .done tb →
    frameBytes s.cfg.markerW tb.length p.length ≤ s.latch.args.dstCap.toNat →
    ∃ (bs : List Byte) (pad : Nat),
      pad = 8 * frameBytes s.cfg.markerW tb.length p.length
        - (s.cfg.markerW + tb.length + p.length) ∧ pad ≤ 7 ∧
      bs.length = frameBytes s.cfg.markerW tb.length p.length ∧
      bitsOf bs = zeros pad ++ u s.cfg.marker.toNat s.cfg.markerW ++ tb ++ p ∧
      exec .pack s = .next
        { s with
          status := s.status.ended .success
          buf := s.buf.writeBytes s.latch.args.dstBase.toNat bs
          resultLen := BitVec.ofNat 32 bs.length }

/-- 45_bitstream_packer.md R193, 60_exceptions.md R250: a frame longer than DST_CAP reports
CAPACITY_EXCEEDED: RESULT_LEN is 0, FT, PBUF and every other store and register are kept, and no byte
outside the destination region changes. -/
def Obligations.PackReportsCapacity : Prop :=
  ∀ (s : State) (T : Table) (p tb : Bits), s.ft = some T → s.pbuf = some p → s.dstValid →
    serTable s.status.ftMode T = .done tb →
    s.latch.args.dstCap.toNat < frameBytes s.cfg.markerW tb.length p.length →
    ∃ t, exec .pack s = .next t ∧
      t = { s with
            status := s.status.ended .capacityExceeded, resultLen := 0, buf := t.buf
            draws := t.draws } ∧
      ∀ a, ¬ s.inDst s.latch.args.dstCap.toNat a → t.buf.read a = s.buf.read a

/-! ## UNPACK -/

/-- 46_bitstream_unpacker.md R210, R211, R218: UNPACK of a frame behind any number of zero bits gives
back its table, its payload and the payload's bit offset; FT_MODE is the latched mode, and the tree and
codes go. The marker's bits after the first are not checked. The table is one as SerTable writes it, or
in numeric mode one whose header says wider fields than it needs (44_table_codec.md R173). -/
def Obligations.UnpackRecoversFrame : Prop :=
  ∀ (s : State) (T : Table) (src : List Byte) (pad : Nat) (marker tb p : Bits), s.srcValid →
    s.srcBytes = some src → TableOk s.cfg.nMax s.latch.mode T →
    (serTable s.latch.mode T = .done tb ∨
      s.latch.mode = .numeric ∧ T.length < 2 ^ 32 ∧
        ∃ f k, f < 64 ∧ k < 64 ∧ (∀ e ∈ T, e.freq < 2 ^ f ∧ e.key.value < 2 ^ k) ∧
          tb = u T.length 32 ++ u f 6 ++ u k 6 ++
            T.flatMap (fun e => u e.key.value k ++ u e.freq f)) →
    p.length ≤ s.cfg.pbufBits →
    marker.length + 1 = s.cfg.markerW → bitsOf src = zeros pad ++ true :: marker ++ tb ++ p →
    exec .unpack s = .next
      { s with
        status := { s.status.ended .success with ftMode := s.latch.mode }
        ft := some T, pbuf := some p, tree := none, crom := none
        payloadOff := BitVec.ofNat 32 (pad + s.cfg.markerW + tb.length) }

/-- 46_bitstream_unpacker.md R210, 60_exceptions.md R250: a source with no 1 bit, or with fewer bits
from its first 1 bit on than the marker has, reports INCOMPLETE_TABLE. -/
def Obligations.UnpackWithoutFrameIsIncomplete : Prop :=
  ∀ (s : State) (src : List Byte) (pad : Nat) (marker : Bits), s.srcValid →
    s.srcBytes = some src →
    (bitsOf src = zeros pad ∨
      bitsOf src = zeros pad ++ true :: marker ∧ marker.length + 1 < s.cfg.markerW) →
    exec .unpack s = .next
      { s with
        status := { s.status.ended .incompleteTable with ftMode := s.latch.mode }
        ft := none, tree := none, crom := none, pbuf := none, payloadOff := 0 }

/-- 46_bitstream_unpacker.md R211, 60_exceptions.md R247, R250: past the marker, UNPACK reports the
error the table raises, and CAPACITY_EXCEEDED for a payload that does not fit PBUF; all four valid flags
are cleared, PAYLOAD_OFF is 0 and FT_MODE is the latched mode. -/
def Obligations.UnpackReportsFirstError : Prop :=
  ∀ (s : State) (src : List Byte) (pad : Nat) (marker rest : Bits), s.srcValid →
    s.srcBytes = some src → marker.length + 1 = s.cfg.markerW →
    bitsOf src = zeros pad ++ true :: marker ++ rest →
    (∀ e, parseTable s.cfg.nMax s.latch.mode rest = .raised e →
      (e = .incompleteTable ∨ e = .duplicateKey ∨ e = .capacityExceeded) ∧
      exec .unpack s = .next
        { s with
          status := { s.status.ended e with ftMode := s.latch.mode }
          ft := none, tree := none, crom := none, pbuf := none, payloadOff := 0 }) ∧
    (∀ (T : Table) (p : Bits), parseTable s.cfg.nMax s.latch.mode rest = .done (T, p) →
      s.cfg.pbufBits < p.length →
      exec .unpack s = .next
        { s with
          status := { s.status.ended .capacityExceeded with ftMode := s.latch.mode }
          ft := none, tree := none, crom := none, pbuf := none, payloadOff := 0 })

/-! ## DECODE -/

/-- 46_bitstream_unpacker.md R213 to R215: DECODE of a payload that is the codes of table indices writes
the records of their symbols from DST_BASE on, and RESULT_LEN and SYM_COUNT, and nothing else. -/
def Obligations.DecodeInvertsCodes : Prop :=
  ∀ (s : State) (T : Table) (r : HuffTree) (is : List Nat), s.ft = some T → s.tree = some r →
    buildTree T = some r → (∀ i ∈ is, i < T.length) →
    s.pbuf = some (is.flatMap (codeAt (genCodes r))) → s.dstValid →
    (is.flatMap (recordAt s.status.ftMode T)).length ≤ s.latch.args.dstCap.toNat →
    exec .decode s = .next
      { s with
        status := s.status.ended .success
        buf := s.buf.writeBytes s.latch.args.dstBase.toNat
          (is.flatMap (recordAt s.status.ftMode T))
        resultLen := BitVec.ofNat 32 (is.flatMap (recordAt s.status.ftMode T)).length
        symCount := BitVec.ofNat 32 is.length }

/-- 46_bitstream_unpacker.md R214 to R216, 60_exceptions.md R250: a payload that ends inside a code, or
has a 1 bit under a one-leaf tree, reports CORRUPT_STREAM; a record that does not fit reports
CAPACITY_EXCEEDED; RESULT_LEN and SYM_COUNT are 0, the stores are kept, and no byte outside the
destination region changes. -/
def Obligations.DecodeReportsFirstError : Prop :=
  ∀ (s : State) (T : Table) (r : HuffTree) (is : List Nat) (tail : Bits), s.ft = some T →
    s.tree = some r → buildTree T = some r → (∀ i ∈ is, i < T.length) → s.dstValid →
    s.pbuf = some (is.flatMap (codeAt (genCodes r)) ++ tail) →
    ((is.flatMap (recordAt s.status.ftMode T)).length ≤ s.latch.args.dstCap.toNat →
      (T.length = 1 → ∃ rest, tail = true :: rest) →
      (2 ≤ T.length → tail ≠ [] ∧ ∃ i, i < T.length ∧ tail <+: codeAt (genCodes r) i ∧
        tail ≠ codeAt (genCodes r) i) →
      ∃ t, exec .decode s = .next t ∧
        t = { s with
              status := s.status.ended .corruptStream, resultLen := 0, symCount := 0
              buf := t.buf, draws := t.draws } ∧
        ∀ a, ¬ s.inDst s.latch.args.dstCap.toNat a → t.buf.read a = s.buf.read a) ∧
    (s.latch.args.dstCap.toNat < (is.flatMap (recordAt s.status.ftMode T)).length →
      ∃ t, exec .decode s = .next t ∧
        t = { s with
              status := s.status.ended .capacityExceeded, resultLen := 0, symCount := 0
              buf := t.buf, draws := t.draws } ∧
        ∀ a, ¬ s.inDst s.latch.args.dstCap.toNat a → t.buf.read a = s.buf.read a)

/-- 46_bitstream_unpacker.md R217: a well-formed, non-empty source with at most N_MAX distinct symbols,
run through COMPRESS and, its frame handed to a block with the same parameters and mode, through
DECOMPRESS, comes back byte for byte, and SYM_COUNT is its number of records. -/
def Obligations.CompressDecompressRoundTrip : Prop :=
  ∀ (s : State) (ks : List Symbol) (r : HuffTree) (tb : Bits), s.cfg.WellFormed → ks ≠ [] →
    (∀ k ∈ ks, k.okFor s.ctrl.mode = true) → ks.eraseDups.length ≤ s.cfg.nMax →
    regionValid s.cfg s.operands.srcBase s.operands.srcLen →
    regionValid s.cfg s.operands.dstBase s.operands.dstCap →
    s.buf.readBytes s.operands.srcBase.toNat s.operands.srcLen.toNat =
      some (records s.ctrl.mode ks) →
    buildTree (tally ks) = some r → serTable s.ctrl.mode (tally ks) = .done tb →
    (ks.flatMap (codeOf (tally ks) (genCodes r))).length ≤ s.cfg.pbufBits →
    frameBytes s.cfg.markerW tb.length (ks.flatMap (codeOf (tally ks) (genCodes r))).length ≤
      s.operands.dstCap.toNat →
    ∃ (t : State) (frame : List Byte),
      runAll s [.analyze, .buildTree, .genCodes, .encode, .pack] = some t ∧
      t.resultLen.toNat = frame.length ∧
      t.buf.readBytes s.operands.dstBase.toNat frame.length = some frame ∧
      ∀ v : State, v.cfg = s.cfg → v.ctrl.mode = s.ctrl.mode →
        regionValid v.cfg v.operands.srcBase v.operands.srcLen →
        regionValid v.cfg v.operands.dstBase v.operands.dstCap →
        v.operands.srcLen = t.resultLen →
        v.buf.readBytes v.operands.srcBase.toNat frame.length = some frame →
        (records s.ctrl.mode ks).length ≤ v.operands.dstCap.toNat →
        ∃ w, runAll v [.unpack, .buildTree, .decode] = some w ∧
          w.buf.readBytes v.operands.dstBase.toNat (records s.ctrl.mode ks).length =
            some (records s.ctrl.mode ks) ∧
          w.symCount.toNat = ks.length ∧
          w.resultLen.toNat = (records s.ctrl.mode ks).length

/-! ## What a command leaves alone -/

/-- 42_tree_builder.md R123, 43_code_generator.md R142: the frame of BUILD_TREE and GEN_CODES, which
touch no register but STATUS and no byte of BUF; GEN_CODES leaves TREE. -/
def Obligations.TreeCommandsFrame : Prop :=
  ∀ (i : Instr) (s t : State), i ∈ [Instr.buildTree, .genCodes] → exec i s = .next t →
    t = { s with
          status := s.status.ended t.status.errcode
          tree := if i = .genCodes then s.tree else t.tree
          crom := t.crom } ∧
    ∀ a, t.buf.read a = s.buf.read a

/-- 41_frequency_analyzer.md R104, 45_bitstream_packer.md R190, 46_bitstream_unpacker.md R211: the frame
of ANALYZE, ENCODE and UNPACK, which write no byte of BUF: RESULT_LEN, CTRL, the operand registers,
HAZ, BUSERR and LASTOP are kept, and so is what each of them has no business with. -/
def Obligations.SourceCommandsFrame : Prop :=
  ∀ (i : Instr) (s t : State), i ∈ [Instr.analyze, .encode, .unpack] → exec i s = .next t →
    t = { s with
          status :=
            { s.status.ended t.status.errcode with
              ftMode := if i = .encode then s.status.ftMode else t.status.ftMode }
          ft := if i = .encode then s.ft else t.ft
          tree := if i = .encode then s.tree else t.tree
          crom := if i = .encode then s.crom else t.crom
          pbuf := t.pbuf
          symCount := if i = .unpack then s.symCount else t.symCount
          payloadOff := if i = .unpack then t.payloadOff else s.payloadOff } ∧
    ∀ a, t.buf.read a = s.buf.read a

/-- 45_bitstream_packer.md R193, 46_bitstream_unpacker.md R214, 60_exceptions.md R251: the frame of PACK
and DECODE: no store changes; a success writes the first RESULT_LEN bytes of the destination region and
no other byte, a pre-check error none, an execution error none outside the region. -/
def Obligations.DestinationCommandsFrame : Prop :=
  ∀ (i : Instr) (s t : State), i ∈ [Instr.pack, .decode] → exec i s = .next t →
    t = { s with
          status := s.status.ended t.status.errcode
          resultLen := t.resultLen
          symCount := if i = .pack then s.symCount else t.symCount
          buf := t.buf
          draws := t.draws } ∧
    (t.status.errcode = .success →
      ∀ a, ¬ s.inDst t.resultLen.toNat a → t.buf.read a = s.buf.read a) ∧
    (t.status.errcode = .notReady ∨ t.status.errcode = .regionFault →
      ∀ a, t.buf.read a = s.buf.read a) ∧
    ∀ a, ¬ s.inDst s.latch.args.dstCap.toNat a → t.buf.read a = s.buf.read a

/-- 20_memory.md R56: the core reads BUF only inside the latched source region and writes it only inside
the latched destination region: bytes elsewhere neither change what a command does nor are changed by
it. BUILD_TREE and GEN_CODES have no region (60_exceptions.md R246), so they do the same whatever BUF
holds. -/
def Obligations.CoreTouchesOnlyItsRegions : Prop :=
  ∀ (i : Instr) (s t : State) (m : Memory), exec i s = .next t →
    (writesDest i = false → (readsSource i = true → ∀ a, s.inSrc a → m.read a = s.buf.read a) →
      exec i { s with buf := m } = .next { t with buf := m }) ∧
    (writesDest i = true →
      ∃ m', exec i { s with buf := m } = .next { t with buf := m' } ∧
        ∀ a, (s.inDst s.latch.args.dstCap.toNat a ∧ m'.read a = t.buf.read a) ∨
          (m'.read a = m.read a ∧ t.buf.read a = s.buf.read a))

/-! ## Whole-machine rules -/

/-- 10_state.md R29, R30, R33, R37, R39: which transitions can change a store or a result register:
only the completion of the commands that write it, or a reset; BUF also by a host write while BUSY = 0;
the parameters by none. -/
def Obligations.WritersOfEachStore : Prop :=
  ∀ s t : State, step s = .next t →
    t.cfg = s.cfg ∧
    (t.status.ftMode ≠ s.status.ftMode →
      (s.completes .analyze ∨ s.completes .unpack) ∧ t.status.ftMode = s.latch.mode ∨ s.resets) ∧
    (t.ft ≠ s.ft → s.completes .analyze ∨ s.completes .unpack ∨ s.resets) ∧
    (t.tree ≠ s.tree →
      s.completes .analyze ∨ s.completes .buildTree ∨ s.completes .unpack ∨ s.resets) ∧
    (t.crom ≠ s.crom →
      s.completes .analyze ∨ s.completes .buildTree ∨ s.completes .genCodes ∨
        s.completes .unpack ∨ s.resets) ∧
    (t.pbuf ≠ s.pbuf →
      s.completes .analyze ∨ s.completes .encode ∨ s.completes .unpack ∨ s.resets) ∧
    (t.resultLen ≠ s.resultLen → s.completes .pack ∨ s.completes .decode ∨ s.resets) ∧
    (t.symCount ≠ s.symCount →
      s.completes .analyze ∨ s.completes .encode ∨ s.completes .decode ∨ s.resets) ∧
    (t.payloadOff ≠ s.payloadOff → s.completes .unpack ∨ s.resets) ∧
    (t.buf ≠ s.buf →
      s.completes .pack ∨ s.completes .decode ∨ s.resets ∨
        s.status.busy = false ∧ ∃ p w d rest, s.nextIs (.access (.write p w d)) rest)

/-- 10_state.md R40: HAZ and BUSERR are set only by host accesses and cleared only by a write of 1 to
them or a reset; LASTOP is written only by an acceptance or a reset. -/
def Obligations.StickyBitsAndLastop : Prop :=
  ∀ s t : State, step s = .next t →
    (s.status.haz = false → t.status.haz = true →
      ∃ a rest, s.nextIs (.access a) rest) ∧
    (s.status.buserr = false → t.status.buserr = true →
      ∃ a rest, s.nextIs (.access a) rest) ∧
    (s.status.haz = true → t.status.haz = false →
      s.resets ∨ ∃ d, s.writes .status d ∧ d.getLsbD 3 = true) ∧
    (s.status.buserr = true → t.status.buserr = false →
      s.resets ∨ ∃ d, s.writes .status d ∧ d.getLsbD 4 = true) ∧
    (t.status.lastop ≠ s.status.lastop →
      s.resets ∨ ∃ d, s.writes .cmd d ∧ s.status.busy = false ∧
        t.status.lastop = d.extractLsb 3 0)

/-- 60_exceptions.md R260: IRQ is IRQ_EN and DONE; it rises at any completion while IRQ_EN = 1, falls at
an acceptance, at a write of 1 to DONE and when IRQ_EN is written 0, follows IRQ_EN while DONE = 1, and
no other event moves it. -/
def Obligations.IrqIsLevelOfDone : Prop :=
  (∀ s : State, s.irq = true ↔ s.ctrl.irqEn = true ∧ s.status.done = true) ∧
  ∀ s t : State, step s = .next t →
    ((∃ rest, s.coreMoves rest) → t.irq = s.ctrl.irqEn) ∧
    (∀ d, s.writes .cmd d → s.status.busy = false → t.irq = false) ∧
    (∀ d, s.writes .status d → d.getLsbD 1 = true → t.irq = false) ∧
    (∀ d, s.writes .ctrl d → t.irq = (d.getLsbD 1 && s.status.done)) ∧
    (t.irq ≠ s.irq →
      (∃ rest, s.coreMoves rest) ∨ (∃ d, s.writes .cmd d ∧ s.status.busy = false) ∨
        (∃ d, s.writes .status d ∧ d.getLsbD 1 = true) ∨ (∃ d, s.writes .ctrl d) ∨ s.resets)

/-- 20_memory.md R51: the machine never refuses, and it stops where, and only where, the host reads a BUF
byte that holds no value, or the completing command, its pre-checks passed, reads a source region that
has one. That a command reads its whole source region first (41_frequency_analyzer.md R104,
45_bitstream_packer.md R190, 46_bitstream_unpacker.md R211), so that any such byte in it stops the
command even behind an error earlier in the stream, is the model's choice, notes/assumptions/7.md. -/
def Obligations.StopsOnlyOnBytesWithoutValue : Prop :=
  ∀ s : State,
    (∀ r, step s ≠ .refused r) ∧
    (∀ f, step s = .fault f → f = .bufByteHoldsNoValue ∧
      ((∃ i, s.completes i ∧ readsSource i = true ∧ preCheck i s = none ∧ s.srcBytes = none) ∨
       (s.status.busy = false ∧ ∃ p w rest a n, s.nextIs (.access (.read p w)) rest ∧
          (target s.cfg p w = .bufByte a ∧ n = 1 ∨ target s.cfg p w = .bufWord a ∧ n = 4) ∧
          s.buf.readBytes a n = none))) ∧
    (∀ i, Inv s → s.completes i → readsSource i = true → preCheck i s = none →
      (∃ a, s.inSrc a ∧ s.buf.read a = none) → step s = .fault .bufByteHoldsNoValue) ∧
    (∀ p w rest a n, s.status.busy = false → s.nextIs (.access (.read p w)) rest →
      (target s.cfg p w = .bufByte a ∧ n = 1 ∨ target s.cfg p w = .bufWord a ∧ n = 4) →
      (∃ x, inRegion a n x ∧ s.buf.read x = none) → step s = .fault .bufByteHoldsNoValue)

/-- The invariant of the machine holds after reset, for every legal choice of the parameters. -/
def Obligations.InvHoldsAtReset : Prop :=
  Inv State.reset ∧ ∀ cfg : Params, cfg.WellFormed → Inv (State.resetWith cfg)

/-- 10_state.md R30, R31, R38: every step keeps the invariant of the machine, from every state that
meets it. -/
def Obligations.StepKeepsInv : Prop :=
  ∀ s t : State, Inv s → step s = .next t → Inv t

/-! ## The host port -/

/-- 10_state.md R25: STATUS reads as its fields, with bits 7:5 and 31:21 as 0; a write to it clears
DONE, HAZ and BUSERR where the written bit is 1 and changes nothing else. -/
def Obligations.StatusReadsAndClears : Prop :=
  (∀ s : State,
    s.statusWord.getLsbD 0 = s.status.busy ∧ s.statusWord.getLsbD 1 = s.status.done ∧
    s.statusWord.getLsbD 2 = decide (s.status.errcode ≠ .success) ∧
    s.statusWord.getLsbD 3 = s.status.haz ∧ s.statusWord.getLsbD 4 = s.status.buserr ∧
    s.statusWord.extractLsb 7 5 = 0#3 ∧
    s.statusWord.extractLsb 11 8 = s.status.errcode.code ∧
    s.statusWord.extractLsb 15 12 = s.status.lastop ∧
    s.statusWord.getLsbD 16 = s.ft.isSome ∧ s.statusWord.getLsbD 17 = s.tree.isSome ∧
    s.statusWord.getLsbD 18 = s.crom.isSome ∧ s.statusWord.getLsbD 19 = s.pbuf.isSome ∧
    s.statusWord.getLsbD 20 = s.status.ftMode.bit ∧ s.statusWord.extractLsb 31 21 = 0#11) ∧
  ∀ (s : State) (d : Word) (rest : List Event),
    s.nextIs (.access (.write (.reg 0x08) 32 d)) rest →
    step s = .next
      { s with
        agenda := rest, hostData := none
        status :=
          { s.status with
            done := s.status.done && !d.getLsbD 1
            haz := s.status.haz && !d.getLsbD 3
            buserr := s.status.buserr && !d.getLsbD 4 } }

/-- 10_state.md R22 to R29, R37, 20_memory.md R53, R62: a 32-bit read of a register returns its value
and changes nothing. -/
def Obligations.RegisterReads : Prop :=
  ∀ (s : State) (r : Reg) (rest : List Event),
    s.nextIs (.access (.read (.reg r.offset) 32)) rest →
    step s = .next
      { s with
        agenda := rest
        hostData := some
          (match r with
          | .ctrl => (if s.ctrl.mode = .byteSeq then 1 else 0) ||| (if s.ctrl.irqEn then 2 else 0)
          | .cmd => 0
          | .status => s.statusWord
          | .srcBase => s.operands.srcBase
          | .srcLen => s.operands.srcLen
          | .dstBase => s.operands.dstBase
          | .dstCap => s.operands.dstCap
          | .resultLen => s.resultLen
          | .symCount => s.symCount
          | .tableCount => BitVec.ofNat 32 ((s.ft.map List.length).getD 0)
          | .pbitLen => BitVec.ofNat 32 ((s.pbuf.map List.length).getD 0)
          | .payloadOff => s.payloadOff
          | .cfgNmax => BitVec.ofNat 32 s.cfg.nMax
          | .cfgBufbytes => BitVec.ofNat 32 s.cfg.bufBytes
          | .cfgPbufbits => BitVec.ofNat 32 s.cfg.pbufBits
          | .cfgMarker => s.cfg.marker
          | .cfgMarkerW => BitVec.ofNat 32 s.cfg.markerW) }

/-- 10_state.md R22, R23, R26, R27: a 32-bit write to CTRL or an operand register sets it, at any time,
and changes nothing else; bits 31:2 of CTRL are ignored. -/
def Obligations.RegisterWrites : Prop :=
  ∀ (s : State) (d : Word) (rest : List Event),
    (s.nextIs (.access (.write (.reg 0x00) 32 d)) rest →
      step s = .next
        { s with
          agenda := rest, hostData := none
          ctrl :=
            { mode := if d.getLsbD 0 then .byteSeq else .numeric, irqEn := d.getLsbD 1 } }) ∧
    (s.nextIs (.access (.write (.reg 0x0C) 32 d)) rest →
      step s = .next
        { s with agenda := rest, hostData := none, operands := { s.operands with srcBase := d } }) ∧
    (s.nextIs (.access (.write (.reg 0x10) 32 d)) rest →
      step s = .next
        { s with agenda := rest, hostData := none, operands := { s.operands with srcLen := d } }) ∧
    (s.nextIs (.access (.write (.reg 0x14) 32 d)) rest →
      step s = .next
        { s with agenda := rest, hostData := none, operands := { s.operands with dstBase := d } }) ∧
    (s.nextIs (.access (.write (.reg 0x18) 32 d)) rest →
      step s = .next
        { s with agenda := rest, hostData := none, operands := { s.operands with dstCap := d } })

/-- 20_memory.md R54, R60: while BUSY = 0 an 8-bit access reads or writes one byte of BUF, and an
aligned 32-bit access four bytes, big-endian. -/
def Obligations.BufAccessIsBigEndian : Prop :=
  ∀ (s : State) (a : Nat) (rest : List Event), s.status.busy = false →
    (∀ d : Word, a < s.cfg.bufBytes → s.nextIs (.access (.write (.buf a) 8 d)) rest →
      ∃ t, step s = .next t ∧
        t = { s with agenda := rest, hostData := t.hostData, buf := t.buf } ∧
        t.buf.read a = some (d.extractLsb 7 0) ∧ ∀ x, x ≠ a → t.buf.read x = s.buf.read x) ∧
    (∀ b : Byte, a < s.cfg.bufBytes → s.buf.read a = some b →
      s.nextIs (.access (.read (.buf a) 8)) rest →
      ∃ v : Word, step s = .next { s with agenda := rest, hostData := some v } ∧
        v.extractLsb 7 0 = b) ∧
    (∀ d : Word, a % 4 = 0 → a + 4 ≤ s.cfg.bufBytes →
      s.nextIs (.access (.write (.buf a) 32 d)) rest →
      ∃ t, step s = .next t ∧
        t = { s with agenda := rest, hostData := t.hostData, buf := t.buf } ∧
        t.buf.read a = some (d.extractLsb 31 24) ∧
        t.buf.read (a + 1) = some (d.extractLsb 23 16) ∧
        t.buf.read (a + 2) = some (d.extractLsb 15 8) ∧
        t.buf.read (a + 3) = some (d.extractLsb 7 0) ∧
        ∀ x, ¬ inRegion a 4 x → t.buf.read x = s.buf.read x) ∧
    (∀ b0 b1 b2 b3 : Byte, a % 4 = 0 → a + 4 ≤ s.cfg.bufBytes → s.buf.read a = some b0 →
      s.buf.read (a + 1) = some b1 → s.buf.read (a + 2) = some b2 → s.buf.read (a + 3) = some b3 →
      s.nextIs (.access (.read (.buf a) 32)) rest →
      step s = .next { s with agenda := rest, hostData := some (b0 ++ b1 ++ b2 ++ b3) })

/-- 20_memory.md R55: an ill-formed access to the register window, and one to the BUF window while
BUSY = 0, sets BUSERR and changes nothing else; a read returns 0. (While BUSY = 1 an ill-formed BUF
access falls under R57 too: notes/assumptions/9.md.) The clause about the register window holds while
BUSY = 1 as well: that an ill-formed write directed at CMD then sets BUSERR and not HAZ
(60_exceptions.md R242) is the model's choice, notes/assumptions/19.md. -/
def Obligations.IllFormedAccessSetsBuserr : Prop :=
  ∀ (s : State) (p : Place) (w : Nat) (d : Word) (rest : List Event),
    ((∃ off, p = .reg off ∧ (w ≠ 32 ∨ off % 4 ≠ 0 ∨ 0x44 ≤ off)) ∨
      (∃ a, p = .buf a ∧ s.status.busy = false ∧ ¬ (w = 8 ∧ a < s.cfg.bufBytes) ∧
        ¬ (w = 32 ∧ a % 4 = 0 ∧ a + 4 ≤ s.cfg.bufBytes)) →
      (s.nextIs (.access (.read p w)) rest →
        step s = .next
          { s with
            agenda := rest, hostData := some 0, status := { s.status with buserr := true } }) ∧
      (s.nextIs (.access (.write p w d)) rest →
        step s = .next
          { s with
            agenda := rest, hostData := none, status := { s.status with buserr := true } })) ∧
    (∀ off, 0x1C ≤ off → off < 0x44 → off % 4 = 0 →
      s.nextIs (.access (.write (.reg off) 32 d)) rest →
      step s = .next
        { s with agenda := rest, hostData := none, status := { s.status with buserr := true } })

/-- 20_memory.md R57: while BUSY = 1 a well-formed BUF access sets HAZ and does nothing else; a read
returns 0. An ill-formed one returns 0 and sets HAZ or BUSERR or both (which, the spec leaves open:
notes/assumptions/9.md), and does nothing else. -/
def Obligations.BufIsLockedWhileBusy : Prop :=
  ∀ (s : State) (a w : Nat) (d : Word) (rest : List Event), s.status.busy = true →
    (w = 8 ∧ a < s.cfg.bufBytes ∨ w = 32 ∧ a % 4 = 0 ∧ a + 4 ≤ s.cfg.bufBytes →
      (s.nextIs (.access (.read (.buf a) w)) rest →
        step s = .next
          { s with agenda := rest, hostData := some 0, status := { s.status with haz := true } }) ∧
      (s.nextIs (.access (.write (.buf a) w d)) rest →
        step s = .next
          { s with agenda := rest, hostData := none, status := { s.status with haz := true } })) ∧
    (s.nextIs (.access (.read (.buf a) w)) rest ∨ s.nextIs (.access (.write (.buf a) w d)) rest →
      ∃ t, step s = .next t ∧
        (s.nextIs (.access (.read (.buf a) w)) rest → t.hostData = some 0) ∧
        t = { s with
              agenda := rest, hostData := t.hostData, draws := t.draws
              status := { s.status with haz := t.status.haz, buserr := t.status.buserr } } ∧
        (t.status.haz = true ∨ t.status.buserr = true) ∧
        (s.status.haz = true → t.status.haz = true) ∧
        (s.status.buserr = true → t.status.buserr = true))

/-- 20_memory.md R52: the block decodes the host addresses BLOCK_BASE to BLOCK_BASE+0x1FFFF, as its two
windows, and no others. That an access of any width is decoded by the address of its first byte alone (a
32-bit access at BLOCK_BASE-2 does nothing and returns no data), and that an access outside the block
does nothing and returns no data, is the model's choice, notes/assumptions/15.md. -/
def Obligations.AddressDecode : Prop :=
  ∀ (s : State) (addr w : Nat) (d : Word) (rest : List Event),
    (∀ off, off < 0x10000 → addr = s.cfg.blockBase + off →
      step { s with agenda := .access (.read (.address addr) w) :: rest } =
        step { s with agenda := .access (.read (.reg off) w) :: rest } ∧
      step { s with agenda := .access (.write (.address addr) w d) :: rest } =
        step { s with agenda := .access (.write (.reg off) w d) :: rest }) ∧
    (∀ a, a < 0x10000 → addr = s.cfg.blockBase + 0x10000 + a →
      step { s with agenda := .access (.read (.address addr) w) :: rest } =
        step { s with agenda := .access (.read (.buf a) w) :: rest } ∧
      step { s with agenda := .access (.write (.address addr) w d) :: rest } =
        step { s with agenda := .access (.write (.buf a) w d) :: rest }) ∧
    (addr < s.cfg.blockBase ∨ s.cfg.blockBase + 0x1FFFF < addr →
      step { s with agenda := .access (.read (.address addr) w) :: rest } =
        .next { s with agenda := rest, hostData := none } ∧
      step { s with agenda := .access (.write (.address addr) w d) :: rest } =
        .next { s with agenda := rest, hostData := none })

/-- 70_reset_and_hazards.md R280, 10_state.md R22, R41: a reset, also one during a command, gives every
register its reset value, leaves IRQ at 0 and the core idle (BUSY = 0), and the stores without a value.
A byte of BUF holds a value afterwards exactly if it lies in the destination region of a PACK or DECODE
that the reset abandons after its pre-checks: there it holds any value (93_implementation_defined.md U7),
elsewhere none (20_memory.md R51). That U7 is followed for these bytes, and not R51, is the model's
choice, notes/assumptions/10.md. -/
def Obligations.ResetState : Prop :=
  ∀ (s : State) (rest : List Event), s.nextIs .reset rest →
    ∃ t, step s = .next t ∧ t.cfg = s.cfg ∧ t.agenda = rest ∧ t.irq = false ∧
      t.status.busy = false ∧ t.status.done = false ∧
      t.ft = none ∧ t.tree = none ∧ t.crom = none ∧ t.pbuf = none ∧
      (∀ a, (t.buf.read a).isSome = true ↔
        s.inDst s.latch.args.dstCap.toNat a ∧ s.status.busy = true ∧
          ∃ i, s.latch.cmd = encode i ∧ writesDest i = true ∧ preCheck i s = none) ∧
      (∀ r, t.readReg r =
        match r with
        | .cfgNmax => BitVec.ofNat 32 s.cfg.nMax
        | .cfgBufbytes => BitVec.ofNat 32 s.cfg.bufBytes
        | .cfgPbufbits => BitVec.ofNat 32 s.cfg.pbufBits
        | .cfgMarker => s.cfg.marker
        | .cfgMarkerW => BitVec.ofNat 32 s.cfg.markerW
        | _ => 0)

/-! ## Host scripts -/

/-- 30_encoding.md R76: WAIT reads STATUS until BUSY = 0: a host turn at a WAIT is one read of STATUS,
which answers the STATUS word and changes nothing, and the WAIT goes on exactly while BUSY = 1; with no
command running it is over after its first read. -/
def Obligations.WaitReadsStatusUntilIdle : Prop :=
  ∀ (s : State) (todo : List HostAction),
    (s.status.busy = true →
      ({ todo := scriptActions [.wait] ++ todo, state := s } : ScriptRun).turn .host =
        .next
          { todo := scriptActions [.wait] ++ todo
            state := { s with hostData := some s.statusWord } }) ∧
    (s.status.busy = false →
      ({ todo := scriptActions [.wait] ++ todo, state := s } : ScriptRun).turn .host =
        .next { todo := todo, state := { s with hostData := some s.statusWord } })

/-- 30_encoding.md R76, R77: `RUN i` from an idle block, under any schedule that lets it end: the CMD
write, any number of polls that see BUSY = 1, the completion, one poll that sees BUSY = 0. It leaves the
state the command's acceptance and completion give, and what the script has after it still to do. -/
def Obligations.RunWaitsForCompletion : Prop :=
  ∀ (s t : State) (i : Instr) (polls : Nat) (todo : List HostAction), s.status.busy = false →
    runCommand s i = some t →
    ({ todo := scriptActions (runCmd i) ++ todo, state := s } : ScriptRun).run
        (.host :: List.replicate polls .host ++ [.core, .host]) =
      .next { todo := todo, state := { t with hostData := some t.statusWord } }
end

