-- ==== Sys2Proof/Laws/Bits.lean ====
section
/-! SUPPORT. The laws of the bit-sequence primitives: lengths, and that Val, BE and Bits undo U, BytesBE
and Bytes. -/

namespace Sys2Proof.Machine

@[simp] theorem u_length (v n : Nat) : (u v n).length = n := by
  induction n with
  | zero => rfl
  | succ n ih => simp [u, ih]

@[simp] theorem zeros_length (n : Nat) : (zeros n).length = n := by simp [zeros]

theorem val_foldl (s : Bits) (acc : Nat) :
    s.foldl (fun acc b => 2 * acc + b.toNat) acc = acc * 2 ^ s.length + val s := by
  induction s generalizing acc with
  | nil => simp [val]
  | cons b s ih =>
    simp only [val, List.foldl_cons, List.length_cons]
    rw [ih, ih (2 * 0 + b.toNat), Nat.pow_succ]
    ring

@[simp] theorem val_nil : val [] = 0 := rfl

theorem val_cons (b : Bool) (s : Bits) : val (b :: s) = b.toNat * 2 ^ s.length + val s := by
  simp only [val, List.foldl_cons]
  rw [val_foldl]
  simp [val]

theorem val_append (s t : Bits) : val (s ++ t) = val s * 2 ^ t.length + val t := by
  simp only [val, List.foldl_append]
  rw [val_foldl]
  rfl

theorem val_lt (s : Bits) : val s < 2 ^ s.length := by
  induction s with
  | nil => simp
  | cons b s ih =>
    rw [val_cons, List.length_cons, Nat.pow_succ]
    cases b <;> simp <;> omega

/-- Val undoes U, up to the width. -/
theorem val_u (v n : Nat) : val (u v n) = v % 2 ^ n := by
  induction n with
  | zero => simp [u, Nat.mod_one]
  | succ n ih =>
    rw [u, val_cons, u_length, ih, Nat.testBit_eq_decide_div_mod_eq, Nat.pow_succ, Nat.mod_mul]
    rcases Nat.mod_two_eq_zero_or_one (v / 2 ^ n) with h | h <;> simp [h, Nat.add_comm]

theorem val_u_of_lt {v n : Nat} (h : v < 2 ^ n) : val (u v n) = v := by
  rw [val_u, Nat.mod_eq_of_lt h]

/-- U undoes Val. -/
theorem u_val (s : Bits) : u (val s) s.length = s := by
  induction s with
  | nil => rfl
  | cons b s ih =>
    have hlt := val_lt s
    have key : ∀ n ≤ s.length, u (b.toNat * 2 ^ s.length + val s) n = u (val s) n := by
      intro n hn
      induction n with
      | zero => rfl
      | succ n ihn =>
        rw [u, u, ihn (by omega)]
        congr 1
        rw [Nat.mul_comm]
        exact Nat.testBit_two_pow_mul_add _ hlt n |>.trans (by simp; omega)
    rw [val_cons, List.length_cons, u, key _ le_rfl, ih]
    congr 1
    rw [Nat.mul_comm, Nat.testBit_two_pow_mul_add _ hlt]
    cases b <;> simp

theorem lt_two_pow_bitlen (v : Nat) : v < 2 ^ bitlen v := by
  unfold bitlen
  split
  · subst_vars; simp
  · exact Nat.lt_log2_self

/-- bitlen is the least width that holds a value. -/
theorem bitlen_le_iff (v n : Nat) : bitlen v ≤ n ↔ v < 2 ^ n := by
  constructor
  · exact fun h => lt_of_lt_of_le (lt_two_pow_bitlen v) (Nat.pow_le_pow_right (by omega) h)
  · intro h
    unfold bitlen
    split
    · omega
    · exact (Nat.log2_lt (by assumption)).mpr h

@[simp] theorem bitsOf_length (bs : List Byte) : (bitsOf bs).length = 8 * bs.length := by
  induction bs with
  | nil => rfl
  | cons b bs ih => simp [bitsOf, ih]; omega

theorem bitsOf_append (xs ys : List Byte) : bitsOf (xs ++ ys) = bitsOf xs ++ bitsOf ys := by
  induction xs with
  | nil => rfl
  | cons x xs ih => simp [bitsOf, ih]

/-- Bits undoes Bytes on whole bytes. -/
theorem bitsOf_bytesOf (n : Nat) (s : Bits) (h : s.length = 8 * n) : bitsOf (bytesOf s) = s := by
  induction n generalizing s with
  | zero =>
    have : s = [] := List.length_eq_zero_iff.mp (by omega)
    subst this; rfl
  | succ n ih =>
    match s, h with
    | b7 :: b6 :: b5 :: b4 :: b3 :: b2 :: b1 :: b0 :: rest, h =>
      have hr : rest.length = 8 * n := by simp at h; omega
      have hb := u_val [b7, b6, b5, b4, b3, b2, b1, b0]
      have hlt := val_lt [b7, b6, b5, b4, b3, b2, b1, b0]
      simp only [List.length_cons, List.length_nil] at hb hlt
      rw [bytesOf, bitsOf, ih rest hr, BitVec.toNat_ofNat, Nat.mod_eq_of_lt hlt, hb]
      rfl

theorem bytesOf_length (n : Nat) (s : Bits) (h : s.length = 8 * n) : (bytesOf s).length = n := by
  have := congrArg List.length (bitsOf_bytesOf n s h)
  simp at this
  omega

/-- Bytes undoes Bits. -/
theorem bytesOf_bitsOf (bs : List Byte) : bytesOf (bitsOf bs) = bs := by
  induction bs with
  | nil => rfl
  | cons b bs ih =>
    have hb : val (u b.toNat 8) = b.toNat := val_u_of_lt b.isLt
    simp only [bitsOf, u, List.cons_append, List.nil_append, bytesOf, ih] at hb ⊢
    rw [hb]
    simp

theorem padBits_le (n : Nat) : padBits n ≤ 7 := by unfold padBits; omega

theorem padBits_add (n : Nat) : (padBits n + n) % 8 = 0 := by unfold padBits; omega

@[simp] theorem bytesBE_length (v n : Nat) : (bytesBE v n).length = n := by
  induction n with
  | zero => rfl
  | succ n ih => simp [bytesBE, ih]

theorem be_foldl (bs : List Byte) (acc : Nat) :
    bs.foldl (fun acc b => 256 * acc + b.toNat) acc = acc * 256 ^ bs.length + be bs := by
  induction bs generalizing acc with
  | nil => simp [be]
  | cons b bs ih =>
    simp only [be, List.foldl_cons, List.length_cons]
    rw [ih, ih (256 * 0 + b.toNat), Nat.pow_succ]
    ring

theorem be_cons (b : Byte) (bs : List Byte) : be (b :: bs) = b.toNat * 256 ^ bs.length + be bs := by
  simp only [be, List.foldl_cons]
  rw [be_foldl]
  simp [be]

/-- BE undoes BytesBE, up to the width. -/
theorem be_bytesBE (v n : Nat) : be (bytesBE v n) = v % 256 ^ n := by
  induction n with
  | zero => simp [bytesBE, be, Nat.mod_one]
  | succ n ih =>
    have h8 : (2 : Nat) ^ (8 * n) = 256 ^ n := by rw [Nat.pow_mul]
    rw [bytesBE, be_cons, bytesBE_length, ih, BitVec.toNat_ofNat, Nat.shiftRight_eq_div_pow, h8,
      show (2 : Nat) ^ 8 = 256 from rfl, Nat.pow_succ 256 n, Nat.mod_mul (a := 256 ^ n) (b := 256)]
    ring

end Sys2Proof.Machine
end

