-- ==== Sys2Proof/Laws/Operands.lean ====
section
/-! SUPPORT. The laws of symbol records: NextSymbol undoes SymbolRecord
(spec/41_frequency_analyzer.md R103), and a stream of records parses into its symbols. -/

namespace Sys2Proof.Machine

theorem symbolRecord_ne_nil (mode : Mode) (k : Symbol) : symbolRecord mode k ≠ [] := by
  cases mode
  · exact fun h => by simpa [symbolRecord] using congrArg List.length h
  · simp [symbolRecord]

/-- NextSymbol reads back a record SymbolRecord wrote (41_frequency_analyzer.md R103). -/
theorem nextSymbol_record {mode : Mode} {k : Symbol} (h : k.okFor mode = true) (rest : List Byte) :
    nextSymbol mode (symbolRecord mode k ++ rest) = .done (k, rest) := by
  match mode, k, h with
  | .numeric, .num v, h =>
    have hv : v < 2 ^ 63 := by simpa [Symbol.okFor] using h
    have hlen : (bytesBE v 8).length = 8 := bytesBE_length v 8
    have htake : (bytesBE v 8 ++ rest).take 8 = bytesBE v 8 := List.take_left' hlen
    have hdrop : (bytesBE v 8 ++ rest).drop 8 = rest := List.drop_left' hlen
    have hbe : be (bytesBE v 8) = v := by
      rw [be_bytesBE]; exact Nat.mod_eq_of_lt (lt_trans hv (by norm_num))
    simp only [nextSymbol, symbolRecord, Symbol.value, htake, hdrop, hbe]
    rw [if_neg (by simp), if_pos hv]
  | .byteSeq, .octets bs, h =>
    have hb : 1 ≤ bs.length ∧ bs.length ≤ 63 := by simpa [Symbol.okFor] using h
    have hn : (BitVec.ofNat 8 bs.length).toNat = bs.length := by
      rw [BitVec.toNat_ofNat]; exact Nat.mod_eq_of_lt (by omega)
    simp only [nextSymbol, symbolRecord, Symbol.bytes, List.cons_append, hn]
    rw [if_neg (by omega), if_neg (by simp)]
    simp

/-- A record that parses is taken off the source. -/
theorem nextSymbol_length {mode : Mode} {src rest : List Byte} {k : Symbol}
    (h : nextSymbol mode src = .done (k, rest)) : rest.length < src.length := by
  cases mode with
  | numeric =>
    simp only [nextSymbol] at h
    split at h
    · cases h
    · split at h
      · cases h; simp; omega
      · cases h
  | byteSeq =>
    cases src with
    | nil => simp [nextSymbol] at h
    | cons l src =>
      simp only [nextSymbol] at h
      split at h
      · cases h
      · split at h
        · cases h
        · cases h; simp

/-- A symbol read from a source is one the mode can hold. -/
theorem nextSymbol_okFor {mode : Mode} {src rest : List Byte} {k : Symbol}
    (h : nextSymbol mode src = .done (k, rest)) : k.okFor mode = true := by
  cases mode with
  | numeric =>
    simp only [nextSymbol] at h
    split at h
    · cases h
    · split at h
      · cases h; simpa [Symbol.okFor]
      · cases h
  | byteSeq =>
    cases src with
    | nil => simp [nextSymbol] at h
    | cons l src =>
      simp only [nextSymbol] at h
      split at h
      · cases h
      · split at h
        · cases h
        · cases h; simp [Symbol.okFor]; omega

/-- NextSymbol raises BAD_SYMBOL and nothing else (41_frequency_analyzer.md R101). -/
theorem nextSymbol_raised {mode : Mode} {src : List Byte} {e : ErrCode}
    (h : nextSymbol mode src = .raised e) : e = .badSymbol := by
  cases mode with
  | numeric =>
    simp only [nextSymbol] at h
    split at h
    · cases h; rfl
    · split at h <;> cases h
      rfl
  | byteSeq =>
    cases src with
    | nil => simpa [nextSymbol] using h.symm
    | cons l src =>
      simp only [nextSymbol] at h
      split at h
      · cases h; rfl
      · split at h <;> cases h
        rfl

/-- More fuel than the source is long changes nothing. -/
theorem symbolStreamFuel_eq (mode : Mode) (fuel : Nat) (src : List Byte) (h : src.length ≤ fuel) :
    symbolStreamFuel mode fuel src = symbolStream mode src := by
  unfold symbolStream
  induction fuel using Nat.strong_induction_on generalizing src with
  | _ fuel ih =>
    match fuel, src, h with
    | 0, [], _ => rfl
    | 0, b :: src, h => simp at h
    | fuel + 1, [], _ => rfl
    | fuel + 1, b :: src, h =>
      simp only [List.length_cons, symbolStreamFuel]
      split
      · rfl
      · next k rest hk =>
        have hlt := nextSymbol_length hk
        simp only [List.length_cons] at h hlt
        rw [ih fuel (by omega) rest (by omega)]
        rcases Nat.lt_or_ge src.length (fuel + 1) with hs | hs
        · rw [ih src.length hs rest (by omega)]
        · omega

@[simp] theorem symbolStream_nil (mode : Mode) : symbolStream mode [] = ⟨[], none⟩ := rfl

/-- A source whose first record parses gives its symbol, then the rest of the stream. -/
theorem symbolStream_done {mode : Mode} {src rest : List Byte} {k : Symbol}
    (h : nextSymbol mode src = .done (k, rest)) :
    symbolStream mode src = ⟨k :: (symbolStream mode rest).syms, (symbolStream mode rest).fail⟩ := by
  have hlt := nextSymbol_length h
  cases src with
  | nil => simp at hlt
  | cons b src =>
    have : symbolStream mode (b :: src) =
        (let r := symbolStreamFuel mode src.length rest; ⟨k :: r.syms, r.fail⟩) := by
      simp only [symbolStream, List.length_cons, symbolStreamFuel, h]
    simp only [List.length_cons] at hlt
    rw [this, symbolStreamFuel_eq mode src.length rest (by omega)]

/-- A source whose first record is ill-formed fails at once. -/
theorem symbolStream_raised {mode : Mode} {src : List Byte} {e : ErrCode} (hne : src ≠ [])
    (h : nextSymbol mode src = .raised e) : symbolStream mode src = ⟨[], some e⟩ := by
  cases src with
  | nil => exact absurd rfl hne
  | cons b src => simp only [symbolStream, List.length_cons, symbolStreamFuel, h]

@[simp] theorem records_nil (mode : Mode) : records mode [] = [] := rfl

@[simp] theorem records_cons (mode : Mode) (k : Symbol) (ks : List Symbol) :
    records mode (k :: ks) = symbolRecord mode k ++ records mode ks := rfl

/-- Records at the head of a source parse into their symbols (41_frequency_analyzer.md R100,
R101). -/
theorem symbolStream_records_append {mode : Mode} {ks : List Symbol}
    (h : ∀ k ∈ ks, k.okFor mode = true) (tail : List Byte) :
    symbolStream mode (records mode ks ++ tail) =
      ⟨ks ++ (symbolStream mode tail).syms, (symbolStream mode tail).fail⟩ := by
  induction ks with
  | nil => rfl
  | cons k ks ih =>
    rw [records_cons, List.append_assoc,
      symbolStream_done (nextSymbol_record (h k (by simp)) _), ih fun k hk => h k (by simp [hk])]
    rfl

theorem symbolStream_records {mode : Mode} {ks : List Symbol}
    (h : ∀ k ∈ ks, k.okFor mode = true) : symbolStream mode (records mode ks) = ⟨ks, none⟩ := by
  simpa using symbolStream_records_append h []

/-- Every symbol of a stream is one the mode can hold. -/
theorem symbolStream_okFor (mode : Mode) (src : List Byte) :
    ∀ k ∈ (symbolStream mode src).syms, k.okFor mode = true := by
  induction hn : src.length using Nat.strong_induction_on generalizing src with
  | _ n ih =>
    subst hn
    rcases eq_or_ne src [] with rfl | hne
    · simp
    · cases hk : nextSymbol mode src with
      | raised e => simp [symbolStream_raised hne hk]
      | done p =>
        obtain ⟨k, rest⟩ := p
        have hr := ih rest.length (nextSymbol_length hk) rest rfl
        rw [symbolStream_done hk]
        intro k' hk'
        rcases List.mem_cons.mp hk' with rfl | hk'
        · exact nextSymbol_okFor hk
        · exact hr k' hk'

/-- A stream fails with BAD_SYMBOL and nothing else. -/
theorem symbolStream_fail {mode : Mode} {src : List Byte} {e : ErrCode}
    (h : (symbolStream mode src).fail = some e) : e = .badSymbol := by
  induction hn : src.length using Nat.strong_induction_on generalizing src with
  | _ n ih =>
    subst hn
    rcases eq_or_ne src [] with rfl | hne
    · simp at h
    · cases hk : nextSymbol mode src with
      | raised e' =>
        rw [symbolStream_raised hne hk] at h
        cases h
        exact nextSymbol_raised hk
      | done p =>
        obtain ⟨k, rest⟩ := p
        rw [symbolStream_done hk] at h
        exact ih rest.length (nextSymbol_length hk) h rfl

/-- A sequence of n symbols takes at least n bytes. -/
theorem records_length_le (mode : Mode) (ks : List Symbol) : ks.length ≤ (records mode ks).length := by
  induction ks with
  | nil => simp
  | cons k ks ih =>
    have : 0 < (symbolRecord mode k).length := List.length_pos_iff.mpr (symbolRecord_ne_nil mode k)
    simp only [List.length_cons, records_cons, List.length_append]
    omega

theorem records_ne_nil {mode : Mode} {ks : List Symbol} (h : ks ≠ []) : records mode ks ≠ [] := by
  cases ks with
  | nil => exact absurd rfl h
  | cons k ks => simp [symbolRecord_ne_nil]

/-- A symbol byte-sequence mode can hold. -/
theorem octets_of_okFor {k : Symbol} (h : k.okFor .byteSeq = true) :
    ∃ bs, k = .octets bs ∧ 1 ≤ bs.length ∧ bs.length ≤ 63 := by
  cases k with
  | num v => simp [Symbol.okFor] at h
  | octets bs => exact ⟨bs, rfl, by simpa [Symbol.okFor] using h⟩

/-- A symbol numeric mode can hold. -/
theorem num_of_okFor {k : Symbol} (h : k.okFor .numeric = true) : ∃ v, k = .num v ∧ v < 2 ^ 63 := by
  cases k with
  | octets bs => simp [Symbol.okFor] at h
  | num v => exact ⟨v, rfl, by simpa [Symbol.okFor] using h⟩

/-- A source of n bytes holds at most n symbols. -/
theorem symbolStream_length_le (mode : Mode) (src : List Byte) :
    (symbolStream mode src).syms.length ≤ src.length := by
  induction hn : src.length using Nat.strong_induction_on generalizing src with
  | _ n ih =>
    subst hn
    rcases eq_or_ne src [] with rfl | hne
    · simp
    · cases hk : nextSymbol mode src with
      | raised e => simp [symbolStream_raised hne hk]
      | done p =>
        obtain ⟨k, rest⟩ := p
        have hlt := nextSymbol_length hk
        have hr := ih rest.length hlt rest rfl
        rw [symbolStream_done hk]
        simp only [List.length_cons]
        omega

end Sys2Proof.Machine
end

