-- ==== Sys2Proof/Laws/Analyzer.lean ====
section
/-! SUPPORT. The laws of counting: the table of a symbol sequence holds its distinct symbols in order of
first occurrence with their numbers of occurrences (spec/41_frequency_analyzer.md R104 to R106). -/

namespace Sys2Proof.Machine

@[simp] theorem tally_nil : tally [] = [] := rfl

@[simp] theorem tally_keys (ks : List Symbol) : (tally ks).map (·.key) = ks.eraseDups := by
  simp [tally, Function.comp_def]

@[simp] theorem tally_length (ks : List Symbol) : (tally ks).length = ks.eraseDups.length := by
  simp [tally]

theorem bump_eq_none {k : Symbol} {t : Table} : bump k t = none ↔ k ∉ t.map (·.key) := by
  induction t with
  | nil => simp [bump]
  | cons e t ih =>
    by_cases h : e.key = k
    · simp [bump, h]
    · simp [bump, h, ih, Ne.symm h]

theorem bump_eq_some {k : Symbol} {t : Table} (hk : k ∈ t.map (·.key))
    (hn : (t.map (·.key)).Nodup) :
    bump k t = some (t.map fun e => if e.key = k then { e with freq := e.freq + 1 } else e) := by
  induction t with
  | nil => simp at hk
  | cons e t ih =>
    simp only [List.map_cons, List.nodup_cons] at hn
    by_cases h : e.key = k
    · subst h
      have : ∀ e' ∈ t, (if e'.key = e.key then { e' with freq := e'.freq + 1 } else e') = e' := by
        intro e' he'
        rw [if_neg]
        intro heq
        exact hn.1 (heq ▸ List.mem_map_of_mem (f := fun e : Entry => e.key) he')
      simp [bump, List.map_congr_left this]
    · have hk' : k ∈ t.map (·.key) := by
        rcases List.mem_cons.mp hk with rfl | hk
        · exact absurd rfl h
        · exact hk
      simp [bump, h, ih hk' hn.2]

theorem nodup_eraseDups (ks : List Symbol) : ks.eraseDups.Nodup := by
  induction hn : ks.length using Nat.strong_induction_on generalizing ks with
  | _ n ih =>
    subst hn
    cases ks with
    | nil => simp
    | cons k ks =>
      rw [List.eraseDups_cons, List.nodup_cons]
      refine ⟨?_, ih _ ?_ _ rfl⟩
      · simp [List.mem_eraseDups]
      · exact lt_of_le_of_lt (List.length_filter_le _ _) (by simp)

theorem eraseDups_concat (ks : List Symbol) (k : Symbol) :
    (ks ++ [k]).eraseDups = if k ∈ ks then ks.eraseDups else ks.eraseDups ++ [k] := by
  rw [List.eraseDups_append]
  by_cases h : k ∈ ks
  · simp [h, List.removeAll]
  · simp [h, List.removeAll, List.eraseDups_cons]

/-- Counting one more symbol. -/
theorem countSymbol_tally {nMax : Nat} {ks : List Symbol} {k : Symbol}
    (h : (ks ++ [k]).eraseDups.length ≤ nMax) :
    countSymbol nMax (tally ks) k = .done (tally (ks ++ [k])) := by
  unfold countSymbol
  by_cases hk : k ∈ ks
  · have hmem : k ∈ (tally ks).map (·.key) := by simp [hk]
    have hnd : ((tally ks).map (·.key)).Nodup := by simpa using nodup_eraseDups ks
    rw [bump_eq_some hmem hnd]
    simp only [Attempt.done.injEq]
    rw [tally, tally, eraseDups_concat, if_pos hk, List.map_map]
    apply List.map_congr_left
    intro k' _
    by_cases hkk : k' = k
    · subst hkk; simp
    · simp [hkk, Ne.symm hkk]
  · have hnone : bump k (tally ks) = none := by rw [bump_eq_none]; simpa using hk
    rw [hnone]
    have he := eraseDups_concat ks k
    rw [if_neg hk] at he
    rw [he] at h
    simp only [List.length_append, List.length_singleton] at h
    simp only [tally_length]
    rw [if_neg (by omega)]
    simp only [Attempt.done.injEq]
    rw [tally, tally, he, List.map_append]
    congr 1
    · apply List.map_congr_left
      intro k' hk'
      have : k ≠ k' := by rintro rfl; exact hk (List.mem_eraseDups.mp hk')
      simp [this]
    · simp [List.count_eq_zero_of_not_mem hk]

theorem eraseDups_length_le_append (xs ys : List Symbol) :
    xs.eraseDups.length ≤ (xs ++ ys).eraseDups.length := by
  rw [List.eraseDups_append]; simp

/-- Counting a whole sequence (41_frequency_analyzer.md R104 to R106). -/
theorem countSymbols_tally {nMax : Nat} (ks ps : List Symbol)
    (h : (ps ++ ks).eraseDups.length ≤ nMax) :
    countSymbols nMax ks (tally ps) = .done (tally (ps ++ ks)) := by
  induction ks generalizing ps with
  | nil => simp [countSymbols]
  | cons k ks ih =>
    have h1 : (ps ++ [k]).eraseDups.length ≤ nMax := by
      refine le_trans (eraseDups_length_le_append _ ks) ?_
      simpa using h
    rw [countSymbols, countSymbol_tally h1]
    have := ih (ps ++ [k]) (by simpa using h)
    simpa using this

/-- One symbol too many: the table is full and the next symbol is a new one. -/
theorem countSymbols_capacity {nMax : Nat} (ks : List Symbol) (k : Symbol) (tail : List Symbol)
    (hfull : ks.eraseDups.length = nMax) (hk : k ∉ ks) :
    countSymbols nMax (ks ++ k :: tail) [] = .raised .capacityExceeded := by
  have split : ∀ (xs ys : List Symbol) (t : Table), countSymbols nMax (xs ++ ys) t =
      match countSymbols nMax xs t with
      | .done t' => countSymbols nMax ys t'
      | .raised e => .raised e := by
    intro xs
    induction xs with
    | nil => intros; rfl
    | cons x xs ih =>
      intro ys t
      simp only [List.cons_append, countSymbols]
      cases countSymbol nMax t x with
      | done t' => exact ih ys t'
      | raised e => rfl
  have h0 := countSymbols_tally (nMax := nMax) ks [] (by simp [hfull])
  rw [split, show ([] : Table) = tally [] from rfl, h0]
  have hnone : bump k (tally ks) = none := by rw [bump_eq_none]; simpa using hk
  simp [countSymbols, countSymbol, hnone, hfull]

/-- A count that ends well is the tally of the sequence. -/
theorem countSymbols_done {nMax : Nat} {ks : List Symbol} {t : Table}
    (h : countSymbols nMax ks [] = .done t) : t = tally ks ∧ t.length ≤ nMax := by
  have grow : ∀ (ks ps : List Symbol) (t : Table), (tally ps).length ≤ nMax →
      countSymbols nMax ks (tally ps) = .done t → t = tally (ps ++ ks) ∧ t.length ≤ nMax := by
    intro ks
    induction ks with
    | nil => intro ps t hl h; simp [countSymbols] at h; subst h; simpa using hl
    | cons k ks ih =>
      intro ps t hl h
      rw [countSymbols] at h
      have step : (ps ++ [k]).eraseDups.length ≤ nMax ∨
          countSymbol nMax (tally ps) k = .raised .capacityExceeded := by
        rw [tally_length] at hl
        by_cases hk : k ∈ ps
        · left; rwa [eraseDups_concat, if_pos hk]
        · rcases Nat.lt_or_ge ps.eraseDups.length nMax with hlt | hge
          · left; rw [eraseDups_concat, if_neg hk]; simpa using hlt
          · right
            have hnone : bump k (tally ps) = none := by rw [bump_eq_none]; simpa using hk
            simp [countSymbol, hnone, le_antisymm hl hge]
      rcases step with hs | hs
      · rw [countSymbol_tally hs] at h
        have := ih (ps ++ [k]) t (by simpa using hs) h
        simpa using this
      · rw [hs] at h; cases h
  simpa using grow ks [] t (by simp) h

/-- Counting raises CAPACITY_EXCEEDED and nothing else (41_frequency_analyzer.md R104). -/
theorem countSymbols_raised {nMax : Nat} {ks : List Symbol} {t : Table} {e : ErrCode}
    (h : countSymbols nMax ks t = .raised e) : e = .capacityExceeded := by
  induction ks generalizing t with
  | nil => cases h
  | cons k ks ih =>
    rw [countSymbols] at h
    split at h
    · exact ih h
    · next he =>
      cases h
      unfold countSymbol at he
      split at he
      · cases he
      · split at he <;> cases he
        rfl

/-- The frequencies of a tally sum to the number of symbols (41_frequency_analyzer.md R106). -/
theorem tally_freq_sum (ks : List Symbol) : ((tally ks).map (·.freq)).sum = ks.length := by
  have h1 : (tally ks).map (·.freq) = ks.eraseDups.map (fun k => ks.count k) := by
    simp [tally, Function.comp_def]
  have hp : ks.eraseDups.Perm ks.dedup := by
    rw [List.perm_ext_iff_of_nodup (nodup_eraseDups ks) (List.nodup_dedup ks)]
    simp
  rw [h1, (hp.map _).sum_eq]
  have := List.sum_map_count_dedup_eq_length ks
  convert this

theorem count_le_length (ks : List Symbol) (k : Symbol) : ks.count k ≤ ks.length := List.count_le_length

end Sys2Proof.Machine
end

