-- ==== Sys2Proof/Laws/Decode.lean ====
section
/-! SUPPORT. The laws of the command word: what the encoder writes, and that the decoder reads it back
(spec/30_encoding.md R70 to R74). -/

namespace Sys2Proof

/-- A word is its two fields. -/
theorem word_eq_fields (w : Word) : w = rsvdField w ++ opField w := by
  unfold rsvdField opField
  apply BitVec.eq_of_toNat_eq
  rw [BitVec.toNat_append]
  simp only [BitVec.extractLsb_toNat]
  rw [← Nat.shiftLeft_add_eq_or_of_lt]
  · have := w.isLt
    simp [Nat.shiftLeft_eq, Nat.shiftRight_eq_div_pow]
    omega
  · simp
    omega

/-- The decoder reads an encoded command back. -/
@[simp] theorem decode_encode (i : Instr) : decode (encode i) = .command i := by cases i <;> decide

/-- The opcode map and the opcode of a command say the same (30_encoding.md R72). -/
theorem opcode_of_opcodeMap {op : BitVec 4} {i : Instr} (h : opcodeMap op = some i) : opcode i = op := by
  revert h
  revert op
  cases i <;> decide

/-- The opcodes that select a command (30_encoding.md R72). -/
theorem opcodeMap_isSome (op : BitVec 4) : (opcodeMap op).isSome ↔ 1 ≤ op.toNat ∧ op.toNat ≤ 7 := by
  revert op
  decide

/-- What a word that decodes to a command looks like. -/
theorem decode_command {w : Word} {i : Instr} (h : decode w = .command i) :
    rsvdField w = 0 ∧ opcodeMap (opField w) = some i := by
  unfold decode at h
  split at h
  · cases h
  · next hr =>
    split at h
    · next hj => cases h; exact ⟨by simpa using hr, hj⟩
    · cases h

/-- A word that decodes to a command is that command's word. -/
theorem encode_of_decode {w : Word} {i : Instr} (h : decode w = .command i) : encode i = w := by
  obtain ⟨hr, ho⟩ := decode_command h
  rw [word_eq_fields w, hr, encode, opcode_of_opcodeMap ho]
  rfl

end Sys2Proof
end

