-- ==== Sys2Proof/Laws/Memory.lean ====
section
/-! SUPPORT. The laws of BUF: a read after a write, what a write leaves alone, and that every memory
operation keeps the canonical form. -/

namespace Sys2Proof.Machine.Memory

@[simp] theorem read_nil (a : Nat) : read [] a = none := rfl

theorem read_cons (c : Host.Cell) (m : Memory) (a : Nat) :
    read (c :: m) a = if c.1 = a then some c.2 else read m a := rfl

/-- An address below every listed one holds no value. -/
theorem read_eq_none_of_lt {m : Memory} {a : Nat} (h : ∀ c ∈ m, a < c.1) : m.read a = none := by
  induction m with
  | nil => rfl
  | cons c m ih =>
    have hc := h c (by simp)
    rw [read_cons, if_neg (by omega)]
    exact ih fun d hd => h d (by simp [hd])

/-- The byte written is the byte read. -/
@[simp] theorem read_write_same (m : Memory) (a : Nat) (v : Byte) : (m.write a v).read a = some v := by
  induction m with
  | nil => simp [write, read_cons]
  | cons c m ih =>
    obtain ⟨a', v'⟩ := c
    simp only [write]
    split
    · simp [read_cons]
    · split
      · simp [read_cons]
      · rw [read_cons, if_neg (by simp; omega), ih]

/-- A write leaves every other address alone. -/
theorem read_write_ne (m : Memory) {a b : Nat} (v : Byte) (h : b ≠ a) :
    (m.write a v).read b = m.read b := by
  induction m with
  | nil => simp [write, read_cons, Ne.symm h]
  | cons c m ih =>
    obtain ⟨a', v'⟩ := c
    simp only [write]
    split
    · simp [read_cons, Ne.symm h]
    · split
      · subst_vars; rw [read_cons, read_cons, if_neg (Ne.symm h), if_neg (Ne.symm h)]
      · simp [read_cons, ih]

/-- The addresses a write lists: those listed before, and its own. -/
theorem mem_write {m : Memory} {a : Nat} {v : Byte} {c : Host.Cell} (h : c ∈ m.write a v) :
    c = (a, v) ∨ c ∈ m := by
  induction m with
  | nil => simpa [write] using h
  | cons d m ih =>
    obtain ⟨a', v'⟩ := d
    simp only [write] at h
    split at h
    · simpa using h
    · split at h <;> simp only [List.mem_cons] at h ⊢
      · tauto
      · rcases h with h | h
        · tauto
        · rcases ih h with h | h <;> tauto

/-- A write keeps the canonical form. -/
theorem write_wf {m : Memory} (h : m.wf) (a : Nat) (v : Byte) : (m.write a v).wf := by
  induction m with
  | nil => simp [write]
  | cons d m ih =>
    obtain ⟨a', v'⟩ := d
    obtain ⟨hd, hm⟩ := List.pairwise_cons.mp h
    simp only [write]
    split
    · refine List.pairwise_cons.mpr ⟨?_, h⟩
      intro c hc
      rcases List.mem_cons.mp hc with rfl | hc
      · assumption
      · have := hd c hc
        simp only at this ⊢
        omega
    · split
      · subst_vars
        exact List.pairwise_cons.mpr ⟨hd, hm⟩
      · refine List.pairwise_cons.mpr ⟨?_, ih hm⟩
        intro c hc
        rcases mem_write hc with rfl | hc
        · simp only; omega
        · exact hd c hc

/-- A write inside the bound keeps every listed address inside it. -/
theorem write_below {m : Memory} {bound : Nat} (h : m.below bound) {a : Nat} (ha : a < bound)
    (v : Byte) : (m.write a v).below bound := by
  intro c hc
  rcases mem_write hc with rfl | hc
  · exact ha
  · exact h c hc

@[simp] theorem writeBytes_nil (m : Memory) (a : Nat) : m.writeBytes a [] = m := rfl

@[simp] theorem writeBytes_cons (m : Memory) (a : Nat) (b : Byte) (bs : List Byte) :
    m.writeBytes a (b :: bs) = (m.write a b).writeBytes (a + 1) bs := rfl

/-- Writing bytes keeps the canonical form. -/
theorem writeBytes_wf {m : Memory} (h : m.wf) (a : Nat) (bs : List Byte) :
    (m.writeBytes a bs).wf := by
  induction bs generalizing m a with
  | nil => exact h
  | cons b bs ih => exact ih (write_wf h a b) (a + 1)

/-- Writing bytes inside the bound keeps every listed address inside it. -/
theorem writeBytes_below {m : Memory} {bound : Nat} (h : m.below bound) {a : Nat} {bs : List Byte}
    (ha : a + bs.length ≤ bound) : (m.writeBytes a bs).below bound := by
  induction bs generalizing m a with
  | nil => exact h
  | cons b bs ih =>
    simp only [List.length_cons] at ha
    exact ih (write_below h (by omega) b) (by omega)

/-- Writing bytes leaves every address outside them alone. -/
theorem read_writeBytes_outside (m : Memory) {a x : Nat} {bs : List Byte}
    (h : ¬ inRegion a bs.length x) : (m.writeBytes a bs).read x = m.read x := by
  induction bs generalizing m a with
  | nil => rfl
  | cons b bs ih =>
    simp only [inRegion, List.length_cons] at h
    rw [writeBytes_cons, ih _ (by simp only [inRegion]; omega), read_write_ne _ _ (by omega)]

/-- Each byte written is the byte read. -/
theorem read_writeBytes_inside (m : Memory) (a : Nat) (bs : List Byte) {k : Nat} (h : k < bs.length) :
    (m.writeBytes a bs).read (a + k) = some bs[k] := by
  induction bs generalizing m a k with
  | nil => simp at h
  | cons b bs ih =>
    cases k with
    | zero =>
      rw [writeBytes_cons, read_writeBytes_outside _ (by simp only [inRegion]; omega)]
      simp
    | succ k =>
      have := ih (m.write a b) (a + 1) (k := k) (by simpa using h)
      rw [writeBytes_cons, show a + (k + 1) = a + 1 + k by omega, this]
      simp

@[simp] theorem readBytes_zero (m : Memory) (a : Nat) : m.readBytes a 0 = some [] := rfl

theorem readBytes_succ (m : Memory) (a n : Nat) :
    m.readBytes a (n + 1) =
      match m.read a, m.readBytes (a + 1) n with
      | some b, some bs => some (b :: bs)
      | _, _ => none := rfl

/-- Reading bytes gives as many bytes as asked for. -/
theorem readBytes_length {m : Memory} {a n : Nat} {bs : List Byte} (h : m.readBytes a n = some bs) :
    bs.length = n := by
  induction n generalizing a bs with
  | zero => simp_all
  | succ n ih =>
    rw [readBytes_succ] at h
    split at h
    · next b bs' _ hbs' =>
      cases h
      simp [ih hbs']
    · cases h

/-- Reading bytes depends on the bytes of the region alone. -/
theorem readBytes_congr {m m' : Memory} {a n : Nat} (h : ∀ x, inRegion a n x → m'.read x = m.read x) :
    m'.readBytes a n = m.readBytes a n := by
  induction n generalizing a with
  | zero => rfl
  | succ n ih =>
    rw [readBytes_succ, readBytes_succ, h a (by simp only [inRegion]; omega),
      ih fun x hx => h x (by simp only [inRegion] at hx ⊢; omega)]

/-- The bytes written are the bytes read. -/
theorem readBytes_writeBytes_same (m : Memory) (a : Nat) (bs : List Byte) :
    (m.writeBytes a bs).readBytes a bs.length = some bs := by
  induction bs generalizing m a with
  | nil => rfl
  | cons b bs ih =>
    rw [List.length_cons, readBytes_succ]
    have h0 := read_writeBytes_inside m a (b :: bs) (k := 0) (by simp)
    simp only [Nat.add_zero, List.getElem_cons_zero] at h0
    rw [h0, writeBytes_cons, ih]

/-- Reading `n` bytes succeeds when each of them holds a value. -/
theorem readBytes_isSome {m : Memory} {a n : Nat} (h : ∀ x, inRegion a n x → (m.read x).isSome) :
    ∃ bs, m.readBytes a n = some bs := by
  induction n generalizing a with
  | zero => exact ⟨[], rfl⟩
  | succ n ih =>
    obtain ⟨b, hb⟩ := Option.isSome_iff_exists.mp (h a (by simp only [inRegion]; omega))
    obtain ⟨bs, hbs⟩ := ih (a := a + 1) fun x hx => h x (by simp only [inRegion] at hx ⊢; omega)
    exact ⟨b :: bs, by rw [readBytes_succ, hb, hbs]⟩

end Sys2Proof.Machine.Memory
end

