-- ==== Sys2Proof/Laws/State.lean ====
section
/-! SUPPORT. The state after each named update, field by field: one lemma per field per update, true by
rfl, so that no proof unfolds a record update. -/

namespace Sys2Proof.Machine.State

variable (s : State)

@[simp] theorem finish_cfg (e : ErrCode) : (s.finish e).cfg = s.cfg := rfl
@[simp] theorem finish_ctrl (e : ErrCode) : (s.finish e).ctrl = s.ctrl := rfl
@[simp] theorem finish_status (e : ErrCode) :
    (s.finish e).status =
      { s.status with busy := false, done := true, errcode := e } := rfl
@[simp] theorem finish_operands (e : ErrCode) : (s.finish e).operands = s.operands := rfl
@[simp] theorem finish_resultLen (e : ErrCode) : (s.finish e).resultLen = s.resultLen := rfl
@[simp] theorem finish_symCount (e : ErrCode) : (s.finish e).symCount = s.symCount := rfl
@[simp] theorem finish_payloadOff (e : ErrCode) : (s.finish e).payloadOff = s.payloadOff := rfl
@[simp] theorem finish_latch (e : ErrCode) : (s.finish e).latch = s.latch := rfl
@[simp] theorem finish_ft (e : ErrCode) : (s.finish e).ft = s.ft := rfl
@[simp] theorem finish_tree (e : ErrCode) : (s.finish e).tree = s.tree := rfl
@[simp] theorem finish_crom (e : ErrCode) : (s.finish e).crom = s.crom := rfl
@[simp] theorem finish_pbuf (e : ErrCode) : (s.finish e).pbuf = s.pbuf := rfl
@[simp] theorem finish_buf (e : ErrCode) : (s.finish e).buf = s.buf := rfl
@[simp] theorem finish_agenda (e : ErrCode) : (s.finish e).agenda = s.agenda := rfl
@[simp] theorem finish_hostData (e : ErrCode) : (s.finish e).hostData = s.hostData := rfl
@[simp] theorem finish_draws (e : ErrCode) : (s.finish e).draws = s.draws := rfl

@[simp] theorem accept_cfg (w : Word) : (s.accept w).cfg = s.cfg := rfl
@[simp] theorem accept_ctrl (w : Word) : (s.accept w).ctrl = s.ctrl := rfl
@[simp] theorem accept_status (w : Word) :
    (s.accept w).status =
      { s.status with busy := true, done := false, errcode := .success, lastop := w.extractLsb 3 0 } := rfl
@[simp] theorem accept_operands (w : Word) : (s.accept w).operands = s.operands := rfl
@[simp] theorem accept_resultLen (w : Word) : (s.accept w).resultLen = s.resultLen := rfl
@[simp] theorem accept_symCount (w : Word) : (s.accept w).symCount = s.symCount := rfl
@[simp] theorem accept_payloadOff (w : Word) : (s.accept w).payloadOff = s.payloadOff := rfl
@[simp] theorem accept_latch (w : Word) :
    (s.accept w).latch =
      { cmd := w, mode := s.ctrl.mode, args := s.operands } := rfl
@[simp] theorem accept_ft (w : Word) : (s.accept w).ft = s.ft := rfl
@[simp] theorem accept_tree (w : Word) : (s.accept w).tree = s.tree := rfl
@[simp] theorem accept_crom (w : Word) : (s.accept w).crom = s.crom := rfl
@[simp] theorem accept_pbuf (w : Word) : (s.accept w).pbuf = s.pbuf := rfl
@[simp] theorem accept_buf (w : Word) : (s.accept w).buf = s.buf := rfl
@[simp] theorem accept_agenda (w : Word) : (s.accept w).agenda = s.agenda := rfl
@[simp] theorem accept_hostData (w : Word) : (s.accept w).hostData = s.hostData := rfl
@[simp] theorem accept_draws (w : Word) : (s.accept w).draws = s.draws := rfl

@[simp] theorem acknowledge_cfg : (s.acknowledge).cfg = s.cfg := rfl
@[simp] theorem acknowledge_ctrl : (s.acknowledge).ctrl = s.ctrl := rfl
@[simp] theorem acknowledge_status : (s.acknowledge).status = { s.status with done := false } := rfl
@[simp] theorem acknowledge_operands : (s.acknowledge).operands = s.operands := rfl
@[simp] theorem acknowledge_resultLen : (s.acknowledge).resultLen = s.resultLen := rfl
@[simp] theorem acknowledge_symCount : (s.acknowledge).symCount = s.symCount := rfl
@[simp] theorem acknowledge_payloadOff : (s.acknowledge).payloadOff = s.payloadOff := rfl
@[simp] theorem acknowledge_latch : (s.acknowledge).latch = s.latch := rfl
@[simp] theorem acknowledge_ft : (s.acknowledge).ft = s.ft := rfl
@[simp] theorem acknowledge_tree : (s.acknowledge).tree = s.tree := rfl
@[simp] theorem acknowledge_crom : (s.acknowledge).crom = s.crom := rfl
@[simp] theorem acknowledge_pbuf : (s.acknowledge).pbuf = s.pbuf := rfl
@[simp] theorem acknowledge_buf : (s.acknowledge).buf = s.buf := rfl
@[simp] theorem acknowledge_agenda : (s.acknowledge).agenda = s.agenda := rfl
@[simp] theorem acknowledge_hostData : (s.acknowledge).hostData = s.hostData := rfl
@[simp] theorem acknowledge_draws : (s.acknowledge).draws = s.draws := rfl

@[simp] theorem sampleMode_cfg : (s.sampleMode).cfg = s.cfg := rfl
@[simp] theorem sampleMode_ctrl : (s.sampleMode).ctrl = s.ctrl := rfl
@[simp] theorem sampleMode_status :
    (s.sampleMode).status =
      { s.status with ftMode := s.latch.mode } := rfl
@[simp] theorem sampleMode_operands : (s.sampleMode).operands = s.operands := rfl
@[simp] theorem sampleMode_resultLen : (s.sampleMode).resultLen = s.resultLen := rfl
@[simp] theorem sampleMode_symCount : (s.sampleMode).symCount = s.symCount := rfl
@[simp] theorem sampleMode_payloadOff : (s.sampleMode).payloadOff = s.payloadOff := rfl
@[simp] theorem sampleMode_latch : (s.sampleMode).latch = s.latch := rfl
@[simp] theorem sampleMode_ft : (s.sampleMode).ft = s.ft := rfl
@[simp] theorem sampleMode_tree : (s.sampleMode).tree = s.tree := rfl
@[simp] theorem sampleMode_crom : (s.sampleMode).crom = s.crom := rfl
@[simp] theorem sampleMode_pbuf : (s.sampleMode).pbuf = s.pbuf := rfl
@[simp] theorem sampleMode_buf : (s.sampleMode).buf = s.buf := rfl
@[simp] theorem sampleMode_agenda : (s.sampleMode).agenda = s.agenda := rfl
@[simp] theorem sampleMode_hostData : (s.sampleMode).hostData = s.hostData := rfl
@[simp] theorem sampleMode_draws : (s.sampleMode).draws = s.draws := rfl

@[simp] theorem spoilDest_cfg : (s.spoilDest).cfg = s.cfg := rfl
@[simp] theorem spoilDest_ctrl : (s.spoilDest).ctrl = s.ctrl := rfl
@[simp] theorem spoilDest_status : (s.spoilDest).status = s.status := rfl
@[simp] theorem spoilDest_operands : (s.spoilDest).operands = s.operands := rfl
@[simp] theorem spoilDest_resultLen : (s.spoilDest).resultLen = s.resultLen := rfl
@[simp] theorem spoilDest_symCount : (s.spoilDest).symCount = s.symCount := rfl
@[simp] theorem spoilDest_payloadOff : (s.spoilDest).payloadOff = s.payloadOff := rfl
@[simp] theorem spoilDest_latch : (s.spoilDest).latch = s.latch := rfl
@[simp] theorem spoilDest_ft : (s.spoilDest).ft = s.ft := rfl
@[simp] theorem spoilDest_tree : (s.spoilDest).tree = s.tree := rfl
@[simp] theorem spoilDest_crom : (s.spoilDest).crom = s.crom := rfl
@[simp] theorem spoilDest_pbuf : (s.spoilDest).pbuf = s.pbuf := rfl
@[simp] theorem spoilDest_buf :
    (s.spoilDest).buf =
      s.buf.writeBytes s.latch.args.dstBase.toNat (drawBytes s.draws s.latch.args.dstCap.toNat) := rfl
@[simp] theorem spoilDest_agenda : (s.spoilDest).agenda = s.agenda := rfl
@[simp] theorem spoilDest_hostData : (s.spoilDest).hostData = s.hostData := rfl
@[simp] theorem spoilDest_draws : (s.spoilDest).draws = s.draws + s.latch.args.dstCap.toNat := rfl

@[simp] theorem clearOutputs_cfg (f : FailEffect) : (s.clearOutputs f).cfg = s.cfg := rfl
@[simp] theorem clearOutputs_ctrl (f : FailEffect) : (s.clearOutputs f).ctrl = s.ctrl := rfl
@[simp] theorem clearOutputs_status (f : FailEffect) : (s.clearOutputs f).status = s.status := rfl
@[simp] theorem clearOutputs_operands (f : FailEffect) :
    (s.clearOutputs f).operands =
      s.operands := rfl
@[simp] theorem clearOutputs_resultLen (f : FailEffect) :
    (s.clearOutputs f).resultLen =
      if f.zeroesResultLen then 0 else s.resultLen := rfl
@[simp] theorem clearOutputs_symCount (f : FailEffect) :
    (s.clearOutputs f).symCount =
      if f.zeroesSymCount then 0 else s.symCount := rfl
@[simp] theorem clearOutputs_payloadOff (f : FailEffect) :
    (s.clearOutputs f).payloadOff =
      if f.zeroesPayloadOff then 0 else s.payloadOff := rfl
@[simp] theorem clearOutputs_latch (f : FailEffect) : (s.clearOutputs f).latch = s.latch := rfl
@[simp] theorem clearOutputs_ft (f : FailEffect) :
    (s.clearOutputs f).ft =
      if f.clearsFt then none else s.ft := rfl
@[simp] theorem clearOutputs_tree (f : FailEffect) :
    (s.clearOutputs f).tree =
      if f.clearsTree then none else s.tree := rfl
@[simp] theorem clearOutputs_crom (f : FailEffect) :
    (s.clearOutputs f).crom =
      if f.clearsCodes then none else s.crom := rfl
@[simp] theorem clearOutputs_pbuf (f : FailEffect) :
    (s.clearOutputs f).pbuf =
      if f.clearsPbuf then none else s.pbuf := rfl
@[simp] theorem clearOutputs_buf (f : FailEffect) : (s.clearOutputs f).buf = s.buf := rfl
@[simp] theorem clearOutputs_agenda (f : FailEffect) : (s.clearOutputs f).agenda = s.agenda := rfl
@[simp] theorem clearOutputs_hostData (f : FailEffect) :
    (s.clearOutputs f).hostData =
      s.hostData := rfl
@[simp] theorem clearOutputs_draws (f : FailEffect) : (s.clearOutputs f).draws = s.draws := rfl

@[simp] theorem writeDest_cfg (bs : List Byte) : (s.writeDest bs).cfg = s.cfg := rfl
@[simp] theorem writeDest_ctrl (bs : List Byte) : (s.writeDest bs).ctrl = s.ctrl := rfl
@[simp] theorem writeDest_status (bs : List Byte) : (s.writeDest bs).status = s.status := rfl
@[simp] theorem writeDest_operands (bs : List Byte) : (s.writeDest bs).operands = s.operands := rfl
@[simp] theorem writeDest_resultLen (bs : List Byte) :
    (s.writeDest bs).resultLen =
      s.resultLen := rfl
@[simp] theorem writeDest_symCount (bs : List Byte) : (s.writeDest bs).symCount = s.symCount := rfl
@[simp] theorem writeDest_payloadOff (bs : List Byte) :
    (s.writeDest bs).payloadOff =
      s.payloadOff := rfl
@[simp] theorem writeDest_latch (bs : List Byte) : (s.writeDest bs).latch = s.latch := rfl
@[simp] theorem writeDest_ft (bs : List Byte) : (s.writeDest bs).ft = s.ft := rfl
@[simp] theorem writeDest_tree (bs : List Byte) : (s.writeDest bs).tree = s.tree := rfl
@[simp] theorem writeDest_crom (bs : List Byte) : (s.writeDest bs).crom = s.crom := rfl
@[simp] theorem writeDest_pbuf (bs : List Byte) : (s.writeDest bs).pbuf = s.pbuf := rfl
@[simp] theorem writeDest_buf (bs : List Byte) :
    (s.writeDest bs).buf =
      s.buf.writeBytes s.latch.args.dstBase.toNat bs := rfl
@[simp] theorem writeDest_agenda (bs : List Byte) : (s.writeDest bs).agenda = s.agenda := rfl
@[simp] theorem writeDest_hostData (bs : List Byte) : (s.writeDest bs).hostData = s.hostData := rfl
@[simp] theorem writeDest_draws (bs : List Byte) : (s.writeDest bs).draws = s.draws := rfl

@[simp] theorem storeAnalysis_cfg (t : Table) (n : Nat) : (s.storeAnalysis t n).cfg = s.cfg := rfl
@[simp] theorem storeAnalysis_ctrl (t : Table) (n : Nat) :
    (s.storeAnalysis t n).ctrl =
      s.ctrl := rfl
@[simp] theorem storeAnalysis_status (t : Table) (n : Nat) :
    (s.storeAnalysis t n).status =
      s.status := rfl
@[simp] theorem storeAnalysis_operands (t : Table) (n : Nat) :
    (s.storeAnalysis t n).operands =
      s.operands := rfl
@[simp] theorem storeAnalysis_resultLen (t : Table) (n : Nat) :
    (s.storeAnalysis t n).resultLen =
      s.resultLen := rfl
@[simp] theorem storeAnalysis_symCount (t : Table) (n : Nat) :
    (s.storeAnalysis t n).symCount =
      BitVec.ofNat 32 n := rfl
@[simp] theorem storeAnalysis_payloadOff (t : Table) (n : Nat) :
    (s.storeAnalysis t n).payloadOff =
      s.payloadOff := rfl
@[simp] theorem storeAnalysis_latch (t : Table) (n : Nat) :
    (s.storeAnalysis t n).latch =
      s.latch := rfl
@[simp] theorem storeAnalysis_ft (t : Table) (n : Nat) : (s.storeAnalysis t n).ft = some t := rfl
@[simp] theorem storeAnalysis_tree (t : Table) (n : Nat) : (s.storeAnalysis t n).tree = none := rfl
@[simp] theorem storeAnalysis_crom (t : Table) (n : Nat) : (s.storeAnalysis t n).crom = none := rfl
@[simp] theorem storeAnalysis_pbuf (t : Table) (n : Nat) : (s.storeAnalysis t n).pbuf = none := rfl
@[simp] theorem storeAnalysis_buf (t : Table) (n : Nat) : (s.storeAnalysis t n).buf = s.buf := rfl
@[simp] theorem storeAnalysis_agenda (t : Table) (n : Nat) :
    (s.storeAnalysis t n).agenda =
      s.agenda := rfl
@[simp] theorem storeAnalysis_hostData (t : Table) (n : Nat) :
    (s.storeAnalysis t n).hostData =
      s.hostData := rfl
@[simp] theorem storeAnalysis_draws (t : Table) (n : Nat) :
    (s.storeAnalysis t n).draws =
      s.draws := rfl

@[simp] theorem storeTree_cfg (t : HuffTree) : (s.storeTree t).cfg = s.cfg := rfl
@[simp] theorem storeTree_ctrl (t : HuffTree) : (s.storeTree t).ctrl = s.ctrl := rfl
@[simp] theorem storeTree_status (t : HuffTree) : (s.storeTree t).status = s.status := rfl
@[simp] theorem storeTree_operands (t : HuffTree) : (s.storeTree t).operands = s.operands := rfl
@[simp] theorem storeTree_resultLen (t : HuffTree) : (s.storeTree t).resultLen = s.resultLen := rfl
@[simp] theorem storeTree_symCount (t : HuffTree) : (s.storeTree t).symCount = s.symCount := rfl
@[simp] theorem storeTree_payloadOff (t : HuffTree) :
    (s.storeTree t).payloadOff =
      s.payloadOff := rfl
@[simp] theorem storeTree_latch (t : HuffTree) : (s.storeTree t).latch = s.latch := rfl
@[simp] theorem storeTree_ft (t : HuffTree) : (s.storeTree t).ft = s.ft := rfl
@[simp] theorem storeTree_tree (t : HuffTree) : (s.storeTree t).tree = some t := rfl
@[simp] theorem storeTree_crom (t : HuffTree) : (s.storeTree t).crom = none := rfl
@[simp] theorem storeTree_pbuf (t : HuffTree) : (s.storeTree t).pbuf = s.pbuf := rfl
@[simp] theorem storeTree_buf (t : HuffTree) : (s.storeTree t).buf = s.buf := rfl
@[simp] theorem storeTree_agenda (t : HuffTree) : (s.storeTree t).agenda = s.agenda := rfl
@[simp] theorem storeTree_hostData (t : HuffTree) : (s.storeTree t).hostData = s.hostData := rfl
@[simp] theorem storeTree_draws (t : HuffTree) : (s.storeTree t).draws = s.draws := rfl

@[simp] theorem storeCodes_cfg (rom : CodeRom) : (s.storeCodes rom).cfg = s.cfg := rfl
@[simp] theorem storeCodes_ctrl (rom : CodeRom) : (s.storeCodes rom).ctrl = s.ctrl := rfl
@[simp] theorem storeCodes_status (rom : CodeRom) : (s.storeCodes rom).status = s.status := rfl
@[simp] theorem storeCodes_operands (rom : CodeRom) :
    (s.storeCodes rom).operands =
      s.operands := rfl
@[simp] theorem storeCodes_resultLen (rom : CodeRom) :
    (s.storeCodes rom).resultLen =
      s.resultLen := rfl
@[simp] theorem storeCodes_symCount (rom : CodeRom) :
    (s.storeCodes rom).symCount =
      s.symCount := rfl
@[simp] theorem storeCodes_payloadOff (rom : CodeRom) :
    (s.storeCodes rom).payloadOff =
      s.payloadOff := rfl
@[simp] theorem storeCodes_latch (rom : CodeRom) : (s.storeCodes rom).latch = s.latch := rfl
@[simp] theorem storeCodes_ft (rom : CodeRom) : (s.storeCodes rom).ft = s.ft := rfl
@[simp] theorem storeCodes_tree (rom : CodeRom) : (s.storeCodes rom).tree = s.tree := rfl
@[simp] theorem storeCodes_crom (rom : CodeRom) : (s.storeCodes rom).crom = some rom := rfl
@[simp] theorem storeCodes_pbuf (rom : CodeRom) : (s.storeCodes rom).pbuf = s.pbuf := rfl
@[simp] theorem storeCodes_buf (rom : CodeRom) : (s.storeCodes rom).buf = s.buf := rfl
@[simp] theorem storeCodes_agenda (rom : CodeRom) : (s.storeCodes rom).agenda = s.agenda := rfl
@[simp] theorem storeCodes_hostData (rom : CodeRom) :
    (s.storeCodes rom).hostData =
      s.hostData := rfl
@[simp] theorem storeCodes_draws (rom : CodeRom) : (s.storeCodes rom).draws = s.draws := rfl

@[simp] theorem storePayload_cfg (p : Bits) (n : Nat) : (s.storePayload p n).cfg = s.cfg := rfl
@[simp] theorem storePayload_ctrl (p : Bits) (n : Nat) : (s.storePayload p n).ctrl = s.ctrl := rfl
@[simp] theorem storePayload_status (p : Bits) (n : Nat) :
    (s.storePayload p n).status =
      s.status := rfl
@[simp] theorem storePayload_operands (p : Bits) (n : Nat) :
    (s.storePayload p n).operands =
      s.operands := rfl
@[simp] theorem storePayload_resultLen (p : Bits) (n : Nat) :
    (s.storePayload p n).resultLen =
      s.resultLen := rfl
@[simp] theorem storePayload_symCount (p : Bits) (n : Nat) :
    (s.storePayload p n).symCount =
      BitVec.ofNat 32 n := rfl
@[simp] theorem storePayload_payloadOff (p : Bits) (n : Nat) :
    (s.storePayload p n).payloadOff =
      s.payloadOff := rfl
@[simp] theorem storePayload_latch (p : Bits) (n : Nat) :
    (s.storePayload p n).latch =
      s.latch := rfl
@[simp] theorem storePayload_ft (p : Bits) (n : Nat) : (s.storePayload p n).ft = s.ft := rfl
@[simp] theorem storePayload_tree (p : Bits) (n : Nat) : (s.storePayload p n).tree = s.tree := rfl
@[simp] theorem storePayload_crom (p : Bits) (n : Nat) : (s.storePayload p n).crom = s.crom := rfl
@[simp] theorem storePayload_pbuf (p : Bits) (n : Nat) : (s.storePayload p n).pbuf = some p := rfl
@[simp] theorem storePayload_buf (p : Bits) (n : Nat) : (s.storePayload p n).buf = s.buf := rfl
@[simp] theorem storePayload_agenda (p : Bits) (n : Nat) :
    (s.storePayload p n).agenda =
      s.agenda := rfl
@[simp] theorem storePayload_hostData (p : Bits) (n : Nat) :
    (s.storePayload p n).hostData =
      s.hostData := rfl
@[simp] theorem storePayload_draws (p : Bits) (n : Nat) :
    (s.storePayload p n).draws =
      s.draws := rfl

@[simp] theorem storeFrame_cfg (bs : List Byte) : (s.storeFrame bs).cfg = s.cfg := rfl
@[simp] theorem storeFrame_ctrl (bs : List Byte) : (s.storeFrame bs).ctrl = s.ctrl := rfl
@[simp] theorem storeFrame_status (bs : List Byte) : (s.storeFrame bs).status = s.status := rfl
@[simp] theorem storeFrame_operands (bs : List Byte) :
    (s.storeFrame bs).operands =
      s.operands := rfl
@[simp] theorem storeFrame_resultLen (bs : List Byte) :
    (s.storeFrame bs).resultLen =
      BitVec.ofNat 32 bs.length := rfl
@[simp] theorem storeFrame_symCount (bs : List Byte) :
    (s.storeFrame bs).symCount =
      s.symCount := rfl
@[simp] theorem storeFrame_payloadOff (bs : List Byte) :
    (s.storeFrame bs).payloadOff =
      s.payloadOff := rfl
@[simp] theorem storeFrame_latch (bs : List Byte) : (s.storeFrame bs).latch = s.latch := rfl
@[simp] theorem storeFrame_ft (bs : List Byte) : (s.storeFrame bs).ft = s.ft := rfl
@[simp] theorem storeFrame_tree (bs : List Byte) : (s.storeFrame bs).tree = s.tree := rfl
@[simp] theorem storeFrame_crom (bs : List Byte) : (s.storeFrame bs).crom = s.crom := rfl
@[simp] theorem storeFrame_pbuf (bs : List Byte) : (s.storeFrame bs).pbuf = s.pbuf := rfl
@[simp] theorem storeFrame_buf (bs : List Byte) :
    (s.storeFrame bs).buf =
      s.buf.writeBytes s.latch.args.dstBase.toNat bs := rfl
@[simp] theorem storeFrame_agenda (bs : List Byte) : (s.storeFrame bs).agenda = s.agenda := rfl
@[simp] theorem storeFrame_hostData (bs : List Byte) :
    (s.storeFrame bs).hostData =
      s.hostData := rfl
@[simp] theorem storeFrame_draws (bs : List Byte) : (s.storeFrame bs).draws = s.draws := rfl

@[simp] theorem storeUnpacked_cfg (t : Table) (p : Bits) (off : Nat) :
    (s.storeUnpacked t p off).cfg =
      s.cfg := rfl
@[simp] theorem storeUnpacked_ctrl (t : Table) (p : Bits) (off : Nat) :
    (s.storeUnpacked t p off).ctrl =
      s.ctrl := rfl
@[simp] theorem storeUnpacked_status (t : Table) (p : Bits) (off : Nat) :
    (s.storeUnpacked t p off).status =
      s.status := rfl
@[simp] theorem storeUnpacked_operands (t : Table) (p : Bits) (off : Nat) :
    (s.storeUnpacked t p off).operands =
      s.operands := rfl
@[simp] theorem storeUnpacked_resultLen (t : Table) (p : Bits) (off : Nat) :
    (s.storeUnpacked t p off).resultLen =
      s.resultLen := rfl
@[simp] theorem storeUnpacked_symCount (t : Table) (p : Bits) (off : Nat) :
    (s.storeUnpacked t p off).symCount =
      s.symCount := rfl
@[simp] theorem storeUnpacked_payloadOff (t : Table) (p : Bits) (off : Nat) :
    (s.storeUnpacked t p off).payloadOff =
      BitVec.ofNat 32 off := rfl
@[simp] theorem storeUnpacked_latch (t : Table) (p : Bits) (off : Nat) :
    (s.storeUnpacked t p off).latch =
      s.latch := rfl
@[simp] theorem storeUnpacked_ft (t : Table) (p : Bits) (off : Nat) :
    (s.storeUnpacked t p off).ft =
      some t := rfl
@[simp] theorem storeUnpacked_tree (t : Table) (p : Bits) (off : Nat) :
    (s.storeUnpacked t p off).tree =
      none := rfl
@[simp] theorem storeUnpacked_crom (t : Table) (p : Bits) (off : Nat) :
    (s.storeUnpacked t p off).crom =
      none := rfl
@[simp] theorem storeUnpacked_pbuf (t : Table) (p : Bits) (off : Nat) :
    (s.storeUnpacked t p off).pbuf =
      some p := rfl
@[simp] theorem storeUnpacked_buf (t : Table) (p : Bits) (off : Nat) :
    (s.storeUnpacked t p off).buf =
      s.buf := rfl
@[simp] theorem storeUnpacked_agenda (t : Table) (p : Bits) (off : Nat) :
    (s.storeUnpacked t p off).agenda =
      s.agenda := rfl
@[simp] theorem storeUnpacked_hostData (t : Table) (p : Bits) (off : Nat) :
    (s.storeUnpacked t p off).hostData =
      s.hostData := rfl
@[simp] theorem storeUnpacked_draws (t : Table) (p : Bits) (off : Nat) :
    (s.storeUnpacked t p off).draws =
      s.draws := rfl

@[simp] theorem storeDecoded_cfg (d : Emitted) : (s.storeDecoded d).cfg = s.cfg := rfl
@[simp] theorem storeDecoded_ctrl (d : Emitted) : (s.storeDecoded d).ctrl = s.ctrl := rfl
@[simp] theorem storeDecoded_status (d : Emitted) : (s.storeDecoded d).status = s.status := rfl
@[simp] theorem storeDecoded_operands (d : Emitted) :
    (s.storeDecoded d).operands =
      s.operands := rfl
@[simp] theorem storeDecoded_resultLen (d : Emitted) :
    (s.storeDecoded d).resultLen =
      BitVec.ofNat 32 d.out.length := rfl
@[simp] theorem storeDecoded_symCount (d : Emitted) :
    (s.storeDecoded d).symCount =
      BitVec.ofNat 32 d.count := rfl
@[simp] theorem storeDecoded_payloadOff (d : Emitted) :
    (s.storeDecoded d).payloadOff =
      s.payloadOff := rfl
@[simp] theorem storeDecoded_latch (d : Emitted) : (s.storeDecoded d).latch = s.latch := rfl
@[simp] theorem storeDecoded_ft (d : Emitted) : (s.storeDecoded d).ft = s.ft := rfl
@[simp] theorem storeDecoded_tree (d : Emitted) : (s.storeDecoded d).tree = s.tree := rfl
@[simp] theorem storeDecoded_crom (d : Emitted) : (s.storeDecoded d).crom = s.crom := rfl
@[simp] theorem storeDecoded_pbuf (d : Emitted) : (s.storeDecoded d).pbuf = s.pbuf := rfl
@[simp] theorem storeDecoded_buf (d : Emitted) :
    (s.storeDecoded d).buf =
      s.buf.writeBytes s.latch.args.dstBase.toNat d.out := rfl
@[simp] theorem storeDecoded_agenda (d : Emitted) : (s.storeDecoded d).agenda = s.agenda := rfl
@[simp] theorem storeDecoded_hostData (d : Emitted) :
    (s.storeDecoded d).hostData =
      s.hostData := rfl
@[simp] theorem storeDecoded_draws (d : Emitted) : (s.storeDecoded d).draws = s.draws := rfl

@[simp] theorem setHaz_cfg : (s.setHaz).cfg = s.cfg := rfl
@[simp] theorem setHaz_ctrl : (s.setHaz).ctrl = s.ctrl := rfl
@[simp] theorem setHaz_status : (s.setHaz).status = { s.status with haz := true } := rfl
@[simp] theorem setHaz_operands : (s.setHaz).operands = s.operands := rfl
@[simp] theorem setHaz_resultLen : (s.setHaz).resultLen = s.resultLen := rfl
@[simp] theorem setHaz_symCount : (s.setHaz).symCount = s.symCount := rfl
@[simp] theorem setHaz_payloadOff : (s.setHaz).payloadOff = s.payloadOff := rfl
@[simp] theorem setHaz_latch : (s.setHaz).latch = s.latch := rfl
@[simp] theorem setHaz_ft : (s.setHaz).ft = s.ft := rfl
@[simp] theorem setHaz_tree : (s.setHaz).tree = s.tree := rfl
@[simp] theorem setHaz_crom : (s.setHaz).crom = s.crom := rfl
@[simp] theorem setHaz_pbuf : (s.setHaz).pbuf = s.pbuf := rfl
@[simp] theorem setHaz_buf : (s.setHaz).buf = s.buf := rfl
@[simp] theorem setHaz_agenda : (s.setHaz).agenda = s.agenda := rfl
@[simp] theorem setHaz_hostData : (s.setHaz).hostData = s.hostData := rfl
@[simp] theorem setHaz_draws : (s.setHaz).draws = s.draws := rfl

@[simp] theorem setBuserr_cfg : (s.setBuserr).cfg = s.cfg := rfl
@[simp] theorem setBuserr_ctrl : (s.setBuserr).ctrl = s.ctrl := rfl
@[simp] theorem setBuserr_status : (s.setBuserr).status = { s.status with buserr := true } := rfl
@[simp] theorem setBuserr_operands : (s.setBuserr).operands = s.operands := rfl
@[simp] theorem setBuserr_resultLen : (s.setBuserr).resultLen = s.resultLen := rfl
@[simp] theorem setBuserr_symCount : (s.setBuserr).symCount = s.symCount := rfl
@[simp] theorem setBuserr_payloadOff : (s.setBuserr).payloadOff = s.payloadOff := rfl
@[simp] theorem setBuserr_latch : (s.setBuserr).latch = s.latch := rfl
@[simp] theorem setBuserr_ft : (s.setBuserr).ft = s.ft := rfl
@[simp] theorem setBuserr_tree : (s.setBuserr).tree = s.tree := rfl
@[simp] theorem setBuserr_crom : (s.setBuserr).crom = s.crom := rfl
@[simp] theorem setBuserr_pbuf : (s.setBuserr).pbuf = s.pbuf := rfl
@[simp] theorem setBuserr_buf : (s.setBuserr).buf = s.buf := rfl
@[simp] theorem setBuserr_agenda : (s.setBuserr).agenda = s.agenda := rfl
@[simp] theorem setBuserr_hostData : (s.setBuserr).hostData = s.hostData := rfl
@[simp] theorem setBuserr_draws : (s.setBuserr).draws = s.draws := rfl

@[simp] theorem answer_cfg (d : Option Word) : (s.answer d).cfg = s.cfg := rfl
@[simp] theorem answer_ctrl (d : Option Word) : (s.answer d).ctrl = s.ctrl := rfl
@[simp] theorem answer_status (d : Option Word) : (s.answer d).status = s.status := rfl
@[simp] theorem answer_operands (d : Option Word) : (s.answer d).operands = s.operands := rfl
@[simp] theorem answer_resultLen (d : Option Word) : (s.answer d).resultLen = s.resultLen := rfl
@[simp] theorem answer_symCount (d : Option Word) : (s.answer d).symCount = s.symCount := rfl
@[simp] theorem answer_payloadOff (d : Option Word) : (s.answer d).payloadOff = s.payloadOff := rfl
@[simp] theorem answer_latch (d : Option Word) : (s.answer d).latch = s.latch := rfl
@[simp] theorem answer_ft (d : Option Word) : (s.answer d).ft = s.ft := rfl
@[simp] theorem answer_tree (d : Option Word) : (s.answer d).tree = s.tree := rfl
@[simp] theorem answer_crom (d : Option Word) : (s.answer d).crom = s.crom := rfl
@[simp] theorem answer_pbuf (d : Option Word) : (s.answer d).pbuf = s.pbuf := rfl
@[simp] theorem answer_buf (d : Option Word) : (s.answer d).buf = s.buf := rfl
@[simp] theorem answer_agenda (d : Option Word) : (s.answer d).agenda = s.agenda := rfl
@[simp] theorem answer_hostData (d : Option Word) : (s.answer d).hostData = d := rfl
@[simp] theorem answer_draws (d : Option Word) : (s.answer d).draws = s.draws := rfl

@[simp] theorem writeCtrl_cfg (d : Word) : (s.writeCtrl d).cfg = s.cfg := rfl
@[simp] theorem writeCtrl_ctrl (d : Word) :
    (s.writeCtrl d).ctrl =
      { mode := Mode.ofBit (d.getLsbD 0), irqEn := d.getLsbD 1 } := rfl
@[simp] theorem writeCtrl_status (d : Word) : (s.writeCtrl d).status = s.status := rfl
@[simp] theorem writeCtrl_operands (d : Word) : (s.writeCtrl d).operands = s.operands := rfl
@[simp] theorem writeCtrl_resultLen (d : Word) : (s.writeCtrl d).resultLen = s.resultLen := rfl
@[simp] theorem writeCtrl_symCount (d : Word) : (s.writeCtrl d).symCount = s.symCount := rfl
@[simp] theorem writeCtrl_payloadOff (d : Word) : (s.writeCtrl d).payloadOff = s.payloadOff := rfl
@[simp] theorem writeCtrl_latch (d : Word) : (s.writeCtrl d).latch = s.latch := rfl
@[simp] theorem writeCtrl_ft (d : Word) : (s.writeCtrl d).ft = s.ft := rfl
@[simp] theorem writeCtrl_tree (d : Word) : (s.writeCtrl d).tree = s.tree := rfl
@[simp] theorem writeCtrl_crom (d : Word) : (s.writeCtrl d).crom = s.crom := rfl
@[simp] theorem writeCtrl_pbuf (d : Word) : (s.writeCtrl d).pbuf = s.pbuf := rfl
@[simp] theorem writeCtrl_buf (d : Word) : (s.writeCtrl d).buf = s.buf := rfl
@[simp] theorem writeCtrl_agenda (d : Word) : (s.writeCtrl d).agenda = s.agenda := rfl
@[simp] theorem writeCtrl_hostData (d : Word) : (s.writeCtrl d).hostData = s.hostData := rfl
@[simp] theorem writeCtrl_draws (d : Word) : (s.writeCtrl d).draws = s.draws := rfl

@[simp] theorem clearSticky_cfg (d : Word) : (s.clearSticky d).cfg = s.cfg := rfl
@[simp] theorem clearSticky_ctrl (d : Word) : (s.clearSticky d).ctrl = s.ctrl := rfl
@[simp] theorem clearSticky_status (d : Word) :
    (s.clearSticky d).status =
      { s.status with haz := s.status.haz && !d.getLsbD 3, buserr := s.status.buserr && !d.getLsbD 4 } := rfl
@[simp] theorem clearSticky_operands (d : Word) : (s.clearSticky d).operands = s.operands := rfl
@[simp] theorem clearSticky_resultLen (d : Word) : (s.clearSticky d).resultLen = s.resultLen := rfl
@[simp] theorem clearSticky_symCount (d : Word) : (s.clearSticky d).symCount = s.symCount := rfl
@[simp] theorem clearSticky_payloadOff (d : Word) :
    (s.clearSticky d).payloadOff =
      s.payloadOff := rfl
@[simp] theorem clearSticky_latch (d : Word) : (s.clearSticky d).latch = s.latch := rfl
@[simp] theorem clearSticky_ft (d : Word) : (s.clearSticky d).ft = s.ft := rfl
@[simp] theorem clearSticky_tree (d : Word) : (s.clearSticky d).tree = s.tree := rfl
@[simp] theorem clearSticky_crom (d : Word) : (s.clearSticky d).crom = s.crom := rfl
@[simp] theorem clearSticky_pbuf (d : Word) : (s.clearSticky d).pbuf = s.pbuf := rfl
@[simp] theorem clearSticky_buf (d : Word) : (s.clearSticky d).buf = s.buf := rfl
@[simp] theorem clearSticky_agenda (d : Word) : (s.clearSticky d).agenda = s.agenda := rfl
@[simp] theorem clearSticky_hostData (d : Word) : (s.clearSticky d).hostData = s.hostData := rfl
@[simp] theorem clearSticky_draws (d : Word) : (s.clearSticky d).draws = s.draws := rfl

@[simp] theorem placeCommand_cfg (w : Word) : (s.placeCommand w).cfg = s.cfg := rfl
@[simp] theorem placeCommand_ctrl (w : Word) : (s.placeCommand w).ctrl = s.ctrl := rfl
@[simp] theorem placeCommand_status (w : Word) :
    (s.placeCommand w).status =
      { s.status with busy := true, done := false, errcode := .success, lastop := w.extractLsb 3 0 } := rfl
@[simp] theorem placeCommand_operands (w : Word) : (s.placeCommand w).operands = s.operands := rfl
@[simp] theorem placeCommand_resultLen (w : Word) :
    (s.placeCommand w).resultLen =
      s.resultLen := rfl
@[simp] theorem placeCommand_symCount (w : Word) : (s.placeCommand w).symCount = s.symCount := rfl
@[simp] theorem placeCommand_payloadOff (w : Word) :
    (s.placeCommand w).payloadOff =
      s.payloadOff := rfl
@[simp] theorem placeCommand_latch (w : Word) :
    (s.placeCommand w).latch =
      { cmd := w, mode := s.ctrl.mode, args := s.operands } := rfl
@[simp] theorem placeCommand_ft (w : Word) : (s.placeCommand w).ft = s.ft := rfl
@[simp] theorem placeCommand_tree (w : Word) : (s.placeCommand w).tree = s.tree := rfl
@[simp] theorem placeCommand_crom (w : Word) : (s.placeCommand w).crom = s.crom := rfl
@[simp] theorem placeCommand_pbuf (w : Word) : (s.placeCommand w).pbuf = s.pbuf := rfl
@[simp] theorem placeCommand_buf (w : Word) : (s.placeCommand w).buf = s.buf := rfl
@[simp] theorem placeCommand_agenda (w : Word) :
    (s.placeCommand w).agenda =
      .completion :: s.agenda := rfl
@[simp] theorem placeCommand_hostData (w : Word) : (s.placeCommand w).hostData = s.hostData := rfl
@[simp] theorem placeCommand_draws (w : Word) : (s.placeCommand w).draws = s.draws := rfl

@[simp] theorem platformReset_cfg : (s.platformReset).cfg = s.cfg := rfl
@[simp] theorem platformReset_ctrl : (s.platformReset).ctrl = (State.resetWith s.cfg).ctrl := rfl
@[simp] theorem platformReset_status : (s.platformReset).status =
    (State.resetWith s.cfg).status := rfl
@[simp] theorem platformReset_operands : (s.platformReset).operands =
    (State.resetWith s.cfg).operands := rfl
@[simp] theorem platformReset_resultLen : (s.platformReset).resultLen =
    (State.resetWith s.cfg).resultLen := rfl
@[simp] theorem platformReset_symCount : (s.platformReset).symCount =
    (State.resetWith s.cfg).symCount := rfl
@[simp] theorem platformReset_payloadOff : (s.platformReset).payloadOff =
    (State.resetWith s.cfg).payloadOff := rfl
@[simp] theorem platformReset_latch : (s.platformReset).latch = (State.resetWith s.cfg).latch := rfl
@[simp] theorem platformReset_ft : (s.platformReset).ft = (State.resetWith s.cfg).ft := rfl
@[simp] theorem platformReset_tree : (s.platformReset).tree = (State.resetWith s.cfg).tree := rfl
@[simp] theorem platformReset_crom : (s.platformReset).crom = (State.resetWith s.cfg).crom := rfl
@[simp] theorem platformReset_pbuf : (s.platformReset).pbuf = (State.resetWith s.cfg).pbuf := rfl
@[simp] theorem platformReset_hostData : (s.platformReset).hostData =
    (State.resetWith s.cfg).hostData := rfl
@[simp] theorem platformReset_agenda : (s.platformReset).agenda = s.agenda := rfl
@[simp] theorem platformReset_buf :
    (s.platformReset).buf =
      Memory.writeBytes [] s.latch.args.dstBase.toNat (drawBytes s.draws s.abandonedBytes) := rfl
@[simp] theorem platformReset_draws : (s.platformReset).draws = s.draws + s.abandonedBytes := rfl

end Sys2Proof.Machine.State
end

