-- ==== Sys2Proof/Laws/Exec.lean ====
section
/-! SUPPORT. What the shared operations can do, said once each: the region pre-checks, raising an
execution error, and the cases of every command. -/

namespace Sys2Proof.Machine

@[simp] theorem drawBytes_length (k n : Nat) : (drawBytes k n).length = n := by
  induction n generalizing k with
  | zero => rfl
  | succ n ih => simp [drawBytes, ih]

/-- If a command that reads a source answers a next state, the region was invalid, or its bytes were
read and the command did its work (60_exceptions.md R246). -/
theorem withSource_next {s t : State} {work : List Byte → State}
    (h : s.withSource work = .next t) :
    (¬ s.srcValid ∧ t = s.finish .regionFault) ∨
      (s.srcValid ∧ ∃ src, s.srcBytes = some src ∧ t = work src) := by
  unfold State.withSource at h
  split at h
  · next hv =>
    split at h
    · next src hsrc => cases h; exact .inr ⟨hv, src, hsrc, rfl⟩
    · cases h
  · next hv => cases h; exact .inl ⟨hv, rfl⟩

/-- A command that reads a source does its work when the region is valid and its bytes hold
values. -/
theorem withSource_of_bytes {s : State} {src : List Byte} (work : List Byte → State)
    (hv : s.srcValid) (hs : s.srcBytes = some src) : s.withSource work = .next (work src) := by
  unfold State.withSource
  rw [if_pos hv, hs]

theorem withSource_of_invalid {s : State} (work : List Byte → State) (hv : ¬ s.srcValid) :
    s.withSource work = .next (s.finish .regionFault) := by
  unfold State.withSource
  rw [if_neg hv]

/-- A command that reads a source stops only where a byte of a valid region holds no value. -/
theorem withSource_fault {s : State} {work : List Byte → State} {f : Fault}
    (h : s.withSource work = .fault f) : s.srcValid ∧ s.srcBytes = none := by
  unfold State.withSource at h
  split at h
  · next hv =>
    split at h
    · cases h
    · next hs => exact ⟨hv, hs⟩
  · cases h

theorem withSource_refused {s : State} {work : List Byte → State} {r : Refusal} :
    s.withSource work ≠ .refused r := by
  unfold State.withSource
  split
  · split <;> exact fun h => nomatch h
  · exact fun h => nomatch h

/-- If a command that writes a destination answers a next state, the region was invalid or the
command did its work (60_exceptions.md R246). -/
theorem withDest_next {s t work : State} (h : s.withDest work = .next t) :
    (¬ s.dstValid ∧ t = s.finish .regionFault) ∨ (s.dstValid ∧ t = work) := by
  unfold State.withDest at h
  split at h
  · next hv => cases h; exact .inr ⟨hv, rfl⟩
  · next hv => cases h; exact .inl ⟨hv, rfl⟩

theorem withDest_of_valid {s : State} (work : State) (hv : s.dstValid) :
    s.withDest work = .next work := by
  unfold State.withDest
  rw [if_pos hv]

theorem withDest_of_invalid {s : State} (work : State) (hv : ¬ s.dstValid) :
    s.withDest work = .next (s.finish .regionFault) := by
  unfold State.withDest
  rw [if_neg hv]

/-! ### What raising an execution error writes (60_exceptions.md R250) -/

theorem raise_analyze (s : State) (e : ErrCode) : s.raise .analyze e =
    { s with
      status := s.status.ended e, ft := none, tree := none, crom := none, pbuf := none
      symCount := 0 } := rfl

theorem raise_buildTree (s : State) (e : ErrCode) : s.raise .buildTree e =
    { s with status := s.status.ended e, tree := none, crom := none } := rfl

theorem raise_encode (s : State) (e : ErrCode) : s.raise .encode e =
    { s with status := s.status.ended e, pbuf := none, symCount := 0 } := rfl

theorem raise_pack (s : State) (e : ErrCode) : s.raise .pack e =
    { s with
      status := s.status.ended e, resultLen := 0
      buf := s.buf.writeBytes s.latch.args.dstBase.toNat
        (drawBytes s.draws s.latch.args.dstCap.toNat)
      draws := s.draws + s.latch.args.dstCap.toNat } := rfl

theorem raise_unpack (s : State) (e : ErrCode) : s.raise .unpack e =
    { s with
      status := s.status.ended e, ft := none, tree := none, crom := none, pbuf := none
      payloadOff := 0 } := rfl

theorem raise_decode (s : State) (e : ErrCode) : s.raise .decode e =
    { s with
      status := s.status.ended e, resultLen := 0, symCount := 0
      buf := s.buf.writeBytes s.latch.args.dstBase.toNat
        (drawBytes s.draws s.latch.args.dstCap.toNat)
      draws := s.draws + s.latch.args.dstCap.toNat } := rfl

/-! ### The cases of every command -/

theorem execAnalyze_cases {s t : State} (h : execAnalyze s = .next t) :
    (¬ s.srcValid ∧ t = s.finish .regionFault) ∨
    (s.srcValid ∧ ∃ src, s.srcBytes = some src ∧
      ((∃ e, analyzeSource s.cfg.nMax s.latch.mode src = .raised e ∧
          t = s.sampleMode.raise .analyze e) ∨
       (∃ T n, analyzeSource s.cfg.nMax s.latch.mode src = .done (T, n) ∧
          t = (s.sampleMode.storeAnalysis T n).finish .success))) := by
  rcases withSource_next h with h | ⟨hv, src, hs, rfl⟩
  · exact .inl h
  · refine .inr ⟨hv, src, hs, ?_⟩
    cases hc : analyzeSource s.cfg.nMax s.latch.mode src with
    | raised e => exact .inl ⟨e, rfl, rfl⟩
    | done r => exact .inr ⟨r.1, r.2, rfl, rfl⟩

theorem execBuildTree_cases {s t : State} (h : execBuildTree s = .next t) :
    (s.ft = none ∧ t = s.finish .notReady) ∨
    (∃ T, s.ft = some T ∧
      ((buildTree T = none ∧ t = s.raise .buildTree .emptyInput) ∨
       (∃ r, buildTree T = some r ∧ t = (s.storeTree r).finish .success))) := by
  unfold execBuildTree at h
  split at h
  · next hf => cases h; exact .inl ⟨hf, rfl⟩
  · next T hf =>
    refine .inr ⟨T, hf, ?_⟩
    split at h
    · next hb => cases h; exact .inl ⟨hb, rfl⟩
    · next r hb => cases h; exact .inr ⟨r, hb, rfl⟩

theorem execGenCodes_cases {s t : State} (h : execGenCodes s = .next t) :
    (s.tree = none ∧ t = s.finish .notReady) ∨
    (∃ r, s.tree = some r ∧ t = (s.storeCodes (genCodes r)).finish .success) := by
  unfold execGenCodes at h
  split at h
  · next hf => cases h; exact .inl ⟨hf, rfl⟩
  · next r hf => cases h; exact .inr ⟨r, hf, rfl⟩

theorem execEncode_cases {s t : State} (h : execEncode s = .next t) :
    ((s.ft = none ∨ s.crom = none) ∧ t = s.finish .notReady) ∨
    (∃ T rom, s.ft = some T ∧ s.crom = some rom ∧
      ((¬ s.srcValid ∧ t = s.finish .regionFault) ∨
       (s.srcValid ∧ ∃ src, s.srcBytes = some src ∧
        ((∃ e, encodeSource s.cfg.pbufBits s.status.ftMode T rom src = .raised e ∧
            t = s.raise .encode e) ∨
         (∃ p n, encodeSource s.cfg.pbufBits s.status.ftMode T rom src = .done (p, n) ∧
            t = (s.storePayload p n).finish .success))))) := by
  unfold execEncode at h
  split at h
  · next T rom hT hrom =>
    refine .inr ⟨T, rom, hT, hrom, ?_⟩
    rcases withSource_next h with h | ⟨hv, src, hs, rfl⟩
    · exact .inl h
    · refine .inr ⟨hv, src, hs, ?_⟩
      cases hc : encodeSource s.cfg.pbufBits s.status.ftMode T rom src with
      | raised e => exact .inl ⟨e, rfl, rfl⟩
      | done r => exact .inr ⟨r.1, r.2, rfl, rfl⟩
  · next hno =>
    cases h
    refine .inl ⟨?_, rfl⟩
    cases hT : s.ft with
    | none => exact .inl rfl
    | some T =>
      cases hrom : s.crom with
      | none => exact .inr rfl
      | some rom => exact absurd hrom (hno T rom hT)

theorem execPack_cases {s t : State} (h : execPack s = .next t) :
    ((s.ft = none ∨ s.pbuf = none) ∧ t = s.finish .notReady) ∨
    (∃ T p, s.ft = some T ∧ s.pbuf = some p ∧
      ((¬ s.dstValid ∧ t = s.finish .regionFault) ∨
       (s.dstValid ∧
        ((∃ e, packFrame s.cfg s.status.ftMode T p s.latch.args.dstCap.toNat = .raised e ∧
            t = s.raise .pack e) ∨
         (∃ bs, packFrame s.cfg s.status.ftMode T p s.latch.args.dstCap.toNat = .done bs ∧
            t = (s.storeFrame bs).finish .success))))) := by
  unfold execPack at h
  split at h
  · next T p hT hp =>
    refine .inr ⟨T, p, hT, hp, ?_⟩
    rcases withDest_next h with h | ⟨hv, rfl⟩
    · exact .inl h
    · refine .inr ⟨hv, ?_⟩
      cases hc : packFrame s.cfg s.status.ftMode T p s.latch.args.dstCap.toNat with
      | raised e => exact .inl ⟨e, rfl, rfl⟩
      | done bs => exact .inr ⟨bs, rfl, rfl⟩
  · next hno =>
    cases h
    refine .inl ⟨?_, rfl⟩
    cases hT : s.ft with
    | none => exact .inl rfl
    | some T =>
      cases hp : s.pbuf with
      | none => exact .inr rfl
      | some p => exact absurd hp (hno T p hT)

theorem execUnpack_cases {s t : State} (h : execUnpack s = .next t) :
    (¬ s.srcValid ∧ t = s.finish .regionFault) ∨
    (s.srcValid ∧ ∃ src, s.srcBytes = some src ∧
      ((∃ e, unpackFrame s.cfg s.latch.mode (bitsOf src) = .raised e ∧
          t = s.sampleMode.raise .unpack e) ∨
       (∃ T p, unpackFrame s.cfg s.latch.mode (bitsOf src) = .done (T, p) ∧
          t = (s.sampleMode.storeUnpacked T p ((bitsOf src).length - p.length)).finish
            .success))) := by
  rcases withSource_next h with h | ⟨hv, src, hs, rfl⟩
  · exact .inl h
  · refine .inr ⟨hv, src, hs, ?_⟩
    cases hc : unpackFrame s.cfg s.latch.mode (bitsOf src) with
    | raised e => exact .inl ⟨e, rfl, rfl⟩
    | done r => exact .inr ⟨r.1, r.2, rfl, rfl⟩

theorem execDecode_cases {s t : State} (h : execDecode s = .next t) :
    ((s.ft = none ∨ s.tree = none ∨ s.pbuf = none) ∧ t = s.finish .notReady) ∨
    (∃ T r p, s.ft = some T ∧ s.tree = some r ∧ s.pbuf = some p ∧
      ((¬ s.dstValid ∧ t = s.finish .regionFault) ∨
       (s.dstValid ∧
        ((∃ e, decodePayload s.status.ftMode T s.latch.args.dstCap.toNat r p = .raised e ∧
            t = s.raise .decode e) ∨
         (∃ d, decodePayload s.status.ftMode T s.latch.args.dstCap.toNat r p = .done d ∧
            t = (s.storeDecoded d).finish .success))))) := by
  unfold execDecode at h
  split at h
  · next T r p hT hr hp =>
    refine .inr ⟨T, r, p, hT, hr, hp, ?_⟩
    rcases withDest_next h with h | ⟨hv, rfl⟩
    · exact .inl h
    · refine .inr ⟨hv, ?_⟩
      cases hc : decodePayload s.status.ftMode T s.latch.args.dstCap.toNat r p with
      | raised e => exact .inl ⟨e, rfl, rfl⟩
      | done d => exact .inr ⟨d, rfl, rfl⟩
  · next hno =>
    cases h
    refine .inl ⟨?_, rfl⟩
    cases hT : s.ft with
    | none => exact .inl rfl
    | some T =>
      cases hr : s.tree with
      | none => exact .inr (.inl rfl)
      | some r =>
        cases hp : s.pbuf with
        | none => exact .inr (.inr rfl)
        | some p => exact absurd hp (hno T r p hT hr)

/-- What every command leaves alone, and how it leaves STATUS: the parameters, CTRL, the operand
registers, the latch, the agenda and the host's data are kept, STATUS reports a completion, and HAZ,
BUSERR and LASTOP are kept (10_state.md R40; 60_exceptions.md R241). -/
structure Completed (s t : State) : Prop where
  cfg : t.cfg = s.cfg
  ctrl : t.ctrl = s.ctrl
  operands : t.operands = s.operands
  latch : t.latch = s.latch
  agenda : t.agenda = s.agenda
  hostData : t.hostData = s.hostData
  busy : t.status.busy = false
  done : t.status.done = true
  haz : t.status.haz = s.status.haz
  buserr : t.status.buserr = s.status.buserr
  lastop : t.status.lastop = s.status.lastop

theorem completed_finish (s : State) (e : ErrCode) : Completed s (s.finish e) := by
  constructor <;> rfl

theorem completed_raise (s : State) (i : Instr) (e : ErrCode) : Completed s (s.raise i e) := by
  cases i <;> constructor <;> rfl

theorem completed_sampleMode {s t : State} (h : Completed s.sampleMode t) : Completed s t := by
  obtain ⟨h1, h2, h3, h4, h5, h6, h7, h8, h9, h10, h11⟩ := h
  exact ⟨h1, h2, h3, h4, h5, h6, h7, h8, h9, h10, h11⟩

/-- The frame shared by all seven commands. -/
theorem exec_completed {i : Instr} {s t : State} (h : exec i s = .next t) : Completed s t := by
  cases i with
  | analyze =>
    rcases execAnalyze_cases h with ⟨_, rfl⟩ | ⟨_, _, _, ⟨e, _, rfl⟩ | ⟨T, n, _, rfl⟩⟩
    · exact completed_finish _ _
    · exact completed_sampleMode (completed_raise _ _ _)
    · constructor <;> rfl
  | buildTree =>
    rcases execBuildTree_cases h with ⟨_, rfl⟩ | ⟨_, _, ⟨_, rfl⟩ | ⟨r, _, rfl⟩⟩
    · exact completed_finish _ _
    · exact completed_raise _ _ _
    · constructor <;> rfl
  | genCodes =>
    rcases execGenCodes_cases h with ⟨_, rfl⟩ | ⟨r, _, rfl⟩
    · exact completed_finish _ _
    · constructor <;> rfl
  | encode =>
    rcases execEncode_cases h with
      ⟨_, rfl⟩ | ⟨_, _, _, _, ⟨_, rfl⟩ | ⟨_, _, _, ⟨e, _, rfl⟩ | ⟨p, n, _, rfl⟩⟩⟩
    · exact completed_finish _ _
    · exact completed_finish _ _
    · exact completed_raise _ _ _
    · constructor <;> rfl
  | pack =>
    rcases execPack_cases h with
      ⟨_, rfl⟩ | ⟨_, _, _, _, ⟨_, rfl⟩ | ⟨_, ⟨e, _, rfl⟩ | ⟨bs, _, rfl⟩⟩⟩
    · exact completed_finish _ _
    · exact completed_finish _ _
    · exact completed_raise _ _ _
    · constructor <;> rfl
  | unpack =>
    rcases execUnpack_cases h with ⟨_, rfl⟩ | ⟨_, _, _, ⟨e, _, rfl⟩ | ⟨T, p, _, rfl⟩⟩
    · exact completed_finish _ _
    · exact completed_sampleMode (completed_raise _ _ _)
    · constructor <;> rfl
  | decode =>
    rcases execDecode_cases h with
      ⟨_, rfl⟩ | ⟨_, _, _, _, _, _, ⟨_, rfl⟩ | ⟨_, ⟨e, _, rfl⟩ | ⟨d, _, rfl⟩⟩⟩
    · exact completed_finish _ _
    · exact completed_finish _ _
    · exact completed_raise _ _ _
    · constructor <;> rfl

/-- The completion step ends in a completion (60_exceptions.md R241). -/
theorem completionStep_completed {s t : State} (h : completionStep s = .next t) : Completed s t := by
  unfold completionStep at h
  split at h
  · exact exec_completed h
  · cases h; exact completed_finish _ _

/-- What one step is: the core's turn, a host access or a reset, after the event is taken off the
agenda. -/
theorem step_nil {s : State} (h : s.agenda = []) : step s = coreTurn s := by
  simp [step, nextTransition, h]

theorem step_cons {s : State} {ev : Event} {rest : List Event} (h : s.agenda = ev :: rest) :
    step s = runEvent ev { s with agenda := rest } := by
  simp [step, nextTransition, h]

/-- When the core moves, the step is the completion step. -/
theorem step_of_coreMoves {s : State} {rest : List Event} (h : s.coreMoves rest) :
    step s = completionStep { s with agenda := rest } := by
  obtain ⟨hb, h | ⟨h, rfl⟩⟩ := h
  · rw [step_cons h]
    simp [runEvent, coreTurn, hb]
  · have hs : { s with agenda := [] } = s := by rw [← h]
    rw [step_nil h, hs]
    simp [coreTurn, hb]

end Sys2Proof.Machine
end

