-- ==== Sys2Proof/Laws/HostPort.lean ====
section
/-! SUPPORT. What the host port can do, said once: where an access goes (spec/20_memory.md R50 to R55),
what a host access leaves alone, and what it does to BUF. -/

namespace Sys2Proof.Machine

/-! ### Where an access goes -/

@[simp] theorem target_reg (cfg : Params) (r : Reg) : target cfg (.reg r.offset) 32 = .reg r := by
  cases r <;> rfl

theorem target_bufByte {cfg : Params} {a : Nat} (h : a < cfg.bufBytes) :
    target cfg (.buf a) 8 = .bufByte a := by
  simp [target, resolve, bufTarget, h]

theorem target_bufWord {cfg : Params} {a : Nat} (h4 : a % 4 = 0) (h : a + 4 ≤ cfg.bufBytes) :
    target cfg (.buf a) 32 = .bufWord a := by
  simp [target, resolve, bufTarget, h4, h]

theorem target_badBuf {cfg : Params} {a w : Nat} (h8 : ¬ (w = 8 ∧ a < cfg.bufBytes))
    (h32 : ¬ (w = 32 ∧ a % 4 = 0 ∧ a + 4 ≤ cfg.bufBytes)) : target cfg (.buf a) w = .badBuf := by
  simp only [target, resolve, bufTarget]
  rw [if_neg h8, if_neg h32]

/-- The register at an offset has that offset. -/
theorem offset_of_regAt {off : Nat} {r : Reg} (h : regAt off = some r) : r.offset = off := by
  simpa using List.find?_some h

theorem offset_aligned (r : Reg) : r.offset % 4 = 0 ∧ r.offset < 0x44 := by cases r <;> decide

theorem target_badReg {cfg : Params} {off w : Nat} (h : w ≠ 32 ∨ off % 4 ≠ 0 ∨ 0x44 ≤ off) :
    target cfg (.reg off) w = .badReg := by
  simp only [target, resolve, regTarget]
  split
  · split
    · next r hr =>
      have h1 := offset_of_regAt hr
      have h2 := offset_aligned r
      omega
    · rfl
  · rfl

/-- A BUF access is a byte access, a word access or ill-formed; the bytes it reaches exist. -/
theorem target_buf_cases (cfg : Params) (a w : Nat) :
    (target cfg (.buf a) w = .bufByte a ∧ a + 1 ≤ cfg.bufBytes) ∨
    (target cfg (.buf a) w = .bufWord a ∧ a + 4 ≤ cfg.bufBytes) ∨ target cfg (.buf a) w = .badBuf := by
  simp only [target, resolve, bufTarget]
  split
  · exact .inl ⟨rfl, by omega⟩
  · split
    · exact .inr (.inl ⟨rfl, by omega⟩)
    · exact .inr (.inr rfl)

/-- A host address in the register window (20_memory.md R50, R52). -/
theorem resolve_registers (cfg : Params) {off : Nat} (h : off < 0x10000) :
    resolve cfg (.address (cfg.blockBase + off)) = .reg off := by
  have h1 : cfg.blockBase ≤ cfg.blockBase + off ∧ cfg.blockBase + off < cfg.blockBase + blockSize := by
    unfold blockSize; omega
  have h2 : cfg.blockBase + off - cfg.blockBase < bufWindow := by unfold bufWindow; omega
  simp only [resolve]
  rw [if_pos h1, if_pos h2, Nat.add_sub_cancel_left]

/-- A host address in the BUF window (20_memory.md R50, R52). -/
theorem resolve_buf (cfg : Params) {a : Nat} (h : a < 0x10000) :
    resolve cfg (.address (cfg.blockBase + 0x10000 + a)) = .buf a := by
  have h1 : cfg.blockBase ≤ cfg.blockBase + 0x10000 + a ∧
      cfg.blockBase + 0x10000 + a < cfg.blockBase + blockSize := by
    unfold blockSize; omega
  have h2 : ¬ cfg.blockBase + 0x10000 + a - cfg.blockBase < bufWindow := by unfold bufWindow; omega
  have h3 : cfg.blockBase + 0x10000 + a - cfg.blockBase - bufWindow = a := by unfold bufWindow; omega
  simp only [resolve]
  rw [if_pos h1, if_neg h2, h3]

/-- A host address outside the block (20_memory.md R52). -/
theorem resolve_outside (cfg : Params) {addr : Nat}
    (h : addr < cfg.blockBase ∨ cfg.blockBase + 0x1FFFF < addr) :
    resolve cfg (.address addr) = .address addr := by
  have h1 : ¬ (cfg.blockBase ≤ addr ∧ addr < cfg.blockBase + blockSize) := by unfold blockSize; omega
  simp only [resolve]
  rw [if_neg h1]

/-! ### What a host access leaves alone -/

/-- The host can change no store, no result register and no parameter (10_state.md R29, R30, R37). -/
structure Accessed (s t : State) : Prop where
  cfg : t.cfg = s.cfg
  resultLen : t.resultLen = s.resultLen
  symCount : t.symCount = s.symCount
  payloadOff : t.payloadOff = s.payloadOff
  ft : t.ft = s.ft
  tree : t.tree = s.tree
  crom : t.crom = s.crom
  pbuf : t.pbuf = s.pbuf
  agenda : t.agenda = s.agenda
  ftMode : t.status.ftMode = s.status.ftMode

theorem accessed_answer {s t : State} (h : Accessed s t) (d : Option Word) :
    Accessed s (t.answer d) := by
  obtain ⟨h1, h2, h3, h4, h5, h6, h7, h8, h9, h10⟩ := h
  exact ⟨h1, h2, h3, h4, h5, h6, h7, h8, h9, h10⟩

theorem writeReg_accessed (s : State) (r : Reg) (d : Word) : Accessed s (s.writeReg r d) := by
  cases r <;> simp only [State.writeReg] <;> try (constructor <;> rfl)
  · simp only [State.writeCmd]
    split <;> constructor <;> rfl
  · simp only [State.writeStatus]
    split <;> constructor <;> rfl

theorem illFormedBuf_accessed (s : State) : Accessed s s.illFormedBuf := by
  unfold State.illFormedBuf
  split <;> constructor <;> rfl

theorem hostWriteBuf_accessed (s : State) (a n : Nat) (d : Word) :
    Accessed s (s.hostWriteBuf a n d) := by
  unfold State.hostWriteBuf
  split <;> constructor <;> rfl

/-- What a host read of BUF answers (20_memory.md R51, R54, R57). -/
theorem hostReadBuf_next {s t : State} {a n : Nat} (h : s.hostReadBuf a n = .next t) :
    (s.status.busy = true ∧ t = s.setHaz.answer (some 0)) ∨
    (s.status.busy = false ∧ ∃ bs, s.buf.readBytes a n = some bs ∧
      t = s.answer (some (BitVec.ofNat 32 (be bs)))) := by
  unfold State.hostReadBuf at h
  split at h
  · next hb => cases h; exact .inl ⟨hb, rfl⟩
  · next hb =>
    split at h
    · next bs hbs => cases h; exact .inr ⟨by simpa using hb, bs, hbs, rfl⟩
    · cases h

theorem hostReadBuf_accessed {s t : State} {a n : Nat} (h : s.hostReadBuf a n = .next t) :
    Accessed s t := by
  rcases hostReadBuf_next h with ⟨_, rfl⟩ | ⟨_, _, _, rfl⟩ <;> constructor <;> rfl

theorem hostAccess_accessed {a : Access} {s t : State} (h : hostAccess a s = .next t) :
    Accessed s t := by
  cases a with
  | read p w =>
    simp only [hostAccess, State.hostRead] at h
    split at h
    · cases h; constructor <;> rfl
    · exact hostReadBuf_accessed h
    · exact hostReadBuf_accessed h
    · cases h; constructor <;> rfl
    · cases h; exact accessed_answer (illFormedBuf_accessed s) _
    · cases h; constructor <;> rfl
  | write p w d =>
    simp only [hostAccess] at h
    cases h
    unfold State.hostWrite
    split
    · exact accessed_answer (writeReg_accessed s _ d) _
    · exact accessed_answer (hostWriteBuf_accessed s _ _ d) _
    · exact accessed_answer (hostWriteBuf_accessed s _ _ d) _
    · constructor <;> rfl
    · exact accessed_answer (illFormedBuf_accessed s) _
    · constructor <;> rfl

/-! ### What a host access does to BUF -/

theorem writeReg_buf (s : State) (r : Reg) (d : Word) : (s.writeReg r d).buf = s.buf := by
  cases r <;> try rfl
  · simp only [State.writeReg, State.writeCmd]
    split <;> rfl
  · simp only [State.writeReg, State.writeStatus]
    split <;> rfl

theorem illFormedBuf_buf (s : State) : s.illFormedBuf.buf = s.buf := by
  unfold State.illFormedBuf
  split <;> rfl

/-- A host access changes BUF only by a write while BUSY = 0, and it keeps BUF canonical and inside
its bounds (20_memory.md R51, R57). -/
theorem hostAccess_buf {a : Access} {s t : State} (h : hostAccess a s = .next t) :
    t.buf = s.buf ∨
    (s.status.busy = false ∧ (∃ p w d, a = .write p w d) ∧
      (s.buf.wf → s.buf.below s.cfg.bufBytes → t.buf.wf ∧ t.buf.below s.cfg.bufBytes)) := by
  cases a with
  | read p w =>
    left
    simp only [hostAccess, State.hostRead] at h
    split at h
    · cases h; rfl
    · rcases hostReadBuf_next h with ⟨_, rfl⟩ | ⟨_, _, _, rfl⟩ <;> rfl
    · rcases hostReadBuf_next h with ⟨_, rfl⟩ | ⟨_, _, _, rfl⟩ <;> rfl
    · cases h; rfl
    · cases h; exact illFormedBuf_buf s
    · cases h; rfl
  | write p w d =>
    simp only [hostAccess] at h
    cases h
    have inside : ∀ x n, target s.cfg p w = .bufByte x ∧ n = 1 ∨ target s.cfg p w = .bufWord x ∧ n = 4 →
        x + n ≤ s.cfg.bufBytes := by
      intro x n hx
      unfold target at hx
      split at hx
      · unfold regTarget at hx
        split at hx
        · split at hx <;> simp at hx
        · simp at hx
      · unfold bufTarget at hx
        split at hx
        · simp at hx; omega
        · split at hx
          · simp at hx; omega
          · simp at hx
      · simp at hx
    have written : ∀ x n, x + n ≤ s.cfg.bufBytes →
        (s.hostWriteBuf x n d).buf = s.buf ∨
        (s.status.busy = false ∧ (∃ p' w' d', Access.write p w d = .write p' w' d') ∧
          (s.buf.wf → s.buf.below s.cfg.bufBytes →
            (s.hostWriteBuf x n d).buf.wf ∧ (s.hostWriteBuf x n d).buf.below s.cfg.bufBytes)) := by
      intro x n hx
      unfold State.hostWriteBuf
      split
      · exact .inl rfl
      · next hb =>
        exact .inr ⟨by simpa using hb, ⟨p, w, d, rfl⟩, fun h1 h2 =>
          ⟨Memory.writeBytes_wf h1 _ _, Memory.writeBytes_below h2 (by simpa using hx)⟩⟩
    unfold State.hostWrite
    split
    · exact .inl (writeReg_buf s _ d)
    · next x hx => exact written x 1 (inside x 1 (.inl ⟨hx, rfl⟩))
    · next x hx => exact written x 4 (inside x 4 (.inr ⟨hx, rfl⟩))
    · exact .inl rfl
    · exact .inl (illFormedBuf_buf s)
    · exact .inl rfl

end Sys2Proof.Machine
end

