-- ==== Sys2Proof/Laws/TableCodec.lean ====
section
/-! SUPPORT. The laws of the table codec's fields: a field, a key and a record read back as they were
written (spec/44_table_codec.md R163 to R169). -/

namespace Sys2Proof.Machine

/-- A field read back. -/
theorem readField_u {v n : Nat} (h : v < 2 ^ n) (rest : Bits) :
    readField n (u v n ++ rest) = .done (v, rest) := by
  have hl : (u v n).length = n := u_length v n
  have ht : (u v n ++ rest).take n = u v n := List.take_left' hl
  have hd : (u v n ++ rest).drop n = rest := List.drop_left' hl
  rw [readField, if_neg (by simp), ht, hd, val_u_of_lt h]

/-- What a field reader answers: a value the field can hold, and the bits after it. -/
theorem readField_done {n v : Nat} {s rest : Bits} (h : readField n s = .done (v, rest)) :
    s = u v n ++ rest ∧ v < 2 ^ n := by
  unfold readField at h
  split at h
  · cases h
  · next hl =>
    cases h
    have hlen : (s.take n).length = n := by simp; omega
    refine ⟨?_, ?_⟩
    · have := u_val (s.take n)
      rw [hlen] at this
      rw [this, List.take_append_drop]
    · have := val_lt (s.take n)
      rwa [hlen] at this

theorem readField_raised {n : Nat} {s : Bits} {e : ErrCode} (h : readField n s = .raised e) :
    e = .incompleteTable := by
  unfold readField at h
  split at h <;> cases h
  rfl

/-- The bytes of a key read back. -/
theorem readBytesField_bitsOf (bs : List Byte) (rest : Bits) :
    readBytesField bs.length (bitsOf bs ++ rest) = .done (bs, rest) := by
  induction bs with
  | nil => rfl
  | cons b bs ih =>
    rw [List.length_cons, readBytesField, bitsOf, List.append_assoc,
      readField_u b.isLt]
    simp [ih]

/-- What the reader of a key's bytes answers. -/
theorem readBytesField_done {n : Nat} {s rest : Bits} {bs : List Byte}
    (h : readBytesField n s = .done (bs, rest)) : s = bitsOf bs ++ rest ∧ bs.length = n := by
  induction n generalizing s bs with
  | zero => cases h; simp [bitsOf]
  | succ n ih =>
    rw [readBytesField] at h
    split at h
    · cases h
    · next b s1 hb =>
      split at h
      · cases h
      · next bs' s2 hbs =>
        cases h
        obtain ⟨rfl, hlt⟩ := readField_done hb
        obtain ⟨rfl, rfl⟩ := ih hbs
        have : (BitVec.ofNat 8 b).toNat = b := by
          rw [BitVec.toNat_ofNat]; exact Nat.mod_eq_of_lt hlt
        simp [bitsOf, this]

theorem hasKey_eq_true {t : Table} {k : Symbol} : hasKey t k = true ↔ k ∈ t.map (·.key) := by
  simp [hasKey]

theorem hasKey_eq_false {t : Table} {k : Symbol} : hasKey t k = false ↔ k ∉ t.map (·.key) := by
  rw [← hasKey_eq_true]; simp

theorem maxOf_foldl_le (l : List Nat) (a : Nat) : a ≤ l.foldl max a ∧ ∀ x ∈ l, x ≤ l.foldl max a := by
  induction l generalizing a with
  | nil => simp
  | cons y l ih =>
    obtain ⟨h1, h2⟩ := ih (max a y)
    simp only [List.foldl_cons, List.mem_cons, forall_eq_or_imp]
    exact ⟨by omega, by omega, h2⟩

theorem le_maxOf {l : List Nat} {x : Nat} (h : x ∈ l) : x ≤ maxOf l := (maxOf_foldl_le l 0).2 x h

/-- The largest number is below a bound when every number is. -/
theorem maxOf_lt {l : List Nat} {b : Nat} (hb : 0 < b) (h : ∀ x ∈ l, x < b) : maxOf l < b := by
  have : ∀ a < b, l.foldl max a < b := by
    induction l with
    | nil => simp
    | cons y l ih =>
      intro a ha
      have hy := h y (by simp)
      exact ih (fun x hx => h x (by simp [hx])) _ (by omega)
  exact this 0 hb

/-- Every frequency fits the frequency field. -/
theorem freq_lt_width {t : Table} {e : Entry} (h : e ∈ t) : e.freq < 2 ^ freqWidth t :=
  lt_of_le_of_lt (le_maxOf (List.mem_map_of_mem h)) (lt_two_pow_bitlen _)

/-- Every key fits the key field. -/
theorem key_lt_width {t : Table} {e : Entry} (h : e ∈ t) : e.key.value < 2 ^ keyWidth t :=
  lt_of_le_of_lt (le_maxOf (List.mem_map_of_mem (f := fun e : Entry => e.key.value) h))
    (lt_two_pow_bitlen _)

@[simp] theorem keyEnc_length (k : Symbol) : (keyEnc k).length = 6 + 8 * k.bytes.length := by
  simp [keyEnc]

@[simp] theorem byteSeqRecord_length (e : Entry) :
    (byteSeqRecord e).length = 6 + 8 * e.key.bytes.length + 32 := by
  simp [byteSeqRecord]

/-- The records of a numeric body read back, one after another (44_table_codec.md R162, R168). -/
theorem parseNumericRecords_body {k f : Nat} {t : Table} (acc : Table) (rest : Bits)
    (hk : ∀ e ∈ t, ∃ v, e.key = .num v ∧ v < 2 ^ k) (hf : ∀ e ∈ t, e.freq < 2 ^ f)
    (hn : ((acc ++ t).map (·.key)).Nodup) :
    parseNumericRecords k f t.length acc (numericBody k f t ++ rest) = .done (acc ++ t, rest) := by
  induction t generalizing acc with
  | nil => simp [parseNumericRecords, numericBody]
  | cons e t ih =>
    obtain ⟨v, hv, hlt⟩ := hk e (by simp)
    obtain ⟨key, freq⟩ := e
    subst hv
    have hfreq := hf ⟨.num v, freq⟩ (by simp)
    have hbody : numericBody k f (⟨.num v, freq⟩ :: t) ++ rest
        = u v k ++ (u freq f ++ (numericBody k f t ++ rest)) := by
      simp [numericBody, Symbol.value]
    have hnot : hasKey acc (.num v) = false := by
      rw [hasKey_eq_false]
      intro hmem
      rw [List.map_append, List.nodup_append] at hn
      exact hn.2.2 _ hmem _ (by simp) rfl
    rw [List.length_cons, parseNumericRecords, hbody, readField_u hlt]
    simp only
    rw [readField_u hfreq]
    simp only [hnot, Bool.false_eq_true, if_false]
    have h := ih (acc ++ [⟨.num v, freq⟩]) (fun e he => hk e (by simp [he]))
      (fun e he => hf e (by simp [he])) (by simpa using hn)
    rw [List.append_assoc] at h
    exact h

/-- The records of a byte-sequence body and its sentinel read back (44_table_codec.md R164, R169). -/
theorem parseByteSeqFuel_body {nMax fuel : Nat} {t : Table} (acc : Table) (rest : Bits)
    (hk : ∀ e ∈ t, ∃ bs, e.key = .octets bs ∧ 1 ≤ bs.length ∧ bs.length ≤ 63)
    (hf : ∀ e ∈ t, e.freq < 2 ^ 32) (hn : ((acc ++ t).map (·.key)).Nodup)
    (hroom : (acc ++ t).length ≤ nMax) (hfuel : t.length < fuel) :
    parseByteSeqFuel nMax fuel acc (t.flatMap byteSeqRecord ++ (sentinel ++ rest)) =
      .done (acc ++ t, rest) := by
  induction t generalizing acc fuel with
  | nil =>
    obtain ⟨fuel, rfl⟩ : ∃ n, fuel = n + 1 := ⟨fuel - 1, by simp at hfuel; omega⟩
    simp [parseByteSeqFuel, sentinel, readField_u]
  | cons e t ih =>
    obtain ⟨fuel, rfl⟩ : ∃ n, fuel = n + 1 := ⟨fuel - 1, by simp at hfuel; omega⟩
    obtain ⟨bs, hbs, h1, h63⟩ := hk e (by simp)
    obtain ⟨key, freq⟩ := e
    subst hbs
    have hfreq := hf ⟨.octets bs, freq⟩ (by simp)
    have hbody : (⟨.octets bs, freq⟩ :: t : Table).flatMap byteSeqRecord ++ (sentinel ++ rest)
        = u bs.length 6 ++ (bitsOf bs ++ (u freq 32 ++
            (t.flatMap byteSeqRecord ++ (sentinel ++ rest)))) := by
      simp [byteSeqRecord, keyEnc, Symbol.bytes]
    have hnot : hasKey acc (.octets bs) = false := by
      rw [hasKey_eq_false]
      intro hmem
      rw [List.map_append, List.nodup_append] at hn
      exact hn.2.2 _ hmem _ (by simp) rfl
    rw [parseByteSeqFuel, hbody, readField_u (show bs.length < 2 ^ 6 by omega)]
    simp only
    rw [if_neg (by omega), readBytesField_bitsOf]
    simp only
    rw [readField_u hfreq]
    simp only [hnot, Bool.false_eq_true, if_false]
    have hlt : acc.length ≠ nMax := by simp at hroom; omega
    rw [if_neg hlt]
    have h := ih (fuel := fuel) (acc ++ [⟨.octets bs, freq⟩]) (fun e he => hk e (by simp [he]))
      (fun e he => hf e (by simp [he])) (by simpa using hn) (by simpa using hroom)
      (by simpa using hfuel)
    rw [List.append_assoc] at h
    exact h

/-! ### What the parser can raise -/

theorem parseNumericRecords_raised {k f n : Nat} {T : Table} {s : Bits} {e : ErrCode}
    (h : parseNumericRecords k f n T s = .raised e) :
    e = .incompleteTable ∨ e = .duplicateKey := by
  induction n generalizing T s with
  | zero => cases h
  | succ n ih =>
    rw [parseNumericRecords] at h
    split at h
    · next h1 => cases h; exact .inl (readField_raised h1)
    · split at h
      · next h1 => cases h; exact .inl (readField_raised h1)
      · split at h
        · cases h; exact .inr rfl
        · exact ih h

theorem readBytesField_raised {n : Nat} {s : Bits} {e : ErrCode}
    (h : readBytesField n s = .raised e) : e = .incompleteTable := by
  induction n generalizing s with
  | zero => cases h
  | succ n ih =>
    rw [readBytesField] at h
    split at h
    · next h1 => cases h; exact readField_raised h1
    · split at h
      · next h1 => cases h; exact ih h1
      · cases h

theorem parseByteSeqFuel_raised {m n : Nat} {T : Table} {s : Bits} {e : ErrCode}
    (h : parseByteSeqFuel m n T s = .raised e) :
    e = .incompleteTable ∨ e = .duplicateKey ∨ e = .capacityExceeded := by
  induction n generalizing T s with
  | zero => cases h; exact .inl rfl
  | succ n ih =>
    rw [parseByteSeqFuel] at h
    split at h
    · next h1 => cases h; exact .inl (readField_raised h1)
    · split at h
      · cases h
      · split at h
        · next h1 => cases h; exact .inl (readBytesField_raised h1)
        · split at h
          · next h1 => cases h; exact .inl (readField_raised h1)
          · split at h
            · cases h; exact .inr (.inl rfl)
            · split at h
              · cases h; exact .inr (.inr rfl)
              · exact ih h

/-- ParseTable raises INCOMPLETE_TABLE, DUPLICATE_KEY or CAPACITY_EXCEEDED and nothing else
(44_table_codec.md R166 to R171). -/
theorem parseTable_raised {m : Nat} {mode : Mode} {s : Bits} {e : ErrCode}
    (h : parseTable m mode s = .raised e) :
    e = .incompleteTable ∨ e = .duplicateKey ∨ e = .capacityExceeded := by
  cases mode with
  | byteSeq => exact parseByteSeqFuel_raised h
  | numeric =>
    rw [parseTable, parseNumeric] at h
    split at h
    · next h1 => cases h; exact .inl (readField_raised h1)
    · split at h
      · next h1 => cases h; exact .inl (readField_raised h1)
      · split at h
        · next h1 => cases h; exact .inl (readField_raised h1)
        · split at h
          · cases h; exact .inr (.inr rfl)
          · rcases parseNumericRecords_raised h with h | h <;> simp [h]

end Sys2Proof.Machine
end

