-- ==== Sys2Proof/Laws/Parser.lean ====
section
/-! SUPPORT. What the parser and the analyzer can answer: a table the block can hold
(spec/44_table_codec.md R168 to R171; spec/10_state.md R30), and bits left over that were there. -/

namespace Sys2Proof.Machine

/-- The record loop of the numeric parse answers distinct numeric keys and frequencies that fit their
fields. -/
theorem parseNumericRecords_done {k f cnt : Nat} {acc T : Table} {s rest : Bits}
    (h : parseNumericRecords k f cnt acc s = .done (T, rest))
    (hn : (acc.map (·.key)).Nodup)
    (ha : ∀ e ∈ acc, (∃ v, e.key = .num v ∧ v < 2 ^ k) ∧ e.freq < 2 ^ f) :
    (T.map (·.key)).Nodup ∧ T.length = acc.length + cnt ∧ rest.length ≤ s.length ∧
      ∀ e ∈ T, (∃ v, e.key = .num v ∧ v < 2 ^ k) ∧ e.freq < 2 ^ f := by
  induction cnt generalizing acc s with
  | zero => cases h; exact ⟨hn, rfl, le_rfl, ha⟩
  | succ cnt ih =>
    rw [parseNumericRecords] at h
    split at h
    · cases h
    · next key s1 hk =>
      split at h
      · cases h
      · next freq s2 hf =>
        split at h
        · cases h
        · next hno =>
          obtain ⟨rfl, hkey⟩ := readField_done hk
          obtain ⟨rfl, hfreq⟩ := readField_done hf
          have hno' : Symbol.num key ∉ acc.map (·.key) := by
            rw [← hasKey_eq_false]; simpa using hno
          obtain ⟨h1, h2, h3, h4⟩ := ih h
            (by
              rw [List.map_append, List.nodup_append]
              refine ⟨hn, by simp, ?_⟩
              intro a ha' b hb
              simp at hb
              subst hb
              rintro rfl
              exact hno' ha')
            (by
              intro e he
              rcases List.mem_append.mp he with he | he
              · exact ha e he
              · simp at he; subst he; exact ⟨⟨key, rfl, hkey⟩, hfreq⟩)
          refine ⟨h1, ?_, ?_, h4⟩
          · simp at h2; omega
          · simp; omega

/-- A numeric parse answers a table the block can hold. -/
theorem parseNumeric_done {nMax : Nat} {s rest : Bits} {T : Table}
    (h : parseNumeric nMax s = .done (T, rest)) :
    TableOk nMax .numeric T ∧ rest.length ≤ s.length := by
  unfold parseNumeric at h
  split at h
  · cases h
  · next cnt s1 h1 =>
    split at h
    · cases h
    · next f s2 h2 =>
      split at h
      · cases h
      · next k s3 h3 =>
        split at h
        · cases h
        · next hroom =>
          obtain ⟨rfl, hcnt⟩ := readField_done h1
          obtain ⟨rfl, hf⟩ := readField_done h2
          obtain ⟨rfl, hk⟩ := readField_done h3
          obtain ⟨hn, hl, hr, he⟩ := parseNumericRecords_done h (by simp) (by simp)
          have up : ∀ {x w : Nat}, x < 2 ^ w → w < 2 ^ 6 → x < 2 ^ 63 := fun hx hw =>
            lt_of_lt_of_le hx (Nat.pow_le_pow_right (by omega) (by omega))
          refine ⟨⟨by simp at hl; omega, hn, ?_, ?_, by simp⟩, by simp; omega⟩
          · intro e hmem
            obtain ⟨⟨v, hv, hlt⟩, _⟩ := he e hmem
            simpa [hv, Symbol.okFor] using up hlt hk
          · intro e hmem
            exact up (he e hmem).2 hf

/-- A byte-sequence parse answers a table the block can hold. -/
theorem parseByteSeqFuel_done {nMax fuel : Nat} {acc T : Table} {s rest : Bits}
    (h : parseByteSeqFuel nMax fuel acc s = .done (T, rest))
    (hn : (acc.map (·.key)).Nodup) (hl : acc.length ≤ nMax)
    (ha : ∀ e ∈ acc, e.key.okFor .byteSeq = true ∧ e.freq < 2 ^ 32) :
    (T.map (·.key)).Nodup ∧ T.length ≤ nMax ∧ rest.length ≤ s.length ∧
      ∀ e ∈ T, e.key.okFor .byteSeq = true ∧ e.freq < 2 ^ 32 := by
  induction fuel generalizing acc s with
  | zero => cases h
  | succ fuel ih =>
    rw [parseByteSeqFuel] at h
    split at h
    · cases h
    · next l s1 h1 =>
      obtain ⟨rfl, hlen⟩ := readField_done h1
      split at h
      · cases h
        exact ⟨hn, hl, by simp, ha⟩
      · next hl0 =>
        split at h
        · cases h
        · next key s2 h2 =>
          obtain ⟨rfl, hkl⟩ := readBytesField_done h2
          split at h
          · cases h
          · next freq s3 h3 =>
            obtain ⟨rfl, hfreq⟩ := readField_done h3
            split at h
            · cases h
            · next hno =>
              split at h
              · cases h
              · next hroom =>
                have hno' : Symbol.octets key ∉ acc.map (·.key) := by
                  rw [← hasKey_eq_false]; simpa using hno
                obtain ⟨g1, g2, g3, g4⟩ := ih h
                  (by
                    rw [List.map_append, List.nodup_append]
                    refine ⟨hn, by simp, ?_⟩
                    intro a ha' b hb
                    simp at hb
                    subst hb
                    rintro rfl
                    exact hno' ha')
                  (by simp; omega)
                  (by
                    intro e he
                    rcases List.mem_append.mp he with he | he
                    · exact ha e he
                    · simp at he
                      subst he
                      exact ⟨by simp [Symbol.okFor]; omega, hfreq⟩)
                exact ⟨g1, g2, by simp; omega, g4⟩

/-- A parse answers a table the block can hold, and no more bits than there were. -/
theorem parseTable_done {nMax : Nat} {mode : Mode} {s rest : Bits} {T : Table}
    (h : parseTable nMax mode s = .done (T, rest)) :
    TableOk nMax mode T ∧ rest.length ≤ s.length := by
  cases mode with
  | numeric => exact parseNumeric_done h
  | byteSeq =>
    obtain ⟨h1, h2, h3, h4⟩ := parseByteSeqFuel_done (acc := []) h (by simp) (by simp) (by simp)
    exact ⟨⟨h2, h1, fun e he => (h4 e he).1,
      fun e he => lt_trans (h4 e he).2 (by norm_num), fun _ e he => (h4 e he).2⟩, h3⟩

/-- A tally of symbols of the mode is a table the block can hold. -/
theorem tally_ok {nMax : Nat} {mode : Mode} {ks : List Symbol} (hl : (tally ks).length ≤ nMax)
    (hk : ∀ k ∈ ks, k.okFor mode = true) (hn : ks.length < 2 ^ 32) : TableOk nMax mode (tally ks) := by
  have hf : ∀ e ∈ tally ks, e.freq < 2 ^ 32 := by
    intro e he
    obtain ⟨k, _, rfl⟩ := List.mem_map.mp he
    exact lt_of_le_of_lt (count_le_length ks k) hn
  refine ⟨hl, by simpa using nodup_eraseDups ks, ?_, fun e he => lt_trans (hf e he) (by norm_num),
    fun _ => hf⟩
  intro e he
  obtain ⟨k, hk', rfl⟩ := List.mem_map.mp he
  exact hk k (List.mem_eraseDups.mp hk')

/-- What the analyzer answers when it ends well (41_frequency_analyzer.md R104). -/
theorem analyzeSource_done {nMax : Nat} {mode : Mode} {src : List Byte} {T : Table} {n : Nat}
    (h : analyzeSource nMax mode src = .done (T, n)) :
    src ≠ [] ∧ (symbolStream mode src).fail = none ∧ T = tally (symbolStream mode src).syms ∧
      n = (symbolStream mode src).syms.length ∧ T.length ≤ nMax := by
  unfold analyzeSource at h
  split at h
  · cases h
  · next hne =>
    simp only at h
    split at h
    · cases h
    · next T' hc =>
      split at h
      · cases h
      · next hf =>
        cases h
        obtain ⟨rfl, hl⟩ := countSymbols_done hc
        exact ⟨hne, hf, rfl, rfl, hl⟩

end Sys2Proof.Machine
end

