-- ==== Sys2Proof/Laws/Inv.lean ====
section
/-! SUPPORT. The invariant, update by update: what ends a command, raises an error or stores a result
keeps it (spec/10_state.md R38). -/

namespace Sys2Proof.Machine

theorem finish_inv {s : State} (h : Inv s) (e : ErrCode) : Inv (s.finish e) :=
  ⟨h.cfgOk, h.bufCanonical, h.bufInside, h.tableOk, h.treeOfTable, h.codesOfTree, h.payloadOk,
    fun hb => nomatch hb⟩

/-- FT_MODE is sampled and the table of the old mode goes: the invariant is kept. -/
theorem analyze_raise_inv {s : State} (h : Inv s) (e : ErrCode) :
    Inv (s.sampleMode.raise .analyze e) :=
  ⟨h.cfgOk, h.bufCanonical, h.bufInside, fun _ ht => (nomatch ht), .inl rfl, .inl rfl,
    fun _ hp => (nomatch hp), fun hb => nomatch hb⟩

theorem unpack_raise_inv {s : State} (h : Inv s) (e : ErrCode) :
    Inv (s.sampleMode.raise .unpack e) :=
  ⟨h.cfgOk, h.bufCanonical, h.bufInside, fun _ ht => (nomatch ht), .inl rfl, .inl rfl,
    fun _ hp => (nomatch hp), fun hb => nomatch hb⟩

theorem buildTree_raise_inv {s : State} (h : Inv s) (e : ErrCode) : Inv (s.raise .buildTree e) :=
  ⟨h.cfgOk, h.bufCanonical, h.bufInside, h.tableOk, .inl rfl, .inl rfl, h.payloadOk,
    fun hb => nomatch hb⟩

theorem encode_raise_inv {s : State} (h : Inv s) (e : ErrCode) : Inv (s.raise .encode e) :=
  ⟨h.cfgOk, h.bufCanonical, h.bufInside, h.tableOk, h.treeOfTable, h.codesOfTree,
    fun _ hp => (nomatch hp), fun hb => nomatch hb⟩

/-- Writing a valid destination region keeps BUF canonical and inside its bounds. -/
theorem writeDest_buf {s : State} (h : Inv s) (hv : s.dstValid) {bs : List Byte}
    (hl : bs.length ≤ s.latch.args.dstCap.toNat) :
    (s.buf.writeBytes s.latch.args.dstBase.toNat bs).wf ∧
      (s.buf.writeBytes s.latch.args.dstBase.toNat bs).below s.cfg.bufBytes :=
  ⟨Memory.writeBytes_wf h.bufCanonical _ _, Memory.writeBytes_below h.bufInside (by omega)⟩

theorem pack_raise_inv {s : State} (h : Inv s) (hv : s.dstValid) (e : ErrCode) :
    Inv (s.raise .pack e) := by
  have hb := writeDest_buf h hv (bs := drawBytes s.draws s.latch.args.dstCap.toNat) (by simp)
  exact ⟨h.cfgOk, hb.1, hb.2, h.tableOk, h.treeOfTable, h.codesOfTree, h.payloadOk,
    fun hb => nomatch hb⟩

theorem decode_raise_inv {s : State} (h : Inv s) (hv : s.dstValid) (e : ErrCode) :
    Inv (s.raise .decode e) := by
  have hb := writeDest_buf h hv (bs := drawBytes s.draws s.latch.args.dstCap.toNat) (by simp)
  exact ⟨h.cfgOk, hb.1, hb.2, h.tableOk, h.treeOfTable, h.codesOfTree, h.payloadOk,
    fun hb => nomatch hb⟩

/-- A valid source region read whole is as long as it says, and shorter than 2³² bytes. -/
theorem srcBytes_length {s : State} {src : List Byte} (h : s.srcBytes = some src) :
    src.length = s.latch.args.srcLen.toNat :=
  Memory.readBytes_length h

theorem analyze_store_inv {s : State} (h : Inv s) {src : List Byte} (hs : s.srcBytes = some src)
    {T : Table} {n : Nat} (ha : analyzeSource s.cfg.nMax s.latch.mode src = .done (T, n))
    (e : ErrCode) : Inv ((s.sampleMode.storeAnalysis T n).finish e) := by
  obtain ⟨_, _, rfl, _, hl⟩ := analyzeSource_done ha
  have hlen : (symbolStream s.latch.mode src).syms.length < 2 ^ 32 := by
    refine lt_of_le_of_lt (symbolStream_length_le _ _) ?_
    rw [srcBytes_length hs]
    exact s.latch.args.srcLen.isLt
  exact ⟨h.cfgOk, h.bufCanonical, h.bufInside,
    fun t ht => by cases ht; exact tally_ok hl (symbolStream_okFor _ _) hlen,
    .inl rfl, .inl rfl, fun _ hp => (nomatch hp), fun hb => nomatch hb⟩

theorem storeTree_inv {s : State} (h : Inv s) {T : Table} {r : HuffTree} (hT : s.ft = some T)
    (hr : buildTree T = some r) (e : ErrCode) : Inv ((s.storeTree r).finish e) :=
  ⟨h.cfgOk, h.bufCanonical, h.bufInside, h.tableOk, .inr (by simp [hT, hr]), .inl rfl, h.payloadOk,
    fun hb => nomatch hb⟩

theorem storeCodes_inv {s : State} (h : Inv s) {r : HuffTree} (hr : s.tree = some r) (e : ErrCode) :
    Inv ((s.storeCodes (genCodes r)).finish e) :=
  ⟨h.cfgOk, h.bufCanonical, h.bufInside, h.tableOk, h.treeOfTable, .inr (by simp [hr]), h.payloadOk,
    fun hb => nomatch hb⟩

theorem storePayload_inv {s : State} (h : Inv s) {T : Table} (hT : s.ft = some T) {p : Bits}
    (hp : p.length ≤ s.cfg.pbufBits) (n : Nat) (e : ErrCode) :
    Inv ((s.storePayload p n).finish e) :=
  ⟨h.cfgOk, h.bufCanonical, h.bufInside, h.tableOk, h.treeOfTable, h.codesOfTree,
    fun q hq => by cases hq; exact ⟨by simp [hT], hp⟩, fun hb => nomatch hb⟩

theorem storeUnpacked_inv {s : State} (h : Inv s) {T : Table} (hT : TableOk s.cfg.nMax s.latch.mode T)
    {p : Bits} (hp : p.length ≤ s.cfg.pbufBits) (off : Nat) (e : ErrCode) :
    Inv ((s.sampleMode.storeUnpacked T p off).finish e) :=
  ⟨h.cfgOk, h.bufCanonical, h.bufInside, fun t ht => by cases ht; exact hT, .inl rfl, .inl rfl,
    fun q hq => by cases hq; exact ⟨rfl, hp⟩, fun hb => nomatch hb⟩

theorem storeFrame_inv {s : State} (h : Inv s) (hv : s.dstValid) {bs : List Byte}
    (hl : bs.length ≤ s.latch.args.dstCap.toNat) (e : ErrCode) : Inv ((s.storeFrame bs).finish e) := by
  have hb := writeDest_buf h hv hl
  exact ⟨h.cfgOk, hb.1, hb.2, h.tableOk, h.treeOfTable, h.codesOfTree, h.payloadOk,
    fun hb => nomatch hb⟩

theorem storeDecoded_inv {s : State} (h : Inv s) (hv : s.dstValid) {d : Emitted}
    (hl : d.out.length ≤ s.latch.args.dstCap.toNat) (e : ErrCode) :
    Inv ((s.storeDecoded d).finish e) := by
  have hb := writeDest_buf h hv hl
  exact ⟨h.cfgOk, hb.1, hb.2, h.tableOk, h.treeOfTable, h.codesOfTree, h.payloadOk,
    fun hb => nomatch hb⟩

end Sys2Proof.Machine
end

