-- ==== Sys2Proof/Laws/Tree.lean ====
section
/-! SUPPORT. The laws of the Huffman tree: what an insertion and a merge keep
(spec/42_tree_builder.md R120 to R127), the paths of the leaves (spec/43_code_generator.md R140, R143,
R144), the code ROM they give (R141), and the walk of a path (spec/46_bitstream_unpacker.md R213). -/

namespace Sys2Proof.Machine

/-! ### Insertion -/

theorem insertNode_perm (x : HuffTree) (q : List HuffTree) : (insertNode x q).Perm (x :: q) := by
  induction q with
  | nil => exact List.Perm.refl _
  | cons y q ih =>
    unfold insertNode
    split
    · exact List.Perm.refl _
    · exact (ih.cons y).trans (List.Perm.swap x y q)

@[simp] theorem insertNode_length (x : HuffTree) (q : List HuffTree) :
    (insertNode x q).length = q.length + 1 := by
  simpa using (insertNode_perm x q).length_eq

theorem mem_insertNode {x y : HuffTree} {q : List HuffTree} :
    y ∈ insertNode x q ↔ y = x ∨ y ∈ q := by
  simpa using (insertNode_perm x q).mem_iff (a := y)

@[simp] theorem insertLeaves_length (i : Nat) (t : Table) (q : List HuffTree) :
    (insertLeaves i t q).length = t.length + q.length := by
  induction t generalizing i q with
  | nil => simp [insertLeaves]
  | cons e t ih => simp [insertLeaves, ih]; omega

/-! ### The merge loop -/

/-- One node is left when the merge loop ends. -/
theorem mergeNodes_length {fuel k : Nat} {q : List HuffTree} (hq : q ≠ []) (h : q.length ≤ fuel + 1) :
    (mergeNodes fuel k q).length = 1 := by
  induction fuel generalizing k q with
  | zero =>
    match q, hq, h with
    | [a], _, _ => rfl
  | succ fuel ih =>
    match q, hq, h with
    | [a], _, _ => rfl
    | a :: b :: q, _, h =>
      rw [mergeNodes]
      exact ih (by rw [← List.length_pos_iff]; simp) (by simp at h ⊢; omega)

/-- What holds of every node of Q and of a merge of two such nodes holds of every node the merge loop
leaves. -/
theorem mergeNodes_forall {P : HuffTree → Prop}
    (hP : ∀ k a b, P a → P b → P (.internal k (a.freq + b.freq) a b)) {fuel k : Nat}
    {q : List HuffTree} (h : ∀ x ∈ q, P x) : ∀ x ∈ mergeNodes fuel k q, P x := by
  induction fuel generalizing k q with
  | zero => exact h
  | succ fuel ih =>
    match q, h with
    | [], h => exact h
    | [a], h => exact h
    | a :: b :: q, h =>
      rw [mergeNodes]
      refine ih ?_
      intro x hx
      rcases mem_insertNode.mp hx with rfl | hx
      · exact hP k a b (h a (by simp)) (h b (by simp))
      · exact h x (by simp [hx])

/-- The merge loop keeps the leaves. -/
theorem mergeNodes_leaves {fuel k : Nat} {q : List HuffTree} :
    ((mergeNodes fuel k q).flatMap HuffTree.leaves).Perm (q.flatMap HuffTree.leaves) := by
  induction fuel generalizing k q with
  | zero => exact List.Perm.refl _
  | succ fuel ih =>
    match q with
    | [] => exact List.Perm.refl _
    | [a] => exact List.Perm.refl _
    | a :: b :: q =>
      rw [mergeNodes]
      refine ih.trans (((insertNode_perm _ q).flatMap_right _).trans ?_)
      simp [HuffTree.leaves]

/-- The leaves inserted for a table are its entries. -/
theorem insertLeaves_leaves (i : Nat) (t : Table) (q : List HuffTree) :
    ((insertLeaves i t q).flatMap HuffTree.leaves).Perm
      (q.flatMap HuffTree.leaves ++ (t.zipIdx i).map fun p => (p.2, p.1.freq)) := by
  induction t generalizing i q with
  | nil => simp [insertLeaves]
  | cons e t ih =>
    rw [insertLeaves]
    refine (ih (i + 1) _).trans ?_
    refine ((((insertNode_perm (.leaf i e.freq) q).flatMap_right _)).append_right _).trans ?_
    simp only [List.flatMap_cons, HuffTree.leaves, List.zipIdx_cons, List.map_cons]
    exact (List.perm_append_comm.append_right _).trans (by simp)

theorem insertLeaves_forall {P : HuffTree → Prop} (hP : ∀ i f, P (.leaf i f)) {i : Nat} {t : Table}
    {q : List HuffTree} (h : ∀ x ∈ q, P x) : ∀ x ∈ insertLeaves i t q, P x := by
  induction t generalizing i q with
  | nil => exact h
  | cons e t ih =>
    rw [insertLeaves]
    refine ih ?_
    intro x hx
    rcases mem_insertNode.mp hx with rfl | hx
    · exact hP _ _
    · exact h x hx

/-! ### The tree of a table -/

theorem buildTree_nil : buildTree [] = none := rfl

/-- A table with entries has a tree, and it is the one node the merge loop leaves. -/
theorem buildTree_of_ne_nil {t : Table} (h : t ≠ []) :
    ∃ r, buildTree t = some r ∧ mergeNodes t.length t.length (insertLeaves 0 t []) = [r] := by
  have hlen : (mergeNodes t.length t.length (insertLeaves 0 t [])).length = 1 := by
    apply mergeNodes_length
    · rw [← List.length_pos_iff, insertLeaves_length]
      have := List.length_pos_iff.mpr h
      omega
    · simp
  obtain ⟨r, hr⟩ := List.length_eq_one_iff.mp hlen
  exact ⟨r, by simp [buildTree, hr], hr⟩

theorem ne_nil_of_buildTree {t : Table} {r : HuffTree} (h : buildTree t = some r) : t ≠ [] := by
  rintro rfl
  simp [buildTree_nil] at h

/-- What a merge keeps holds of the tree of a table. -/
theorem buildTree_forall {P : HuffTree → Prop} (hl : ∀ i f, P (.leaf i f))
    (hP : ∀ k a b, P a → P b → P (.internal k (a.freq + b.freq) a b)) {t : Table} {r : HuffTree}
    (h : buildTree t = some r) : P r := by
  obtain ⟨r', hr, hm⟩ := buildTree_of_ne_nil (ne_nil_of_buildTree h)
  obtain rfl : r' = r := by rw [h] at hr; exact (Option.some.inj hr).symm
  refine mergeNodes_forall hP (fuel := t.length) (k := t.length) (q := insertLeaves 0 t [])
    (insertLeaves_forall hl (by simp)) r' ?_
  rw [hm]
  simp

/-- The tree of a table has one leaf for each entry. -/
theorem buildTree_leaves {t : Table} {r : HuffTree} (h : buildTree t = some r) :
    r.leaves.Perm (t.zipIdx.map fun p => (p.2, p.1.freq)) := by
  obtain ⟨r', hr, hm⟩ := buildTree_of_ne_nil (ne_nil_of_buildTree h)
  obtain rfl : r' = r := by rw [h] at hr; exact (Option.some.inj hr).symm
  have h1 := mergeNodes_leaves (fuel := t.length) (k := t.length) (q := insertLeaves 0 t [])
  rw [hm] at h1
  have h2 := h1.trans (insertLeaves_leaves 0 t [])
  simpa using h2

theorem buildTree_freqsAdd {t : Table} {r : HuffTree} (h : buildTree t = some r) : r.freqsAdd :=
  buildTree_forall (fun _ _ => trivial) (fun _ _ _ ha hb => ⟨rfl, ha, hb⟩) h

/-- A node's frequency is the sum of its leaves' frequencies. -/
theorem freq_eq_sum {r : HuffTree} (h : r.freqsAdd) : r.freq = (r.leaves.map Prod.snd).sum := by
  induction r with
  | leaf s f => simp [HuffTree.freq, HuffTree.leaves]
  | internal k f a b iha ihb =>
    obtain ⟨hf, ha, hb⟩ := h
    rw [HuffTree.freq, hf, iha ha, ihb hb]
    simp [HuffTree.leaves]

theorem buildTree_leaves_length {t : Table} {r : HuffTree} (h : buildTree t = some r) :
    r.leaves.length = t.length := by
  simpa using (buildTree_leaves h).length_eq

/-- The table indices at the leaves are those of the table. -/
theorem buildTree_syms {t : Table} {r : HuffTree} (h : buildTree t = some r) :
    (r.leaves.map Prod.fst).Perm (List.range t.length) := by
  have := (buildTree_leaves h).map Prod.fst
  simpa [List.map_map, Function.comp_def, List.zipIdx_map_snd, List.range_eq_range'] using this

/-! ### Paths and codes -/

theorem paths_syms (c : Bits) (r : HuffTree) : (r.paths c).map Prod.fst = r.leaves.map Prod.fst := by
  induction r generalizing c with
  | leaf s f => rfl
  | internal k f a b iha ihb => simp [HuffTree.paths, HuffTree.leaves, iha, ihb]

/-- Every path goes on from the path that reached the root. -/
theorem prefix_of_mem_paths {c : Bits} {r : HuffTree} {p : Nat × Bits} (h : p ∈ r.paths c) :
    c <+: p.2 := by
  induction r generalizing c with
  | leaf s f => simp [HuffTree.paths] at h; subst h; exact List.prefix_refl _
  | internal k f a b iha ihb =>
    simp only [HuffTree.paths, List.mem_append] at h
    rcases h with h | h
    · exact (List.prefix_append c [false]).trans (iha h)
    · exact (List.prefix_append c [true]).trans (ihb h)

/-- Two sequences that go on differently from one start are not prefixes of each other. -/
theorem not_prefix_of_branch {c p q : Bits} {x y : Bool} (hxy : x ≠ y) (hp : c ++ [x] <+: p)
    (hq : c ++ [y] <+: q) : ¬ p <+: q := by
  intro hpq
  have h1 := hp.trans hpq
  have := List.prefix_of_prefix_length_le h1 hq (by simp)
  have heq := this.eq_of_length (by simp)
  simp at heq
  exact hxy heq

/-- The paths of a tree are prefix-free (43_code_generator.md R143). -/
theorem paths_prefixFree (c : Bits) (r : HuffTree) :
    (r.paths c).Pairwise fun p q => ¬ p.2 <+: q.2 ∧ ¬ q.2 <+: p.2 := by
  induction r generalizing c with
  | leaf s f => simp [HuffTree.paths]
  | internal k f a b iha ihb =>
    rw [HuffTree.paths, List.pairwise_append]
    refine ⟨iha _, ihb _, ?_⟩
    intro p hp q hq
    have hp' := prefix_of_mem_paths hp
    have hq' := prefix_of_mem_paths hq
    exact ⟨not_prefix_of_branch (by simp) hp' hq', not_prefix_of_branch (by simp) hq' hp'⟩

theorem leaves_length_pos (r : HuffTree) : 0 < r.leaves.length := by
  induction r with
  | leaf s f => simp [HuffTree.leaves]
  | internal k f a b iha ihb => simp [HuffTree.leaves]; omega

/-- A path is no longer than there are other leaves (43_code_generator.md R144). -/
theorem paths_length_le {c : Bits} {r : HuffTree} {p : Nat × Bits} (h : p ∈ r.paths c) :
    p.2.length + 1 ≤ c.length + r.leaves.length := by
  induction r generalizing c with
  | leaf s f => simp [HuffTree.paths] at h; subst h; simp [HuffTree.leaves]
  | internal k f a b iha ihb =>
    simp only [HuffTree.paths, List.mem_append] at h
    have ha := leaves_length_pos a
    have hb := leaves_length_pos b
    simp only [HuffTree.leaves, List.length_append]
    rcases h with h | h
    · have := iha h; simp at this; omega
    · have := ihb h; simp at this; omega

theorem codes_syms (r : HuffTree) : r.codes.map Prod.fst = r.leaves.map Prod.fst := by
  cases r with
  | leaf s f => rfl
  | internal k f a b => exact paths_syms [] _

@[simp] theorem codes_length (r : HuffTree) : r.codes.length = r.leaves.length := by
  simpa using congrArg List.length (codes_syms r)

/-- A code has at least one bit, and at most one less than there are leaves, or one
(43_code_generator.md R144). -/
theorem codes_length_bounds {r : HuffTree} {p : Nat × Bits} (h : p ∈ r.codes) :
    1 ≤ p.2.length ∧ p.2.length ≤ max 1 (r.leaves.length - 1) := by
  cases r with
  | leaf s f => simp [HuffTree.codes] at h; subst h; simp
  | internal k f a b =>
    have h' : p ∈ HuffTree.paths [] (.internal k f a b) := h
    have hle := paths_length_le h'
    simp only [HuffTree.paths, List.mem_append] at h'
    have : 1 ≤ p.2.length := by
      rcases h' with h' | h'
      · simpa using (prefix_of_mem_paths h').length_le
      · simpa using (prefix_of_mem_paths h').length_le
    simp at hle
    omega

/-- The codes of a tree are prefix-free (43_code_generator.md R143). -/
theorem codes_prefixFree (r : HuffTree) :
    r.codes.Pairwise fun p q => ¬ p.2 <+: q.2 ∧ ¬ q.2 <+: p.2 := by
  cases r with
  | leaf s f => simp [HuffTree.codes]
  | internal k f a b => exact paths_prefixFree [] _

/-! ### The code ROM -/

theorem foldl_set_length (cs : List (Nat × Bits)) (rom : CodeRom) :
    (cs.foldl (fun rom c => rom.set c.1 c.2) rom).length = rom.length := by
  induction cs generalizing rom with
  | nil => rfl
  | cons c cs ih => simp [ih]

/-- Indices no code is written at keep their entry. -/
theorem foldl_set_other {cs : List (Nat × Bits)} {rom : CodeRom} {i : Nat}
    (h : i ∉ cs.map Prod.fst) :
    (cs.foldl (fun rom c => rom.set c.1 c.2) rom)[i]? = rom[i]? := by
  induction cs generalizing rom with
  | nil => rfl
  | cons c cs ih =>
    simp only [List.map_cons, List.mem_cons, not_or] at h
    rw [List.foldl_cons, ih h.2, List.getElem?_set_ne (Ne.symm h.1)]

/-- Each code stands at its table index. -/
theorem foldl_set_mem {cs : List (Nat × Bits)} {rom : CodeRom} (hn : (cs.map Prod.fst).Nodup)
    {c : Nat × Bits} (hc : c ∈ cs) (hlt : c.1 < rom.length) :
    (cs.foldl (fun rom c => rom.set c.1 c.2) rom)[c.1]? = some c.2 := by
  induction cs generalizing rom with
  | nil => simp at hc
  | cons d cs ih =>
    simp only [List.map_cons, List.nodup_cons] at hn
    rw [List.foldl_cons]
    rcases List.mem_cons.mp hc with rfl | hc
    · rw [foldl_set_other hn.1]
      simp [hlt]
    · exact ih hn.2 hc (by simpa using hlt)

theorem genCodes_length {t : Table} {r : HuffTree} (h : buildTree t = some r) :
    (genCodes r).length = t.length := by
  rw [genCodes, foldl_set_length, List.length_replicate, codes_length, buildTree_leaves_length h]

/-- The ROM holds at each leaf's table index that leaf's code (43_code_generator.md R140, R141). -/
theorem genCodes_mem {t : Table} {r : HuffTree} (h : buildTree t = some r) {c : Nat × Bits}
    (hc : c ∈ r.codes) : (genCodes r)[c.1]? = some c.2 := by
  have hsyms := buildTree_syms h
  rw [← codes_syms] at hsyms
  refine foldl_set_mem (hsyms.nodup_iff.mpr List.nodup_range) hc ?_
  rw [List.length_replicate, codes_length, buildTree_leaves_length h]
  exact List.mem_range.mp (hsyms.mem_iff.mp (List.mem_map_of_mem hc))

/-- Every table index has a leaf, and its code is the one in the ROM. -/
theorem exists_code {t : Table} {r : HuffTree} (h : buildTree t = some r) {i : Nat}
    (hi : i < t.length) : ∃ p, (i, p) ∈ r.codes ∧ codeAt (genCodes r) i = p := by
  have hsyms := buildTree_syms h
  rw [← codes_syms] at hsyms
  obtain ⟨c, hc, rfl⟩ := List.mem_map.mp (hsyms.mem_iff.mpr (List.mem_range.mpr hi))
  refine ⟨c.2, hc, ?_⟩
  simp [codeAt, List.getD_eq_getElem?_getD, genCodes_mem h hc]

/-- Going down the branches of a leaf's path leads to the leaf, and no shorter start of the path reaches
one (43_code_generator.md R140). -/
theorem paths_child {c p : Bits} {r : HuffTree} {i : Nat} (h : (i, c ++ p) ∈ r.paths c) :
    (∃ f, p.foldl HuffTree.child r = .leaf i f) ∧
      ∀ q, q <+: p → q ≠ p → ∃ k f a b, q.foldl HuffTree.child r = .internal k f a b := by
  induction r generalizing c p with
  | leaf s f =>
    simp [HuffTree.paths] at h
    obtain ⟨rfl, rfl⟩ := h
    exact ⟨⟨f, rfl⟩, fun q hq hne => absurd (List.prefix_nil.mp hq) hne⟩
  | internal k f a b iha ihb =>
    simp only [HuffTree.paths, List.mem_append] at h
    have branch : ∀ (y : Bool) (z : HuffTree), (HuffTree.internal k f a b).child y = z →
        (∀ {c p : Bits}, (i, c ++ p) ∈ z.paths c →
          (∃ f, p.foldl HuffTree.child z = .leaf i f) ∧
            ∀ q, q <+: p → q ≠ p → ∃ k f a b, q.foldl HuffTree.child z = .internal k f a b) →
        (i, c ++ p) ∈ z.paths (c ++ [y]) →
        (∃ f', p.foldl HuffTree.child (.internal k f a b) = .leaf i f') ∧
          ∀ q, q <+: p → q ≠ p →
            ∃ k' f' a' b', q.foldl HuffTree.child (.internal k f a b) = .internal k' f' a' b' := by
      intro y z hz ih hm
      obtain ⟨p', rfl⟩ : ∃ p', p = y :: p' := by
        obtain ⟨w, hw⟩ := prefix_of_mem_paths hm
        simp only [List.append_assoc, List.singleton_append, List.append_cancel_left_eq] at hw
        exact ⟨w, hw.symm⟩
      obtain ⟨h1, h2⟩ := ih (c := c ++ [y]) (p := p') (by simpa using hm)
      refine ⟨by simpa [hz] using h1, ?_⟩
      intro q hq hne
      cases q with
      | nil => exact ⟨_, _, _, _, rfl⟩
      | cons x q =>
        obtain ⟨rfl, hq'⟩ := List.cons_prefix_cons.mp hq
        simpa [hz] using h2 q hq' (by simpa using hne)
    rcases h with h | h
    · exact branch false a rfl iha h
    · exact branch true b rfl ihb h

/-! ### The walk -/

/-- Walking a leaf's path from a node above it emits that leaf's symbol and returns to the root
(46_bitstream_unpacker.md R213). -/
theorem walkTree_path {mode : Mode} {t : Table} {cap : Nat} {root : HuffTree} {k f : Nat}
    {a b : HuffTree} {sym : Nat} {c p : Bits} (bs : Bits) (d : Emitted)
    (h : (sym, c ++ p) ∈ HuffTree.paths c (.internal k f a b)) :
    walkTree mode t cap root (.internal k f a b) (p ++ bs) d =
      match emit cap (recordAt mode t sym) d with
      | .raised e => .raised e
      | .done d' => walkTree mode t cap root root bs d' := by
  have key : ∀ (x : HuffTree) (k f : Nat) (a b : HuffTree) (c p : Bits), x = .internal k f a b →
      (sym, c ++ p) ∈ HuffTree.paths c (.internal k f a b) →
      walkTree mode t cap root (.internal k f a b) (p ++ bs) d =
        match emit cap (recordAt mode t sym) d with
        | .raised e => .raised e
        | .done d' => walkTree mode t cap root root bs d' := by
    intro x
    induction x with
    | leaf s f => intro _ _ _ _ _ _ h; cases h
    | internal k' f' a' b' iha ihb =>
      intro k f a b c p hx hmem
      cases hx
      simp only [HuffTree.paths, List.mem_append] at hmem
      have branch : ∀ (y : Bool) (z : HuffTree),
          (∀ (k f : Nat) (a b : HuffTree) (c p : Bits), z = .internal k f a b →
            (sym, c ++ p) ∈ HuffTree.paths c (.internal k f a b) →
            walkTree mode t cap root (.internal k f a b) (p ++ bs) d =
              match emit cap (recordAt mode t sym) d with
              | .raised e => .raised e
              | .done d' => walkTree mode t cap root root bs d') →
          (HuffTree.internal k' f' a' b').child y = z → (sym, c ++ p) ∈ z.paths (c ++ [y]) →
          walkTree mode t cap root (.internal k' f' a' b') (p ++ bs) d =
            match emit cap (recordAt mode t sym) d with
            | .raised e => .raised e
            | .done d' => walkTree mode t cap root root bs d' := by
        intro y z ih hz hm
        have hpre := prefix_of_mem_paths hm
        obtain ⟨p', rfl⟩ : ∃ p', p = y :: p' := by
          obtain ⟨w, hw⟩ := hpre
          simp at hw
          exact ⟨w, hw.symm⟩
        rw [List.cons_append, walkTree, hz]
        cases z with
        | leaf s g =>
          simp only [HuffTree.paths, List.mem_singleton, Prod.mk.injEq] at hm
          obtain ⟨rfl, hp⟩ := hm
          have : p' = [] := by simpa using hp
          subst this
          rfl
        | internal k1 f1 a1 b1 =>
          exact ih k1 f1 a1 b1 (c ++ [y]) p' rfl (by simpa using hm)
      rcases hmem with hm | hm
      · exact branch false a' iha rfl hm
      · exact branch true b' ihb rfl hm
  exact key _ k f a b c p rfl h

end Sys2Proof.Machine
end

