-- ==== Sys2Proof/Laws/Numbering.lean ====
section
/-! SUPPORT. The laws of the canonical numbering (spec/42_tree_builder.md R122): which node numbers an
insertion and a merge bring into Q. -/

namespace Sys2Proof.Machine

/-- An insertion adds the inserted node's pool to the pools of Q. -/
theorem insertNode_nodes (x : HuffTree) (q : List HuffTree) :
    ((insertNode x q).flatMap HuffTree.nodes).Perm (x.nodes ++ q.flatMap HuffTree.nodes) := by
  simpa using (insertNode_perm x q).flatMap_right HuffTree.nodes

/-- The leaves of a table take the numbers from the first table index on. -/
theorem insertLeaves_numbers (i : Nat) (t : Table) (q : List HuffTree) :
    (((insertLeaves i t q).flatMap HuffTree.nodes).map Prod.fst).Perm
      ((q.flatMap HuffTree.nodes).map Prod.fst ++ List.range' i t.length) := by
  induction t generalizing i q with
  | nil => simp [insertLeaves]
  | cons e t ih =>
    rw [insertLeaves]
    refine (ih (i + 1) _).trans ?_
    refine (((insertNode_nodes (.leaf i e.freq) q).map Prod.fst).append_right _).trans ?_
    simp only [HuffTree.nodes, List.map_append, List.map_cons, List.map_nil, List.length_cons,
      List.range'_succ]
    exact (List.perm_append_comm.append_right _).trans (by simp)

/-- The merges take the numbers from `k` on, one for each node that Q loses. -/
theorem mergeNodes_numbers (fuel k : Nat) (q : List HuffTree) :
    ∃ n, (((mergeNodes fuel k q).flatMap HuffTree.nodes).map Prod.fst).Perm
        ((q.flatMap HuffTree.nodes).map Prod.fst ++ List.range' k n) ∧
      n + (mergeNodes fuel k q).length = q.length := by
  induction fuel generalizing k q with
  | zero => exact ⟨0, by simp [mergeNodes], by simp [mergeNodes]⟩
  | succ fuel ih =>
    match q with
    | [] => exact ⟨0, by simp [mergeNodes], by simp [mergeNodes]⟩
    | [a] => exact ⟨0, by simp [mergeNodes], by simp [mergeNodes]⟩
    | a :: b :: q =>
      rw [mergeNodes]
      obtain ⟨n, h1, h2⟩ := ih (k + 1) (insertNode (.internal k (a.freq + b.freq) a b) q)
      refine ⟨n + 1, h1.trans ?_, by simp at h2 ⊢; omega⟩
      refine (((insertNode_nodes _ q).map Prod.fst).append_right _).trans ?_
      simp only [HuffTree.nodes, List.map_append, List.map_cons, List.flatMap_cons,
        List.range'_succ, List.append_assoc, List.singleton_append]
      exact List.Perm.append_left _ (List.Perm.append_left _ List.perm_middle.symm)

/-- The last merge makes the root, so it has the highest number. -/
theorem mergeNodes_root {fuel k : Nat} {q : List HuffTree} {r : HuffTree}
    (h : mergeNodes fuel k q = [r]) (hf : q.length ≤ fuel + 1) :
    q = [r] ∨ r.number + 2 = k + q.length ∧ 2 ≤ q.length := by
  induction fuel generalizing k q with
  | zero => exact .inl h
  | succ fuel ih =>
    match q with
    | [] => exact .inl h
    | [a] => exact .inl h
    | a :: b :: q =>
      rw [mergeNodes] at h
      right
      rcases ih h (by simp at hf ⊢; omega) with h1 | h1
      · cases q with
        | nil =>
          simp only [insertNode, List.cons.injEq, and_true] at h1
          subst h1
          simp [HuffTree.number]
        | cons c q => simpa using congrArg List.length h1
      · simp at h1 ⊢
        omega

/-- The node numbers of a tree: its root's is among them. -/
theorem number_mem_nodes (t : HuffTree) : t.number ∈ t.nodes.map Prod.fst := by
  cases t <;> simp [HuffTree.number, HuffTree.nodes]

@[simp] theorem Node.freq_leaf (sym f : Nat) : (Node.leaf sym f).freq = f := rfl

@[simp] theorem Node.freq_internal (l r f : Nat) : (Node.internal l r f).freq = f := rfl

/-- The root of a tree stands in its pool, with its frequency. -/
theorem exists_root_mem_nodes (t : HuffTree) : ∃ x, (t.number, x) ∈ t.nodes ∧ x.freq = t.freq := by
  cases t with
  | leaf s f => exact ⟨.leaf s f, by simp [HuffTree.number, HuffTree.nodes], rfl⟩
  | internal k f a b =>
    exact ⟨.internal a.number b.number f, by simp [HuffTree.number, HuffTree.nodes], rfl⟩

/-- A node of a tree's pool is the root or a child of an internal node of the pool. -/
theorem root_or_child_of_mem_nodes {t : HuffTree} {j : Nat} {x : Node} (h : (j, x) ∈ t.nodes) :
    j = t.number ∧ x.freq = t.freq ∨
      ∃ k l m f, (k, Node.internal l m f) ∈ t.nodes ∧ (j = l ∨ j = m) := by
  induction t with
  | leaf s f =>
    simp only [HuffTree.nodes, List.mem_singleton, Prod.mk.injEq] at h
    exact .inl ⟨h.1, by rw [h.2]; rfl⟩
  | internal k f a b iha ihb =>
    simp only [HuffTree.nodes, List.mem_append, List.mem_singleton, Prod.mk.injEq] at h ⊢
    rcases h with (h | h) | h
    · right
      rcases iha h with ⟨rfl, _⟩ | ⟨k', l, m, g, hm, hj⟩
      · exact ⟨k, _, _, f, .inr ⟨rfl, rfl⟩, .inl rfl⟩
      · exact ⟨k', l, m, g, .inl (.inl hm), hj⟩
    · right
      rcases ihb h with ⟨rfl, _⟩ | ⟨k', l, m, g, hm, hj⟩
      · exact ⟨k, _, _, f, .inr ⟨rfl, rfl⟩, .inr rfl⟩
      · exact ⟨k', l, m, g, .inl (.inr hm), hj⟩
    · exact .inl ⟨h.1, by rw [h.2]; rfl⟩

end Sys2Proof.Machine
end

