-- ==== Sys2Proof/Laws/Packer.lean ====
section
/-! SUPPORT. What ENCODE's loop and PACK's frame can be: the payload is the codes one after another
(spec/45_bitstream_packer.md R190, R191), and the frame is a whole number of bytes (R193 to R197). -/

namespace Sys2Proof.Machine

/-- A key of the table has an index, and the entry there has the key. -/
theorem indexOf_mem {T : Table} {k : Symbol} (h : k ∈ T.map (·.key)) :
    ∃ i, ∃ hi : i < T.length, indexOf T k = some i ∧ T[i].key = k := by
  unfold indexOf
  cases hx : T.findIdx? (fun e => decide (e.key = k)) with
  | none =>
    rw [List.findIdx?_eq_none_iff] at hx
    obtain ⟨e, he, rfl⟩ := List.mem_map.mp h
    simpa using hx e he
  | some i =>
    rw [List.findIdx?_eq_some_iff_getElem] at hx
    obtain ⟨hi, h1, _⟩ := hx
    exact ⟨i, hi, rfl, by simpa using h1⟩

/-- A symbol that is no key of the table has no index. -/
theorem indexOf_not_mem {T : Table} {k : Symbol} (h : k ∉ T.map (·.key)) : indexOf T k = none := by
  unfold indexOf
  rw [List.findIdx?_eq_none_iff]
  intro e he
  simp only [decide_eq_false_iff_not]
  rintro rfl
  exact h (List.mem_map_of_mem (f := fun e : Entry => e.key) he)

/-- Symbols of the table whose codes fit are encoded to their codes, one after another. -/
theorem encodeSymbols_append {cap : Nat} {T : Table} {rom : CodeRom} (ks tail : List Symbol) (p : Bits)
    (hk : ∀ k ∈ ks, k ∈ T.map (·.key))
    (hl : p.length + (ks.flatMap (codeOf T rom)).length ≤ cap) :
    encodeSymbols cap T rom (ks ++ tail) p =
      encodeSymbols cap T rom tail (p ++ ks.flatMap (codeOf T rom)) := by
  induction ks generalizing p with
  | nil => simp
  | cons k ks ih =>
    obtain ⟨i, hi, h1, _⟩ := indexOf_mem (hk k (by simp))
    have hc : codeOf T rom k = codeAt rom i := by simp [codeOf, h1]
    simp only [List.flatMap_cons, List.length_append, hc] at hl
    rw [List.cons_append, encodeSymbols, h1]
    simp only
    rw [if_neg (by omega), ih _ (fun k hk' => hk k (by simp [hk']))
      (by simp only [List.length_append]; omega)]
    simp [hc]

/-- A payload that ends well fits PBUF (10_state.md R34). -/
theorem encodeSymbols_done {cap : Nat} {T : Table} {rom : CodeRom} {ks : List Symbol} {p q : Bits}
    (hp : p.length ≤ cap) (h : encodeSymbols cap T rom ks p = .done q) : q.length ≤ cap := by
  induction ks generalizing p with
  | nil => cases h; exact hp
  | cons k ks ih =>
    rw [encodeSymbols] at h
    split at h
    · cases h
    · split at h
      · cases h
      · exact ih (by simp only [List.length_append]; omega) h

theorem encodeSource_done {cap n : Nat} {mode : Mode} {T : Table} {rom : CodeRom} {src : List Byte}
    {p : Bits} (h : encodeSource cap mode T rom src = .done (p, n)) : p.length ≤ cap := by
  unfold encodeSource at h
  simp only at h
  split at h
  · cases h
  · next hq =>
    split at h
    · cases h
    · cases h
      exact encodeSymbols_done (by simp) hq

/-- The padding brings a length to the next multiple of 8. -/
theorem padBits_eq (n : Nat) : padBits n = 8 * ((n + 7) / 8) - n := by unfold padBits; omega

theorem frameBits_length (cfg : Params) (tb p : Bits) :
    (frameBits cfg tb p).length = 8 * frameBytes cfg.markerW tb.length p.length := by
  simp only [frameBits, List.length_append, zeros_length, u_length, frameBytes, padBits_eq]
  omega

/-- SerTable raises FIELD_RANGE and nothing else (44_table_codec.md R165). -/
theorem serTable_raised {mode : Mode} {T : Table} {e : ErrCode} (h : serTable mode T = .raised e) :
    e = .fieldRange := by
  cases mode <;> simp only [serTable] at h <;> split at h <;> cases h <;> rfl

/-- A frame that is packed fits the destination. -/
theorem packFrame_done {cfg : Params} {mode : Mode} {T : Table} {p : Bits} {cap : Nat}
    {bs : List Byte} (h : packFrame cfg mode T p cap = .done bs) : bs.length ≤ cap := by
  unfold packFrame at h
  split at h
  · cases h
  · next tb _ =>
    simp only at h
    split at h
    · cases h
    · cases h
      have := frameBits_length cfg tb p
      rw [bytesOf_length _ _ this]
      omega

/-- PACK raises FIELD_RANGE or CAPACITY_EXCEEDED (45_bitstream_packer.md R193). -/
theorem packFrame_raised {cfg : Params} {mode : Mode} {T : Table} {p : Bits} {cap : Nat} {e : ErrCode}
    (h : packFrame cfg mode T p cap = .raised e) : e = .fieldRange ∨ e = .capacityExceeded := by
  unfold packFrame at h
  split at h
  · next hs => cases h; exact .inl (serTable_raised hs)
  · simp only at h
    split at h
    · cases h; exact .inr rfl
    · cases h

end Sys2Proof.Machine
end

