-- ==== Sys2Proof/Laws/PerInstr.lean ====
section
/-! SUPPORT. The statements made once per command: the encoding family. -/

namespace Sys2Proof.Laws.Encoding

/-- A command's word is a well-formed command word with RSVD = 0, and the decoder reads the command back
from it, also as an opcode-table word of 32 bits (30_encoding.md R70 to R73). -/
def Statement (i : Instr) : Prop :=
  i.WellFormed ∧ CommandWordOk (encode i) ∧ rsvdField (encode i) = 0 ∧ opField (encode i) = opcode i ∧
    decode (encode i) = .command i ∧ decodeTableWord 32 (encode i).toNat = some i

theorem analyze : Statement .analyze := by unfold Statement; decide

theorem buildTree : Statement .buildTree := by unfold Statement; decide

theorem genCodes : Statement .genCodes := by unfold Statement; decide

theorem encode : Statement .encode := by unfold Statement; decide

theorem pack : Statement .pack := by unfold Statement; decide

theorem unpack : Statement .unpack := by unfold Statement; decide

theorem decode : Statement .decode := by unfold Statement; decide

end Sys2Proof.Laws.Encoding
end

