-- ==== Sys2Proof/Laws/Reset.lean ====
section
/-! SUPPORT. What the platform's reset leaves in BUF, and that it keeps the invariant
(spec/70_reset_and_hazards.md R280, R281; spec/93_implementation_defined.md U7). -/

namespace Sys2Proof.Machine

/-- The pre-checks of a command that writes a destination region (60_exceptions.md R246). -/
theorem preCheck_writesDest {i : Instr} (h : writesDest i = true) (s : State) :
    preCheck i s = none ↔ s.ready i = true ∧ s.dstValid := by
  have hp : preCheck i s = if s.ready i = false then some .notReady
      else if s.dstValid then none else some .regionFault := by
    cases i <;> simp only [writesDest, Bool.false_eq_true] at h <;> rfl
  rw [hp]
  split
  · simp [*]
  · split <;> simp_all

/-- The running command may have written its destination region exactly when it writes one and its
pre-checks pass (60_exceptions.md R246). -/
theorem mayHaveWritten_iff (s : State) : s.mayHaveWritten = true ↔
    s.status.busy = true ∧
      ∃ i, s.latch.cmd = encode i ∧ writesDest i = true ∧ preCheck i s = none := by
  unfold State.mayHaveWritten
  cases hd : decode s.latch.cmd with
  | illegal why =>
    simp only [Bool.and_false, Bool.false_eq_true, false_iff]
    rintro ⟨_, i, hi, _⟩
    rw [hi, decode_encode] at hd
    cases hd
  | command j =>
    have hj : encode j = s.latch.cmd := encode_of_decode hd
    have hinj : ∀ i, s.latch.cmd = encode i → i = j := fun i hi => by
      rw [hi, decode_encode] at hd
      cases hd
      rfl
    rw [Bool.and_eq_true]
    refine and_congr_right fun _ => ⟨fun h => ⟨j, hj.symm, ?_⟩, ?_⟩
    · have hw : writesDest j = true := by cases j <;> simp_all [failEffect, writesDest]
      simp only [Bool.and_eq_true, decide_eq_true_eq] at h
      exact ⟨hw, (preCheck_writesDest hw s).mpr ⟨h.1.2, h.2⟩⟩
    · rintro ⟨i, hi, hw, hp⟩
      obtain rfl := hinj i hi
      have h := (preCheck_writesDest hw s).mp hp
      simp only [Bool.and_eq_true, decide_eq_true_eq]
      exact ⟨⟨by cases i <;> simp_all [failEffect, writesDest], h.1⟩, h.2⟩

/-- After a reset a byte of BUF holds a value exactly when it lies in the destination region of the
command the reset abandons. -/
theorem platformReset_read_isSome (s : State) (a : Nat) :
    (s.platformReset.buf.read a).isSome = true ↔ s.inDst s.abandonedBytes a := by
  constructor
  · intro h
    by_contra hn
    rw [State.platformReset_buf, Memory.read_writeBytes_outside _ (by simpa using hn)] at h
    cases h
  · rintro ⟨h1, h2⟩
    obtain ⟨k, rfl⟩ := Nat.exists_eq_add_of_le h1
    rw [State.platformReset_buf, Memory.read_writeBytes_inside _ _ _ (k := k) (by simp; omega)]
    simp

/-- A region that a reset leaves with any value is inside BUF. -/
theorem abandonedBytes_inside {s : State} (h : s.abandonedBytes ≠ 0) :
    s.latch.args.dstBase.toNat + s.abandonedBytes ≤ s.cfg.bufBytes := by
  unfold State.abandonedBytes at *
  split at h
  · next hm =>
    rw [if_pos hm]
    obtain ⟨-, i, -, hw, hp⟩ := (mayHaveWritten_iff s).mp hm
    exact ((preCheck_writesDest hw s).mp hp).2
  · exact absurd rfl h

/-- A reset keeps the invariant. -/
theorem platformReset_inv {s : State} (h : Inv s) : Inv s.platformReset := by
  refine ⟨h.cfgOk, Memory.writeBytes_wf List.Pairwise.nil _ _, ?_, fun _ ht => (nomatch ht),
    .inl rfl, .inl rfl, fun _ hp => (nomatch hp), fun hb => nomatch hb⟩
  by_cases hz : s.abandonedBytes = 0
  · rw [State.platformReset_buf, hz]
    exact fun _ hc => nomatch hc
  · refine Memory.writeBytes_below (m := []) (fun _ hc => (nomatch hc)) ?_
    rw [drawBytes_length]
    exact abandonedBytes_inside hz

end Sys2Proof.Machine
end

