-- ==== Sys2Proof/Laws/Step.lean ====
section
/-! SUPPORT. What one step is, said once: the core's completion step, an idle turn, a reset or a host
access (spec/20_memory.md R65). -/

namespace Sys2Proof.Machine

/-- The completion step of a latched command is the command (60_exceptions.md R241). -/
theorem completionStep_of_cmd {s : State} {i : Instr} (h : s.latch.cmd = encode i) :
    completionStep s = exec i s := by
  unfold completionStep fetchWord
  simp only [h, decode_encode]

/-- Every step that answers a next state. -/
theorem step_cases {s t : State} (h : step s = .next t) :
    (∃ rest, s.coreMoves rest ∧ completionStep { s with agenda := rest } = .next t) ∨
    (s.status.busy = false ∧
      (s.agenda = [] ∧ t = s ∨ ∃ rest, s.nextIs .completion rest ∧ t = { s with agenda := rest })) ∨
    (∃ rest, s.nextIs .reset rest ∧ t = ({ s with agenda := rest }).platformReset) ∨
    (∃ a rest, s.nextIs (.access a) rest ∧ hostAccess a { s with agenda := rest } = .next t) := by
  cases hb : s.status.busy with
  | true =>
    match ha : s.agenda with
    | [] =>
      have hm : s.coreMoves [] := ⟨hb, .inr ⟨ha, rfl⟩⟩
      exact .inl ⟨[], hm, by rwa [← step_of_coreMoves hm]⟩
    | .completion :: rest =>
      have hm : s.coreMoves rest := ⟨hb, .inl ha⟩
      exact .inl ⟨rest, hm, by rwa [← step_of_coreMoves hm]⟩
    | .reset :: rest =>
      rw [step_cons ha] at h
      cases h
      exact .inr (.inr (.inl ⟨rest, ha, rfl⟩))
    | .access a :: rest =>
      rw [step_cons ha] at h
      exact .inr (.inr (.inr ⟨a, rest, ha, h⟩))
  | false =>
    match ha : s.agenda with
    | [] =>
      rw [step_nil ha] at h
      simp only [coreTurn, hb, Bool.false_eq_true, if_false, Host.Outcome.next.injEq] at h
      exact .inr (.inl ⟨rfl, .inl ⟨rfl, h.symm⟩⟩)
    | .completion :: rest =>
      rw [step_cons ha] at h
      simp only [runEvent, coreTurn, hb, Bool.false_eq_true, if_false,
        Host.Outcome.next.injEq] at h
      exact .inr (.inl ⟨rfl, .inr ⟨rest, ha, h.symm⟩⟩)
    | .reset :: rest =>
      rw [step_cons ha] at h
      cases h
      exact .inr (.inr (.inl ⟨rest, ha, rfl⟩))
    | .access a :: rest =>
      rw [step_cons ha] at h
      exact .inr (.inr (.inr ⟨a, rest, ha, h⟩))

end Sys2Proof.Machine
end

