-- ==== Sys2Proof/Laws/Script.lean ====
section
/-! SUPPORT. What one turn of a host script does (spec/30_encoding.md R76). -/

namespace Sys2Proof.Machine

@[simp] theorem stepOn_access (s : State) (a : Access) : s.stepOn (.access a) = hostAccess a s := by
  unfold State.stepOn
  rw [step_cons rfl]
  rfl

@[simp] theorem stepOn_completion (s : State) : s.stepOn .completion = coreTurn s := by
  unfold State.stepOn
  rw [step_cons rfl]
  rfl

/-- Bit 0 of the STATUS word is BUSY (10_state.md R25). -/
theorem statusWord_busy (s : State) : s.statusWord.getLsbD 0 = s.status.busy := by
  unfold State.statusWord
  rw [BitVec.getLsbD_append]
  simp

/-- A read of STATUS answers the STATUS word and changes nothing (20_memory.md R53, R62). -/
theorem hostAccess_readStatus (s : State) :
    hostAccess (readAccess .status) s = .next (s.answer (some s.statusWord)) := by
  have ht : target s.cfg (.reg Reg.status.offset) 32 = .reg .status :=
    (by decide : regTarget Reg.status.offset 32 = .reg .status)
  unfold hostAccess readAccess State.hostRead
  simp only [ht]
  rfl

/-- A host turn at a WAIT is one read of STATUS, and the WAIT is over exactly when BUSY = 0. -/
theorem turn_wait (s : State) (todo : List HostAction) :
    ({ todo := .pollUntilIdle :: todo, state := s } : ScriptRun).turn .host =
      .next
        { todo := if s.status.busy then .pollUntilIdle :: todo else todo
          state := s.answer (some s.statusWord) } := by
  have hb : (s.answer (some s.statusWord)).sawBusy = s.status.busy := statusWord_busy s
  simp only [ScriptRun.turn, HostAction.next, stepOn_access, hostAccess_readStatus, HostAction.rest,
    hb]
  cases s.status.busy <;> rfl

/-- A core turn while no command runs does nothing. -/
theorem turn_core_idle (r : ScriptRun) (h : r.state.status.busy = false) :
    r.turn .core = .next r := by
  simp [ScriptRun.turn, coreTurn, h]

end Sys2Proof.Machine
end

