-- ==== Sys2Proof/Laws/Unpacker.lean ====
section
/-! SUPPORT. What LocateFrame, UNPACK and the walk of DECODE can do
(spec/46_bitstream_unpacker.md R210 to R216). -/

namespace Sys2Proof.Machine

/-! ### The frame -/

theorem dropWhile_zeros (pad : Nat) : (zeros pad).dropWhile (fun b => !b) = [] := by
  simp [zeros]

theorem dropWhile_zeros_one (pad : Nat) (s : Bits) :
    (zeros pad ++ true :: s).dropWhile (fun b => !b) = true :: s := by
  simp [zeros]

/-- LocateFrame skips the zero bits and the marker (46_bitstream_unpacker.md R210). -/
theorem locateFrame_marker {w : Nat} (pad : Nat) {m : Bits} (s : Bits) (h : m.length + 1 = w) :
    locateFrame w (zeros pad ++ true :: m ++ s) = .done s := by
  unfold locateFrame
  rw [List.append_assoc, List.cons_append, dropWhile_zeros_one]
  simp only
  rw [if_neg (by simp; omega)]
  subst h
  simp

/-- A frame that is taken apart gives a table the block can hold and a payload that fits PBUF. -/
theorem unpackFrame_done {cfg : Params} {mode : Mode} {s p : Bits} {T : Table}
    (h : unpackFrame cfg mode s = .done (T, p)) : TableOk cfg.nMax mode T ∧ p.length ≤ cfg.pbufBits := by
  unfold unpackFrame at h
  split at h
  · cases h
  · split at h
    · cases h
    · next ht =>
      split at h
      · cases h
      · cases h
        exact ⟨(parseTable_done ht).1, by omega⟩

/-! ### Emit -/

theorem emit_done {cap : Nat} {r : List Byte} {d d' : Emitted} (h : emit cap r d = .done d') :
    d' = ⟨d.out ++ r, d.count + 1⟩ ∧ d'.out.length ≤ cap := by
  unfold emit at h
  split at h
  · cases h
  · cases h
    exact ⟨rfl, by simp only [List.length_append]; omega⟩

theorem emit_raised {cap : Nat} {r : List Byte} {d : Emitted} {e : ErrCode}
    (h : emit cap r d = .raised e) : e = .capacityExceeded := by
  unfold emit at h
  split at h <;> cases h
  rfl

/-! ### What the walk can answer -/

theorem walkTree_done {mode : Mode} {T : Table} {cap : Nat} {root cur : HuffTree} {bs : Bits}
    {d d' : Emitted} (hd : d.out.length ≤ cap) (h : walkTree mode T cap root cur bs d = .done d') :
    d'.out.length ≤ cap := by
  induction bs generalizing cur d with
  | nil =>
    unfold walkTree at h
    split at h <;> cases h
    exact hd
  | cons b bs ih =>
    rw [walkTree] at h
    split at h
    · split at h
      · cases h
      · next he => exact ih (emit_done he).2 h
    · exact ih hd h

theorem walkTree_raised {mode : Mode} {T : Table} {cap : Nat} {root cur : HuffTree} {bs : Bits}
    {d : Emitted} {e : ErrCode} (h : walkTree mode T cap root cur bs d = .raised e) :
    e = .capacityExceeded ∨ e = .corruptStream := by
  induction bs generalizing cur d with
  | nil =>
    unfold walkTree at h
    split at h <;> cases h
    exact .inr rfl
  | cons b bs ih =>
    rw [walkTree] at h
    split at h
    · split at h
      · next he => cases h; exact .inl (emit_raised he)
      · exact ih h
    · exact ih h

theorem walkLeaf_done {cap : Nat} {r : List Byte} {bs : Bits} {d d' : Emitted}
    (hd : d.out.length ≤ cap) (h : walkLeaf cap r bs d = .done d') : d'.out.length ≤ cap := by
  induction bs generalizing d with
  | nil => cases h; exact hd
  | cons b bs ih =>
    cases b
    · rw [walkLeaf] at h
      split at h
      · cases h
      · next he => exact ih (emit_done he).2 h
    · cases h

theorem walkLeaf_raised {cap : Nat} {r : List Byte} {bs : Bits} {d : Emitted} {e : ErrCode}
    (h : walkLeaf cap r bs d = .raised e) : e = .capacityExceeded ∨ e = .corruptStream := by
  induction bs generalizing d with
  | nil => cases h
  | cons b bs ih =>
    cases b
    · rw [walkLeaf] at h
      split at h
      · next he => cases h; exact .inl (emit_raised he)
      · exact ih h
    · cases h; exact .inr rfl

/-- What DECODE puts out fits the destination. -/
theorem decodePayload_done {mode : Mode} {T : Table} {cap : Nat} {root : HuffTree} {p : Bits}
    {d : Emitted} (h : decodePayload mode T cap root p = .done d) : d.out.length ≤ cap := by
  unfold decodePayload at h
  split at h
  · exact walkLeaf_done (by simp) h
  · exact walkTree_done (by simp) h

/-- DECODE raises CAPACITY_EXCEEDED or CORRUPT_STREAM (46_bitstream_unpacker.md R214). -/
theorem decodePayload_raised {mode : Mode} {T : Table} {cap : Nat} {root : HuffTree} {p : Bits}
    {e : ErrCode} (h : decodePayload mode T cap root p = .raised e) :
    e = .capacityExceeded ∨ e = .corruptStream := by
  unfold decodePayload at h
  split at h
  · exact walkLeaf_raised h
  · exact walkTree_raised h

/-! ### The walk of codes -/

/-- A tree that is a leaf is the tree of a one-entry table. -/
theorem buildTree_leaf {T : Table} {sym f : Nat} (h : buildTree T = some (.leaf sym f)) :
    T.length = 1 ∧ sym = 0 ∧ genCodes (.leaf sym f) = [[false]] := by
  have h1 := buildTree_leaves_length h
  have h2 := buildTree_syms h
  simp only [HuffTree.leaves, List.length_singleton, List.map_cons, List.map_nil] at h1 h2
  rw [← h1] at h2
  have h3 : sym = 0 := by simpa using h2
  subst h3
  exact ⟨h1.symm, rfl, rfl⟩

/-- Codes at the head of a payload are walked to the records of their symbols. -/
theorem walkTree_codes {mode : Mode} {T : Table} {cap k f : Nat} {a b : HuffTree}
    (hb : buildTree T = some (.internal k f a b)) {is : List Nat} (his : ∀ i ∈ is, i < T.length)
    (bs : Bits) (d : Emitted) (hcap : d.out.length + (is.flatMap (recordAt mode T)).length ≤ cap) :
    walkTree mode T cap (.internal k f a b) (.internal k f a b)
        (is.flatMap (codeAt (genCodes (.internal k f a b))) ++ bs) d =
      walkTree mode T cap (.internal k f a b) (.internal k f a b) bs
        ⟨d.out ++ is.flatMap (recordAt mode T), d.count + is.length⟩ := by
  induction is generalizing d with
  | nil => simp
  | cons i is ih =>
    obtain ⟨p, hp, hc⟩ := exists_code hb (his i (by simp))
    rw [List.flatMap_cons, hc, List.append_assoc]
    have hp' : (i, [] ++ p) ∈ HuffTree.paths [] (.internal k f a b) := hp
    rw [walkTree_path _ _ hp']
    simp only [List.flatMap_cons, List.length_append] at hcap
    unfold emit
    rw [if_neg (by omega)]
    simp only
    rw [ih (fun i hi => his i (by simp [hi])) _ (by simp only [List.length_append]; omega)]
    simp [Nat.add_assoc, Nat.add_comm 1]

/-- Zero bits at the head of a payload are walked to records of a one-leaf tree's symbol. -/
theorem walkLeaf_codes {mode : Mode} {T : Table} {cap : Nat} {is : List Nat} (his : ∀ i ∈ is, i < 1)
    (bs : Bits) (d : Emitted) (hcap : d.out.length + (is.flatMap (recordAt mode T)).length ≤ cap) :
    walkLeaf cap (recordAt mode T 0) (is.flatMap (codeAt [[false]]) ++ bs) d =
      walkLeaf cap (recordAt mode T 0) bs
        ⟨d.out ++ is.flatMap (recordAt mode T), d.count + is.length⟩ := by
  induction is generalizing d with
  | nil => simp
  | cons i is ih =>
    obtain rfl : i = 0 := by have := his i (by simp); omega
    simp only [List.flatMap_cons, List.length_append] at hcap
    have h0 : codeAt [[false]] 0 = [false] := rfl
    rw [List.flatMap_cons, h0, List.append_assoc, List.singleton_append, walkLeaf]
    unfold emit
    rw [if_neg (by omega)]
    simp only
    rw [ih (fun i hi => his i (by simp [hi])) _ (by simp only [List.length_append]; omega)]
    simp [Nat.add_assoc, Nat.add_comm 1]

end Sys2Proof.Machine
end

