-- ==== Sys2Proof/Tests/Slice0.lean ====
section
/-! SUPPORT. Tests of one step each, with expected values from spec/95_test_vectors.md, the WellFormed
smoke test, and for every statement with hypotheses a state that meets them. -/

namespace Sys2Proof.Tests

open Sys2Proof.Machine

/-! ### Decoding, bit by bit (30_encoding.md R70, R72, R74; vectors CD1 to CD7) -/

theorem test_decode_analyze :
    decode 0b0000000000000000000000000000_0001#32 = .command .analyze := by decide

theorem test_decode_buildTree :
    decode 0b0000000000000000000000000000_0010#32 = .command .buildTree := by decide

theorem test_decode_genCodes :
    decode 0b0000000000000000000000000000_0011#32 = .command .genCodes := by decide

theorem test_decode_encode :
    decode 0b0000000000000000000000000000_0100#32 = .command .encode := by decide

theorem test_decode_pack :
    decode 0b0000000000000000000000000000_0101#32 = .command .pack := by decide

theorem test_decode_unpack :
    decode 0b0000000000000000000000000000_0110#32 = .command .unpack := by decide

theorem test_decode_decode :
    decode 0b0000000000000000000000000000_0111#32 = .command .decode := by decide

theorem test_decode_illegal :
    [0x00000000#32, 0x00000008#32, 0x0000000F#32].map decode =
      List.replicate 3 (.illegal .noSuchOpcode) ∧
    [0x00000011#32, 0x80000002#32].map decode = List.replicate 2 (.illegal .reservedBits) := by
  decide

theorem test_decodeTableWord :
    decodeTableWord 32 7 = some .decode ∧ decodeTableWord 32 8 = none := by decide

/-! ### WellFormed: an ill-formed term for each check -/

theorem test_defaults_ok : Params.default.WellFormed := by decide

theorem test_nMax : ¬ ({ Params.default with nMax := 0 } : Params).NMaxOk := by decide

theorem test_bufBytes : ¬ ({ Params.default with bufBytes := 65537 } : Params).BufBytesOk := by decide

theorem test_pbufBits : ¬ ({ Params.default with pbufBits := 2 ^ 32 } : Params).PbufBitsOk := by decide

theorem test_markerW : ¬ ({ Params.default with markerW := 33 } : Params).MarkerWOk := by decide

theorem test_marker_top_bit : ¬ ({ Params.default with marker := 0x5AA5#32 } : Params).MarkerOk := by
  decide

theorem test_marker_width : ¬ ({ Params.default with marker := 0x1A55A#32 } : Params).MarkerOk := by
  decide

theorem test_blockBase : ¬ ({ Params.default with blockBase := 0x10000 } : Params).BlockBaseOk := by
  decide

theorem test_commandWord : ¬ CommandWordOk 0x00000011#32 ∧ ¬ CommandWordOk 0x00000008#32 := by decide

/-! ### States to step from: the "aaab" scenario of 95_test_vectors.md 1.1 -/

/-- The records of "aaab". -/
def aaab : List Byte := [0x01#8, 0x61#8, 0x01#8, 0x61#8, 0x01#8, 0x61#8, 0x01#8, 0x62#8]

/-- The symbol "a". -/
def symA : Machine.Symbol := .octets [0x61#8]

/-- The symbol "b". -/
def symB : Machine.Symbol := .octets [0x62#8]

/-- FT of "aaab". -/
def ab : Table := [⟨symA, 3⟩, ⟨symB, 1⟩]

/-- TREE of "aaab" (BT1). -/
def abTree : HuffTree := .internal 2 4 (.leaf 1 1) (.leaf 0 3)

/-- CROM of "aaab" (GC1). -/
def abRom : CodeRom := [[true], [false]]

/-- PBUF of "aaab". -/
def abPayload : Bits := [true, true, true, false]

/-- The frame of "aaab" (PK1). -/
def abFrame : List Byte :=
  [0x29#8, 0x56#8, 0x81#8, 0x61#8, 0x00#8, 0x00#8, 0x00#8, 0x03#8, 0x05#8, 0x88#8, 0x00#8, 0x00#8,
    0x00#8, 0x04#8, 0x0E#8]

/-- After reset, mode 1, `src` in BUF from 0 on, the source region over it and a destination of `cap`
bytes at 0x100. -/
def idle (src : List Byte) (cap : Nat) : State :=
  { State.reset with
    ctrl := { mode := .byteSeq, irqEn := true }
    operands :=
      { srcBase := 0, srcLen := BitVec.ofNat 32 src.length, dstBase := 0x100,
        dstCap := BitVec.ofNat 32 cap }
    buf := Memory.writeBytes [] 0 src }

/-- The same with the stores of "aaab". -/
def stored (src : List Byte) (cap : Nat) : State :=
  { idle src cap with
    status := { (idle src cap).status with ftMode := .byteSeq }
    ft := some ab, tree := some abTree, crom := some abRom, pbuf := some abPayload }

/-- The command `i` accepted in `s`. -/
def accepted (s : State) (i : Instr) : State := s.accept (encode i)

/-- The next transition is `ev`. -/
def before (s : State) (ev : Event) : State := { s with agenda := [ev] }

/-- The state an outcome answers. -/
def next? : Outcome → Option State
  | .next t => some t
  | .fault _ => none
  | .refused _ => none

/-! ### One step of each command -/

theorem test_analyze_aaab :
    (next? (exec .analyze (accepted (idle aaab 64) .analyze))).map (fun t => (t.ft, t.symCount)) =
      some (some ab, 4) := by decide

/-- AN12: the third distinct symbol with N_MAX = 2. -/
theorem test_analyze_capacity :
    (next? (exec .analyze (accepted
      { idle [0x01#8, 0x61#8, 0x01#8, 0x62#8, 0x01#8, 0x61#8, 0x01#8, 0x63#8] 0 with
        cfg := { Params.default with nMax := 2 } } .analyze))).map
        (fun t => (t.status.errcode, t.ft)) = some (.capacityExceeded, none) := by decide

/-- BT10: "abracadabra". -/
theorem test_buildTree_abracadabra :
    (buildTree [⟨.num 0, 5⟩, ⟨.num 1, 2⟩, ⟨.num 2, 2⟩, ⟨.num 3, 1⟩, ⟨.num 4, 1⟩]).map HuffTree.nodes =
      some [(0, .leaf 0 5), (1, .leaf 1 2), (4, .leaf 4 1), (3, .leaf 3 1), (5, .internal 4 3 2),
        (2, .leaf 2 2), (6, .internal 5 2 4), (7, .internal 1 6 6), (8, .internal 0 7 11)] := by
  decide

theorem test_buildTree_aaab :
    (next? (exec .buildTree (accepted (stored aaab 64) .buildTree))).map (fun t => (t.tree, t.crom)) =
      some (some abTree, none) := by decide

/-- GC10: the codes of BT10. -/
theorem test_genCodes_abracadabra :
    ((buildTree [⟨.num 0, 5⟩, ⟨.num 1, 2⟩, ⟨.num 2, 2⟩, ⟨.num 3, 1⟩, ⟨.num 4, 1⟩]).map genCodes) =
      some [[false], [true, false], [true, true, true], [true, true, false, true],
        [true, true, false, false]] := by decide

theorem test_genCodes_aaab :
    (next? (exec .genCodes (accepted { stored aaab 64 with crom := none } .genCodes))).map (·.crom) =
      some (some abRom) := by decide

theorem test_encode_aaab :
    (next? (exec .encode (accepted { stored aaab 64 with pbuf := none } .encode))).map
      (fun t => (t.pbuf, t.symCount)) = some (some abPayload, 4) := by decide

/-- EN6: PBUF_BITS = 3. -/
theorem test_encode_capacity :
    (next? (exec .encode (accepted
      { stored aaab 64 with cfg := { Params.default with pbufBits := 3 } } .encode))).map
        (fun t => (t.status.errcode, t.pbuf)) = some (.capacityExceeded, none) := by decide

set_option maxRecDepth 20000 in
theorem test_pack_aaab :
    (next? (exec .pack (accepted (stored aaab 64) .pack))).map
      (fun t => (t.resultLen, t.buf.readBytes 0x100 15, t.buf.read 0x10F)) =
      some (15, some abFrame, none) := by decide

set_option maxRecDepth 20000 in
/-- PK11: DST_CAP = 14. -/
theorem test_pack_capacity :
    (next? (exec .pack (accepted (stored aaab 14) .pack))).map
      (fun t => (t.status.errcode, t.resultLen, t.ft)) = some (.capacityExceeded, 0, some ab) := by
  decide

set_option maxRecDepth 20000 in
theorem test_unpack_aaab :
    (next? (exec .unpack (accepted (idle abFrame 64) .unpack))).map
      (fun t => (t.ft, t.pbuf, t.payloadOff)) = some (some ab, some abPayload, 116) := by decide

/-- UP10: key "a" twice. -/
theorem test_unpack_duplicate :
    (next? (exec .unpack (accepted (idle
      [0x02#8, 0x95#8, 0x68#8, 0x16#8, 0x10#8, 0x00#8, 0x00#8, 0x00#8, 0x10#8, 0x58#8, 0x40#8, 0x00#8,
        0x00#8, 0x00#8, 0x80#8] 64) .unpack))).map (fun t => (t.status.errcode, t.ft)) =
      some (.duplicateKey, none) := by decide

theorem test_decode_aaab :
    (next? (exec .decode (accepted (stored aaab 64) .decode))).map
      (fun t => (t.resultLen, t.symCount, t.buf.readBytes 0x100 8)) = some (8, 4, some aaab) := by
  decide

/-- DC7: a 1 bit under a one-leaf tree. -/
theorem test_decode_corrupt :
    (next? (exec .decode (accepted
      { stored aaab 64 with
        ft := some [⟨symA, 5⟩], tree := some (.leaf 0 5), pbuf := some [false, true, false] }
      .decode))).map (fun t => (t.status.errcode, t.resultLen, t.symCount)) =
      some (.corruptStream, 0, 0) := by decide

/-! ### The host port and the lifecycle -/

/-- The step that `withFetchWord` prepares runs the command: BUILD_TREE after reset is not ready
(BT12), and an illegal word reports ILLEGAL_COMMAND (CD4). -/
theorem test_withFetchWord :
    (next? (step (State.reset.withFetchWord 32 2))).map (fun t => (t.status.errcode, t.agenda)) =
      some (.notReady, []) ∧
    (next? (step (State.reset.withFetchWord 32 8))).map (fun t => (t.status.errcode, t.status.lastop)) =
      some (.illegalCommand, 8#4) := by decide

/-- The STATUS word after the ANALYZE of program P1. -/
theorem test_statusWord :
    (next? (step (accepted (idle aaab 64) .analyze))).map State.statusWord = some 0x00111002#32 := by
  decide

/-- HA5: a 32-bit BUF write is big-endian. -/
theorem test_buf_write :
    (next? (step (before State.reset (.access (.write (.buf 0) 32 0x01610162#32))))).map
      (fun t => t.buf.readBytes 0 4) = some (some [0x01#8, 0x61#8, 0x01#8, 0x62#8]) := by decide

/-- HA6: a BUF read past the end. -/
theorem test_buf_outside :
    (next? (step (before State.reset (.access (.read (.buf 65536) 8))))).map
      (fun t => (t.hostData, t.status.buserr)) = some (some 0, true) := by decide

/-- A reset while PACK runs: its destination region holds any value (U7), no other byte holds one; and
a PACK that is not ready wrote nothing. -/
theorem test_reset_during_pack :
    (next? (step (before (accepted (stored aaab 2) .pack) .reset))).map
        (fun t => (t.buf.map Prod.fst, t.draws, t.status.busy)) = some ([0x100, 0x101], 2, false) ∧
      (next? (step (before (accepted (idle aaab 2) .pack) .reset))).map (fun t => t.buf) =
        some [] := by decide

/-- What an outcome of a script's turns answers. -/
def ran? : Host.Outcome ScriptRun Fault Refusal → Option ScriptRun
  | .next r => some r
  | .fault _ => none
  | .refused _ => none

/-- `RUN PACK` (30_encoding.md R76, R77): the write of 5 to CMD, then WAIT. -/
theorem test_runCmd_actions :
    scriptActions (runCmd .pack) = [.access (.write (.reg 0x04) 32 5#32), .pollUntilIdle] := by decide

/-- A WAIT with BUSY = 1 goes on, and `CMD BUILD_TREE` after it does not come before it is over; on an
idle block it is one read. -/
theorem test_wait :
    (ran? ((startScript [.cmd .analyze, .wait, .cmd .buildTree] (idle aaab 8)).run
        [.host, .host, .host])).map (fun r => r.todo.length) = some 2 ∧
    (ran? ((startScript [.cmd .analyze, .wait, .cmd .buildTree] (idle aaab 8)).run
        [.host, .host, .core, .host])).map (fun r => r.todo.length) = some 1 ∧
    (ran? ((startScript [.wait] State.reset).run [.host])).map (·.todo) = some [] := by decide

/-- The two legal end states of program P8, from the stores of "aaab": the completion of BUILD_TREE
after or before the second CMD write. -/
theorem test_busy_window :
    (ran? ((startScript [.cmd .buildTree, .cmd .genCodes, .wait] (stored aaab 8)).run
        [.host, .host, .core, .host])).map (fun r => (r.todo, r.state.statusWord)) =
      some ([], 0x001B200A#32) ∧
    (ran? ((startScript [.cmd .buildTree, .cmd .genCodes, .wait] (stored aaab 8)).run
        [.host, .core, .host, .core, .host])).map (fun r => (r.todo, r.state.statusWord)) =
      some ([], 0x001F3002#32) := by decide

/-! ### States that meet the hypotheses of each statement -/

/-- FT of "aaab" meets the invariant's clause about FT. -/
theorem ab_ok : TableOk 256 .byteSeq ab :=
  ⟨(by decide : ab.length ≤ 256), (by decide : (ab.map (·.key)).Nodup),
    (by decide : ∀ e ∈ ab, Machine.Symbol.okFor .byteSeq e.key = true),
    (by decide : ∀ e ∈ ab, e.freq < 2 ^ 63), fun _ => (by decide : ∀ e ∈ ab, e.freq < 2 ^ 32)⟩

/-- The invariant holds with the stores of "aaab", a source in BUF and any latched command. -/
theorem inv_stored (src : List Byte) (i : Instr) (cap : Nat)
    (hw : Memory.wf (Memory.writeBytes [] 0 src))
    (hb : Memory.below (Memory.writeBytes [] 0 src) 65536) :
    Inv (accepted (stored src cap) i) where
  cfgOk := (by decide : Params.default.WellFormed)
  bufCanonical := hw
  bufInside := hb
  tableOk := fun t ht => by
    cases ht
    exact ab_ok
  treeOfTable := .inr (by decide : some abTree = buildTree ab)
  codesOfTree := .inr (by decide : some abRom = some (genCodes abTree))
  payloadOk := fun p hp => by
    cases hp
    exact ⟨rfl, (by decide : abPayload.length ≤ 524288)⟩
  running := fun _ => ⟨rfl, rfl, rfl⟩

/-- The same with "aaab" as the source. -/
theorem inv_aaab (i : Instr) (cap : Nat) : Inv (accepted (stored aaab cap) i) :=
  inv_stored _ _ _ (by decide) (by decide)

/-- The invariant holds with no store and any latched word. -/
theorem inv_no_stores (w : Word) (cap : Nat) : Inv ((idle [] cap).accept w) where
  cfgOk := (by decide : Params.default.WellFormed)
  bufCanonical := List.Pairwise.nil
  bufInside := fun _ h => nomatch h
  tableOk := fun _ h => nomatch h
  treeOfTable := .inl rfl
  codesOfTree := .inl rfl
  payloadOk := fun _ h => nomatch h
  running := fun _ => ⟨rfl, rfl, rfl⟩

/-- The invariant holds with an empty table and an empty payload. -/
theorem inv_empty_table (i : Instr) (cap : Nat) :
    Inv (accepted { idle [] cap with ft := some [], pbuf := some [] } i) where
  cfgOk := (by decide : Params.default.WellFormed)
  bufCanonical := List.Pairwise.nil
  bufInside := fun _ h => nomatch h
  tableOk := fun t ht => by
    cases ht
    exact ⟨Nat.zero_le _, List.Pairwise.nil, fun _ h => (nomatch h), fun _ h => (nomatch h),
      fun _ _ h => (nomatch h)⟩
  treeOfTable := .inl rfl
  codesOfTree := .inl rfl
  payloadOk := fun p hp => by
    cases hp
    exact ⟨rfl, Nat.zero_le _⟩
  running := fun _ => ⟨rfl, rfl, rfl⟩

/-- The invariant holds with a one-leaf tree and a payload it cannot walk. -/
theorem inv_one_leaf (i : Instr) (cap : Nat) :
    Inv (accepted
      { idle [] cap with
        status := { (idle [] cap).status with ftMode := .byteSeq }
        ft := some [⟨symA, 5⟩], tree := some (.leaf 0 5), pbuf := some [true] } i) where
  cfgOk := (by decide : Params.default.WellFormed)
  bufCanonical := List.Pairwise.nil
  bufInside := fun _ h => nomatch h
  tableOk := fun t ht => by
    cases ht
    exact ⟨(by decide : ([⟨symA, 5⟩] : Table).length ≤ 256), List.pairwise_singleton _ _,
      (by decide : ∀ e ∈ ([⟨symA, 5⟩] : Table), Machine.Symbol.okFor .byteSeq e.key = true),
      (by decide : ∀ e ∈ ([⟨symA, 5⟩] : Table), e.freq < 2 ^ 63),
      fun _ => (by decide : ∀ e ∈ ([⟨symA, 5⟩] : Table), e.freq < 2 ^ 32)⟩
  treeOfTable := .inr rfl
  codesOfTree := .inl rfl
  payloadOk := fun p hp => by
    cases hp
    exact ⟨rfl, (by decide : [true].length ≤ 524288)⟩
  running := fun _ => ⟨rfl, rfl, rfl⟩

/-- StepRunsLatchedCommand: a latched command with a completion event, an illegal word with an empty
agenda. -/
theorem witness_StepRunsLatchedCommand :
    (∃ s rest, State.coreMoves s rest ∧ s.agenda ≠ [] ∧ s.latch.cmd = encode .pack) ∧
    ∃ s rest, State.coreMoves s rest ∧ s.agenda = [] ∧ ¬ CommandWordOk s.latch.cmd :=
  ⟨⟨before (accepted (stored aaab 64) .pack) .completion, [], ⟨rfl, .inl rfl⟩, by decide, rfl⟩,
    ⟨(idle [] 0).accept 8#32, [], ⟨rfl, .inr ⟨rfl, rfl⟩⟩, rfl, by decide⟩⟩

theorem witness_CmdWriteIsAccepted :
    ∃ s rest, State.nextIs s (.access (.write (.reg 0x04) 32 5#32)) rest ∧ s.status.busy = false :=
  ⟨before (stored aaab 64) (.access (.write (.reg 0x04) 32 5#32)), [], rfl, rfl⟩

theorem witness_CmdWriteWhileBusyIsDropped :
    ∃ s rest, State.nextIs s (.access (.write (.reg 0x04) 32 5#32)) rest ∧ s.status.busy = true :=
  ⟨before (accepted (stored aaab 64) .pack) (.access (.write (.reg 0x04) 32 5#32)), [], rfl, rfl⟩

theorem witness_EveryCommandCompletes :
    ∃ s rest, State.coreMoves s rest ∧ s.latch.cmd = encode .analyze ∧ s.srcValid ∧ s.srcHeld :=
  ⟨accepted (idle aaab 64) .analyze, [], ⟨rfl, .inr ⟨rfl, rfl⟩⟩, rfl, by decide,
    ⟨aaab, by decide⟩⟩

/-- PreCheckErrorChangesOnlyStatus: ILLEGAL_COMMAND, NOT_READY and REGION_FAULT (one byte past the
end of BUF), each in a state that meets the invariant. -/
theorem witness_PreCheckErrorChangesOnlyStatus :
    (∃ s, Inv s ∧ ¬ CommandWordOk s.latch.cmd) ∧
    (∃ s, Inv s ∧ s.latch.cmd = encode .decode ∧ preCheck .decode s = some .notReady) ∧
    ∃ s, Inv s ∧ s.latch.cmd = encode .pack ∧ preCheck .pack s = some .regionFault :=
  ⟨⟨(idle [] 0).accept 8#32, inv_no_stores _ _, by decide⟩,
    ⟨(idle [] 0).accept (encode .decode), inv_no_stores _ _, rfl, by decide⟩,
    ⟨accepted (stored aaab (65536 - 0x100 + 1)) .pack, inv_aaab _ _, rfl, by decide⟩⟩

set_option maxRecDepth 20000 in
/-- ExecutionErrorEffects: an execution error of each command that has one. -/
theorem witness_ExecutionErrorEffects :
    (∃ s t, Inv s ∧ preCheck .analyze s = none ∧ exec .analyze s = .next t ∧
      t.status.errcode ≠ .success) ∧
    (∃ s t, Inv s ∧ preCheck .buildTree s = none ∧ exec .buildTree s = .next t ∧
      t.status.errcode ≠ .success) ∧
    (∃ s t, Inv s ∧ preCheck .encode s = none ∧ exec .encode s = .next t ∧
      t.status.errcode ≠ .success) ∧
    (∃ s t, Inv s ∧ preCheck .pack s = none ∧ exec .pack s = .next t ∧
      t.status.errcode ≠ .success) ∧
    (∃ s t, Inv s ∧ preCheck .unpack s = none ∧ exec .unpack s = .next t ∧
      t.status.errcode ≠ .success) ∧
    (∃ s t, Inv s ∧ preCheck .decode s = none ∧ exec .decode s = .next t ∧
      t.status.errcode ≠ .success) :=
  ⟨⟨(idle [] 0).accept (encode .analyze), _, inv_no_stores _ _, by decide, rfl, by decide⟩,
    ⟨accepted { idle [] 0 with ft := some [], pbuf := some [] } .buildTree, _, inv_empty_table _ _,
      by decide, rfl, by decide⟩,
    ⟨accepted (stored [0x01#8, 0x63#8] 64) .encode, _,
      inv_stored _ _ _ (by decide) (by decide), by decide, rfl, by decide⟩,
    ⟨accepted (stored aaab 14) .pack, _, inv_aaab _ _, by decide, rfl, by decide⟩,
    ⟨(idle [] 0).accept (encode .unpack), _, inv_no_stores _ _, by decide, rfl, by decide⟩,
    ⟨accepted
      { idle [] 0 with
        status := { (idle [] 0).status with ftMode := .byteSeq }
        ft := some [⟨symA, 5⟩], tree := some (.leaf 0 5), pbuf := some [true] } .decode, _,
      inv_one_leaf _ _, by decide, rfl, by decide⟩⟩

/-- LatchedOperandsShieldTheCommand: a command that completes and one that stops. -/
theorem witness_LatchedOperandsShieldTheCommand :
    Reg.srcLen ∈ [Reg.ctrl, .srcBase, .srcLen, .dstBase, .dstCap] ∧
    (∃ s t, completionStep s = .next t) ∧ ∃ s f, completionStep s = .fault f :=
  ⟨by decide, ⟨accepted (idle aaab 64) .analyze, _, rfl⟩,
    ⟨{ accepted (idle aaab 64) .analyze with buf := [] }, _, rfl⟩⟩

theorem witness_AnalyzeCountsSymbols :
    ∃ (s : State) (ks : List Machine.Symbol), ks ≠ [] ∧ (∀ k ∈ ks, k.okFor s.latch.mode = true) ∧
      ks.eraseDups.length = s.cfg.nMax ∧ s.srcValid ∧
      s.srcBytes = some (records s.latch.mode ks) :=
  ⟨{ accepted (idle aaab 64) .analyze with cfg := { Params.default with nMax := 2 } },
    [symA, symA, symA, symB], by decide, by decide, by decide, by decide, by decide⟩

theorem witness_AnalyzePreservesFrequencies :
    ∃ s t, exec .analyze s = .next t ∧ t.status.errcode = .success :=
  ⟨accepted (idle aaab 64) .analyze, _, rfl, by decide⟩

/-- AnalyzeReportsFirstError: an empty source, an ill-formed record after "a", a symbol too many. -/
theorem witness_AnalyzeReportsFirstError :
    (∃ s : State, s.srcValid ∧ s.srcBytes = some []) ∧
    (∃ (s : State) (ks : List Machine.Symbol) (bad : List Byte), s.srcValid ∧
      (∀ k ∈ ks, k.okFor s.latch.mode = true) ∧ bad ≠ [] ∧
      nextSymbol s.latch.mode bad = .raised .badSymbol ∧ ks.eraseDups.length ≤ s.cfg.nMax ∧
      s.srcBytes = some (records s.latch.mode ks ++ bad)) ∧
    ∃ (s : State) (ks : List Machine.Symbol) (k : Machine.Symbol) (tail : List Byte), s.srcValid ∧
      (∀ k ∈ ks, k.okFor s.latch.mode = true) ∧ k.okFor s.latch.mode = true ∧ k ∉ ks ∧
      ks.eraseDups.length = s.cfg.nMax ∧
      s.srcBytes = some (records s.latch.mode (ks ++ [k]) ++ tail) :=
  ⟨⟨accepted (idle [] 0) .analyze, by decide, rfl⟩,
    ⟨accepted (idle [0x01#8, 0x61#8, 0x00#8] 0) .analyze, [symA], [0x00#8], by decide, by decide,
      by decide, by decide, by decide, by decide⟩,
    ⟨{ accepted (idle [0x01#8, 0x61#8, 0x01#8, 0x62#8, 0x00#8] 0) .analyze with
        cfg := { Params.default with nMax := 1 } },
      [symA], symB, [0x00#8], by decide, by decide, by decide, by decide, by decide, by decide⟩⟩

/-- SymbolRecordRoundTrip: the largest symbol of each mode, and a record that is read. -/
theorem witness_SymbolRecordRoundTrip :
    (Machine.Symbol.num (2 ^ 63 - 1)).okFor .numeric = true ∧
    (Machine.Symbol.octets (List.replicate 63 0x78#8)).okFor .byteSeq = true ∧
    nextSymbol .byteSeq aaab = .done (symA, aaab.drop 2) := by decide

/-- BuildTreeStoresTree: a table of two entries, of one entry and of none. -/
theorem witness_BuildTreeStoresTree :
    (∃ s : State, s.ft = some ab ∧ ab ≠ []) ∧ (∃ s : State, s.ft = some []) ∧
    ∃ s : State, s.ft = some [⟨symA, 5⟩] :=
  ⟨⟨stored aaab 64, rfl, by decide⟩, ⟨{ stored aaab 64 with ft := some [] }, rfl⟩,
    ⟨{ stored aaab 64 with ft := some [⟨symA, 5⟩] }, rfl⟩⟩

/-- InsertGoesBeforeEqualFrequency and NewestOfEqualFrequencyIsFirst: a Q in order, with a node of the
inserted node's frequency. -/
theorem witness_Insert :
    [HuffTree.leaf 1 2, .leaf 0 2].Pairwise (fun a b => a.freq ≤ b.freq) ∧
    [HuffTree.leaf 1 2, .leaf 0 2].Pairwise
      (fun a b => a.freq < b.freq ∨ a.freq = b.freq ∧ b.number < a.number) ∧
    ∀ y ∈ [HuffTree.leaf 1 2, .leaf 0 2], y.number < (HuffTree.leaf 2 2).number := by decide

/-- TreeInvariants, TreeNumbering, CodeIsThePathToTheLeaf, CodeLengthsAreBounded: a two-entry table and
a one-entry table, with the last table index. -/
theorem witness_Tree :
    (buildTree ab = some abTree ∧ 1 < ab.length ∧ (2, Node.internal 1 0 4) ∈ abTree.nodes) ∧
    (buildTree [⟨symA, 5⟩] = some (.leaf 0 5) ∧ 0 < ([⟨symA, 5⟩] : Table).length) ∧
    ([] : Bits) <+: codeAt (genCodes abTree) 1 ∧ ([] : Bits) ≠ codeAt (genCodes abTree) 1 := by
  decide

/-- MergeTakesTheTwoSmallest: the tree of R129; when node 5 is made, node 4 is still in Q. -/
theorem witness_MergeTakesTheTwoSmallest :
    ∃ r, buildTree [⟨.num 0, 1⟩, ⟨.num 1, 1⟩, ⟨.num 2, 1⟩, ⟨.num 3, 1⟩] = some r ∧
      (5, Node.internal 1 0 2) ∈ r.nodes ∧ (4, Node.internal 3 2 2) ∈ r.nodes ∧
      ¬ mergedBefore r.nodes 5 4 := by
  refine ⟨_, rfl, by decide, by decide, ?_⟩
  rintro ⟨k, l, m, f, h, hk, hj⟩
  simp [HuffTree.nodes, HuffTree.number] at h
  omega

theorem witness_GenCodesStoresRom : ∃ s : State, s.tree = some abTree := ⟨stored aaab 64, rfl⟩

/-- CodesArePrefixFree: a table of two entries and a table of one. -/
theorem witness_CodesArePrefixFree_one_leaf :
    ∃ s t, Inv s ∧ exec .genCodes s = .next t ∧ t.status.errcode = .success ∧
      t.ft = some [⟨symA, 5⟩] :=
  ⟨accepted
      { idle [] 64 with
        status := { (idle [] 64).status with ftMode := .byteSeq }
        ft := some [⟨symA, 5⟩], tree := some (.leaf 0 5), pbuf := some [true] } .genCodes, _,
    inv_one_leaf _ _, rfl, by decide, rfl⟩

theorem witness_CodesArePrefixFree :
    ∃ s t, Inv s ∧ exec .genCodes s = .next t ∧ t.status.errcode = .success :=
  ⟨accepted (stored aaab 64) .genCodes, _, inv_aaab _ _, rfl, by decide⟩

/-- EncodeConcatenatesCodes: the payload fills PBUF to the last bit. -/
theorem witness_EncodeConcatenatesCodes :
    ∃ (s : State) (ks : List Machine.Symbol), s.ft = some ab ∧ s.crom = some abRom ∧ s.srcValid ∧
      s.srcBytes = some (records s.status.ftMode ks) ∧
      (∀ k ∈ ks, k.okFor s.status.ftMode = true ∧ k ∈ ab.map (·.key)) ∧
      (ks.flatMap (codeOf ab abRom)).length = s.cfg.pbufBits :=
  ⟨{ accepted (stored aaab 64) .encode with cfg := { Params.default with pbufBits := 4 } },
    [symA, symA, symA, symB], rfl, rfl, by decide, by decide, by decide, by decide⟩

/-- EncodeReportsFirstError: an ill-formed record, an unknown symbol, a code too many. -/
theorem witness_EncodeReportsFirstError :
    (∃ (s : State) (bad : List Byte), s.ft = some ab ∧ s.crom = some abRom ∧ s.srcValid ∧ bad ≠ [] ∧
      nextSymbol s.status.ftMode bad = .raised .badSymbol ∧
      s.srcBytes = some (records s.status.ftMode [symA] ++ bad)) ∧
    (∃ (s : State) (k : Machine.Symbol), s.ft = some ab ∧ s.crom = some abRom ∧ s.srcValid ∧
      k.okFor s.status.ftMode = true ∧ k ∉ ab.map (·.key) ∧
      s.srcBytes = some (records s.status.ftMode ([symA] ++ [k]) ++ [])) ∧
    ∃ (s : State) (k : Machine.Symbol), s.ft = some ab ∧ s.crom = some abRom ∧ s.srcValid ∧
      k.okFor s.status.ftMode = true ∧ k ∈ ab.map (·.key) ∧
      ([symA].flatMap (codeOf ab abRom)).length ≤ s.cfg.pbufBits ∧
      s.cfg.pbufBits < (([symA] ++ [k]).flatMap (codeOf ab abRom)).length ∧
      s.srcBytes = some (records s.status.ftMode ([symA] ++ [k]) ++ []) :=
  ⟨⟨accepted (stored [0x01#8, 0x61#8, 0x00#8] 0) .encode, [0x00#8], rfl, rfl, by decide, by decide,
      by decide, by decide⟩,
    ⟨accepted (stored [0x01#8, 0x61#8, 0x01#8, 0x63#8] 0) .encode, .octets [0x63#8], rfl, rfl,
      by decide, by decide, by decide, by decide⟩,
    ⟨{ accepted (stored [0x01#8, 0x61#8, 0x01#8, 0x62#8] 0) .encode with
        cfg := { Params.default with pbufBits := 1 } },
      symB, rfl, rfl, by decide, by decide, by decide, by decide, by decide, by decide⟩⟩

/-- The table bits of vector ST4. -/
def st4 : Bits :=
  zeros 31 ++ [true] ++ [false, false, false, false, true, false] ++ zeros 6 ++ [true, true]

/-- The table bits of vector ST8. -/
def st8 : Bits :=
  [false, false, false, false, true, false] ++ bitsOf [0xC3#8, 0xA9#8] ++ zeros 30 ++ [true, false]
    ++ zeros 6

/-- SerializedTableLayout, TableRoundTrip, TruncatedTableIsIncomplete: a table of each mode (vectors
ST4 and ST8), and a cut one bit short. -/
theorem witness_SerializedTable :
    (serTable .numeric [⟨.num 0, 3⟩] = .done st4 ∧
      (([⟨.num 0, 3⟩] : Table).map (·.key)).Nodup ∧
      (∀ e ∈ ([⟨.num 0, 3⟩] : Table), e.key.okFor .numeric = true) ∧
      st4.dropLast <+: st4 ∧ st4.dropLast ≠ st4) ∧
    (serTable .byteSeq [⟨.octets [0xC3#8, 0xA9#8], 2⟩] = .done st8 ∧
      (([⟨.octets [0xC3#8, 0xA9#8], 2⟩] : Table).map (·.key)).Nodup ∧
      (∀ e ∈ ([⟨.octets [0xC3#8, 0xA9#8], 2⟩] : Table), e.key.okFor .byteSeq = true) ∧
      st8.dropLast <+: st8 ∧ st8.dropLast ≠ st8) := by decide

/-- FieldRangeIsUnreachable: a frequency one above the field (ST10), and a state with a table. -/
theorem witness_FieldRangeIsUnreachable :
    serTable .byteSeq [⟨symA, 2 ^ 32⟩] = .raised .fieldRange ∧
    serTable .numeric [⟨.num (2 ^ 63), 1⟩] = .raised .fieldRange ∧
    symA.okFor .byteSeq = true ∧ ∃ s T, Inv s ∧ s.ft = some T :=
  ⟨by decide, by decide, by decide, ⟨accepted (stored aaab 64) .pack, ab, inv_aaab _ _, rfl⟩⟩

/-- OversizedTableIsRejected: a count of 257 where 256 fit (UP12), and a second record where one
fits. -/
theorem witness_OversizedTableIsRejected :
    (256 < 257 ∧ 257 < 2 ^ 32 ∧ 1 < 64 ∧ 1 < 64) ∧
      ([⟨symA, 1⟩] : Table).length = 1 ∧
      ((([⟨symA, 1⟩] : Table) ++ ([⟨symB, 1⟩] : Table)).map (·.key)).Nodup ∧
      (∀ x ∈ ([⟨symA, 1⟩] : Table) ++ ([⟨symB, 1⟩] : Table), x.key.okFor .byteSeq = true ∧ x.freq < 2 ^ 32) := by
  decide

/-- DuplicateKeyIsRejected: numeric keys of no bits (UP8), and key "a" twice (UP10). -/
theorem witness_DuplicateKeyIsRejected :
    (2 ≤ 256 ∧ 2 < 2 ^ 32 ∧ ([⟨.num 0, 1⟩] : Table).length < 2 ∧ 0 < 64 ∧ 1 < 64 ∧ 0 < 2 ^ 0 ∧
      1 < 2 ^ 1 ∧ (([⟨.num 0, 1⟩] : Table).map (·.key)).Nodup ∧
      Machine.Symbol.num 0 ∈ ([⟨.num 0, 1⟩] : Table).map (·.key)) ∧
    (([⟨symA, 1⟩] : Table).length ≤ 1 ∧ (([⟨symA, 1⟩] : Table).map (·.key)).Nodup ∧
      (∀ e ∈ ([⟨symA, 1⟩] : Table), e.key.okFor .byteSeq = true ∧ e.freq < 2 ^ 32) ∧
      Machine.Symbol.octets [0x61#8] ∈ ([⟨symA, 1⟩] : Table).map (·.key)) := by decide

/-- PackWritesFrame and PackReportsCapacity: the table of "aaab" serializes to 98 bits (ST6), so its
frame takes 15 bytes: it fits 15 and not 14. -/
theorem witness_Pack :
    (∃ (s : State) (tb : Bits), s.ft = some ab ∧ s.pbuf = some abPayload ∧ s.dstValid ∧
      serTable s.status.ftMode ab = .done tb ∧
      frameBytes s.cfg.markerW tb.length abPayload.length = s.latch.args.dstCap.toNat) ∧
    ∃ (s : State) (tb : Bits), s.ft = some ab ∧ s.pbuf = some abPayload ∧ s.dstValid ∧
      serTable s.status.ftMode ab = .done tb ∧
      frameBytes s.cfg.markerW tb.length abPayload.length = s.latch.args.dstCap.toNat + 1 :=
  ⟨⟨accepted (stored aaab 15) .pack, _, rfl, rfl, by decide, rfl, by decide⟩,
    ⟨accepted (stored aaab 14) .pack, _, rfl, rfl, by decide, rfl, by decide⟩⟩

/-- The source of UP15: a header that says F = 8 and K = 8 for the table of key 7 and frequency 3. -/
def wideFrame : List Byte :=
  [0x0A#8, 0x55#8, 0xA0#8, 0x00#8, 0x00#8, 0x00#8, 0x12#8, 0x08#8, 0x07#8, 0x03#8]

/-- UNPACK about to run on `wideFrame` in numeric mode. -/
def wideState : State :=
  accepted { idle wideFrame 0 with ctrl := { mode := .numeric, irqEn := false } } .unpack

set_option maxRecDepth 20000 in
/-- UP15. -/
theorem test_unpack_wide :
    (next? (exec .unpack wideState)).map (fun t => (t.ft, t.pbuf, t.payloadOff)) =
      some (some [⟨.num 7, 3⟩], some [], 80) := by decide

set_option maxRecDepth 20000 in
/-- UnpackRecoversFrame, a header wider than the table needs (UP15). -/
theorem witness_UnpackRecoversFrame_wide :
    wideState.srcValid ∧ wideState.srcBytes = some wideFrame ∧
      TableOk wideState.cfg.nMax wideState.latch.mode [⟨.num 7, 3⟩] ∧
      wideState.latch.mode = .numeric ∧
      (∀ e ∈ ([⟨.num 7, 3⟩] : Table), e.freq < 2 ^ 8 ∧ e.key.value < 2 ^ 8) ∧
      ([] : Bits).length ≤ wideState.cfg.pbufBits ∧
      (u 0x255A 15).length + 1 = wideState.cfg.markerW ∧
      bitsOf wideFrame = zeros 4 ++ true :: u 0x255A 15 ++
        (u 1 32 ++ u 8 6 ++ u 8 6 ++ ([⟨.num 7, 3⟩] : Table).flatMap
          (fun e => u e.key.value 8 ++ u e.freq 8)) ++ [] :=
  ⟨by decide, by decide, ⟨by decide, by decide, by decide, by decide, fun h => nomatch h⟩, rfl,
    by decide, Nat.zero_le _, by decide, by decide⟩

set_option maxRecDepth 20000 in
/-- UnpackRecoversFrame: the frame of "aaab" (PK1). -/
theorem witness_UnpackRecoversFrame :
    ∃ (s : State) (tb : Bits), s.srcValid ∧ s.srcBytes = some abFrame ∧
      TableOk s.cfg.nMax s.latch.mode ab ∧ serTable s.latch.mode ab = .done tb ∧
      abPayload.length ≤ s.cfg.pbufBits ∧ (u 0x255A 15).length + 1 = s.cfg.markerW ∧
      bitsOf abFrame = zeros 2 ++ true :: u 0x255A 15 ++ tb ++ abPayload :=
  ⟨accepted (idle abFrame 64) .unpack, _, by decide, by decide,
    ⟨(by decide : ab.length ≤ 256), by decide, by decide, by decide, by decide⟩, rfl,
    (by decide : abPayload.length ≤ 524288), by decide, by decide⟩

/-- UnpackWithoutFrameIsIncomplete: no 1 bit (UP4), and 8 bits where the marker needs 16 (UP5). -/
theorem witness_UnpackWithoutFrameIsIncomplete :
    (∃ (s : State) (src : List Byte), s.srcValid ∧ s.srcBytes = some src ∧
      bitsOf src = zeros 32) ∧
    ∃ (s : State) (src : List Byte) (marker : Bits), s.srcValid ∧ s.srcBytes = some src ∧
      bitsOf src = zeros 0 ++ true :: marker ∧ marker.length + 1 < s.cfg.markerW :=
  ⟨⟨accepted (idle [0x00#8, 0x00#8, 0x00#8, 0x00#8] 0) .unpack, _, by decide, rfl, by decide⟩,
    ⟨accepted (idle [0xA5#8] 0) .unpack, [0xA5#8], u 0x25 7, by decide, by decide, by decide,
      by decide⟩⟩

set_option maxRecDepth 20000 in
/-- UnpackReportsFirstError: a marker and nothing after it, and a payload of 4 bits where 3 fit. -/
theorem witness_UnpackReportsFirstError :
    (∃ (s : State) (src : List Byte), s.srcValid ∧ s.srcBytes = some src ∧
      (u 0x255A 15).length + 1 = s.cfg.markerW ∧ bitsOf src = zeros 0 ++ true :: u 0x255A 15 ++ [] ∧
      parseTable s.cfg.nMax s.latch.mode [] = .raised .incompleteTable) ∧
    ∃ (s : State) (tb : Bits), s.srcValid ∧ s.srcBytes = some abFrame ∧
      (u 0x255A 15).length + 1 = s.cfg.markerW ∧
      bitsOf abFrame = zeros 2 ++ true :: u 0x255A 15 ++ (tb ++ abPayload) ∧
      parseTable s.cfg.nMax s.latch.mode (tb ++ abPayload) = .done (ab, abPayload) ∧
      s.cfg.pbufBits < abPayload.length :=
  ⟨⟨accepted (idle [0xA5#8, 0x5A#8] 0) .unpack, [0xA5#8, 0x5A#8], by decide, by decide, by decide,
      by decide, by decide⟩,
    ⟨{ accepted (idle abFrame 64) .unpack with cfg := { Params.default with pbufBits := 3 } },
      ((bitsOf abFrame).drop 18).take 98, by decide, by decide, by decide, by decide, by decide,
      by decide⟩⟩

/-- DecodeInvertsCodes: the payload of "aaab" and a destination its records just fit. -/
theorem witness_DecodeInvertsCodes :
    ∃ s : State, s.ft = some ab ∧ s.tree = some abTree ∧ buildTree ab = some abTree ∧
      (∀ i ∈ [0, 0, 0, 1], i < ab.length) ∧
      s.pbuf = some ([0, 0, 0, 1].flatMap (codeAt (genCodes abTree))) ∧ s.dstValid ∧
      ([0, 0, 0, 1].flatMap (recordAt s.status.ftMode ab)).length = s.latch.args.dstCap.toNat :=
  ⟨accepted (stored aaab 8) .decode, rfl, rfl, by decide, by decide, by decide, by decide, by decide⟩

/-- DecodeReportsFirstError: a payload that ends inside a code (codes 00, 01 and 1 of BT8, the tail 0),
a 1 bit under a one-leaf tree (DC7), and records one byte longer than the destination. -/
theorem witness_DecodeReportsFirstError :
    (∃ (T : Table) (r : HuffTree), buildTree T = some r ∧ 2 ≤ T.length ∧ [false] ≠ ([] : Bits) ∧
      [false] <+: codeAt (genCodes r) 0 ∧ [false] ≠ codeAt (genCodes r) 0 ∧
      ∃ s : State, s.ft = some T ∧ s.tree = some r ∧ s.dstValid ∧
        s.pbuf = some ([2].flatMap (codeAt (genCodes r)) ++ [false]) ∧
        ([2].flatMap (recordAt s.status.ftMode T)).length ≤ s.latch.args.dstCap.toNat) ∧
    (∃ s : State, s.ft = some [⟨symA, 5⟩] ∧ s.tree = some (.leaf 0 5) ∧
      buildTree [⟨symA, 5⟩] = some (.leaf 0 5) ∧ s.dstValid ∧
      s.pbuf = some ([0].flatMap (codeAt (genCodes (.leaf 0 5))) ++ [true, false]) ∧
      ([0].flatMap (recordAt s.status.ftMode [⟨symA, 5⟩])).length ≤ s.latch.args.dstCap.toNat) ∧
    ∃ s : State, s.ft = some ab ∧ s.tree = some abTree ∧ s.dstValid ∧
      s.pbuf = some ([0, 0, 0, 1].flatMap (codeAt (genCodes abTree)) ++ []) ∧
      s.latch.args.dstCap.toNat + 1 = ([0, 0, 0, 1].flatMap (recordAt s.status.ftMode ab)).length :=
  ⟨⟨[⟨symA, 1⟩, ⟨symB, 2⟩, ⟨.octets [0x63#8], 3⟩], _, rfl, by decide, by decide, by decide, by decide,
      ⟨{ accepted (stored aaab 2) .decode with
          ft := some [⟨symA, 1⟩, ⟨symB, 2⟩, ⟨.octets [0x63#8], 3⟩]
          tree := buildTree [⟨symA, 1⟩, ⟨symB, 2⟩, ⟨.octets [0x63#8], 3⟩]
          pbuf := some [true, false] },
        rfl, rfl, by decide, rfl, by decide⟩⟩,
    ⟨{ accepted (stored aaab 2) .decode with
        ft := some [⟨symA, 5⟩], tree := some (.leaf 0 5), pbuf := some [false, true, false] },
      rfl, rfl, by decide, by decide, rfl, by decide⟩,
    ⟨accepted (stored aaab 7) .decode, rfl, rfl, by decide, by decide, by decide⟩⟩

set_option maxRecDepth 20000 in
/-- CompressDecompressRoundTrip: "aaab", with every capacity just sufficient, and its frame (PK1) in a
block of the same parameters. -/
theorem witness_CompressDecompressRoundTrip :
    ∃ (s v : State) (ks : List Machine.Symbol) (tb : Bits), s.cfg.WellFormed ∧ ks ≠ [] ∧
      (∀ k ∈ ks, k.okFor s.ctrl.mode = true) ∧ ks.eraseDups.length ≤ s.cfg.nMax ∧
      regionValid s.cfg s.operands.srcBase s.operands.srcLen ∧
      regionValid s.cfg s.operands.dstBase s.operands.dstCap ∧
      s.buf.readBytes s.operands.srcBase.toNat s.operands.srcLen.toNat =
        some (records s.ctrl.mode ks) ∧
      buildTree (tally ks) = some abTree ∧ serTable s.ctrl.mode (tally ks) = .done tb ∧
      (ks.flatMap (codeOf (tally ks) (genCodes abTree))).length = s.cfg.pbufBits ∧
      frameBytes s.cfg.markerW tb.length
        (ks.flatMap (codeOf (tally ks) (genCodes abTree))).length = s.operands.dstCap.toNat ∧
      v.cfg = s.cfg ∧ v.ctrl.mode = s.ctrl.mode ∧
      regionValid v.cfg v.operands.srcBase v.operands.srcLen ∧
      regionValid v.cfg v.operands.dstBase v.operands.dstCap ∧
      (runAll s [.analyze, .buildTree, .genCodes, .encode, .pack]).map (·.resultLen) =
        some v.operands.srcLen ∧
      v.buf.readBytes v.operands.srcBase.toNat abFrame.length = some abFrame ∧
      (records s.ctrl.mode ks).length = v.operands.dstCap.toNat :=
  ⟨{ idle aaab 15 with cfg := { Params.default with pbufBits := 4 } },
    { idle abFrame 8 with cfg := { Params.default with pbufBits := 4 } },
    [symA, symA, symA, symB], _, by decide, by decide, by decide, by decide, by decide, by decide,
    by decide, by decide, rfl, by decide, by decide, rfl, rfl, by decide, by decide, by decide,
    by decide, by decide⟩

/-- TreeCommandsFrame and SourceCommandsFrame: each of the commands answers a next state. -/
theorem witness_Frames :
    (∃ s t, exec .buildTree s = .next t) ∧ (∃ s t, exec .genCodes s = .next t) ∧
    (∃ s t, exec .analyze s = .next t) ∧ (∃ s t, exec .encode s = .next t) ∧
    ∃ s t, exec .unpack s = .next t :=
  ⟨⟨accepted (stored aaab 64) .buildTree, _, rfl⟩, ⟨accepted (stored aaab 64) .genCodes, _, rfl⟩,
    ⟨accepted (stored aaab 64) .analyze, _, rfl⟩, ⟨accepted (stored aaab 64) .encode, _, rfl⟩,
    ⟨accepted (idle abFrame 64) .unpack, _, rfl⟩⟩

set_option maxRecDepth 20000 in
/-- DestinationCommandsFrame: PACK and DECODE that succeed, one that is not ready, one whose region ends
one byte past BUF, and one that fails. -/
theorem witness_DestinationCommandsFrame :
    (∃ s t, exec .pack s = .next t ∧ t.status.errcode = .success) ∧
    (∃ s t, exec .decode s = .next t ∧ t.status.errcode = .success) ∧
    (∃ s t, exec .decode s = .next t ∧ t.status.errcode = .notReady) ∧
    (∃ s t, exec .pack s = .next t ∧ t.status.errcode = .regionFault) ∧
    ∃ s t, exec .decode s = .next t ∧ t.status.errcode = .capacityExceeded :=
  ⟨⟨accepted (stored aaab 15) .pack, _, rfl, by decide⟩,
    ⟨accepted (stored aaab 8) .decode, _, rfl, by decide⟩,
    ⟨accepted (idle aaab 8) .decode, _, rfl, by decide⟩,
    ⟨accepted (stored aaab (65536 - 0x100 + 1)) .pack, _, rfl, by decide⟩,
    ⟨accepted (stored aaab 7) .decode, _, rfl, by decide⟩⟩

/-- CoreTouchesOnlyItsRegions: a command that reads a source, with a BUF that differs outside it, one
that writes a destination, and one without a region. -/
theorem witness_CoreTouchesOnlyItsRegions :
    (∃ s t, ∃ m : Memory, exec .analyze s = .next t ∧ writesDest .analyze = false ∧
      (∀ a < 8, m.read a = s.buf.read a) ∧ (∀ a, s.inSrc a → a < 8) ∧ m ≠ s.buf) ∧
    (∃ s t, exec .decode s = .next t ∧ writesDest .decode = true) ∧
    ∃ s t, exec .buildTree s = .next t ∧ writesDest .buildTree = false ∧
      readsSource .buildTree = false :=
  ⟨⟨accepted (idle aaab 8) .analyze, _, Memory.writeBytes [] 0 (aaab ++ [0x00#8]), rfl, rfl,
      by decide, fun a h => by
        obtain ⟨_, h⟩ := h
        have h8 : (BitVec.ofNat 32 aaab.length).toNat = 8 := by decide
        have : a < 0 + (BitVec.ofNat 32 aaab.length).toNat := h
        omega, by decide⟩,
    ⟨accepted (stored aaab 8) .decode, _, rfl, rfl⟩,
    ⟨accepted (stored aaab 8) .buildTree, _, rfl, rfl, rfl⟩⟩

/-- WritersOfEachStore: a step that changes each store and result register. -/
theorem witness_WritersOfEachStore :
    (∃ s t, step s = .next t ∧ t.status.ftMode ≠ s.status.ftMode ∧ t.ft ≠ s.ft ∧
      t.symCount ≠ s.symCount) ∧
    (∃ s t, step s = .next t ∧ t.tree ≠ s.tree ∧ t.crom ≠ s.crom ∧ t.pbuf ≠ s.pbuf) ∧
    (∃ s t, step s = .next t ∧ t.payloadOff ≠ s.payloadOff) ∧
    ∃ s t, step s = .next t ∧ t.buf ≠ s.buf ∧ t.resultLen ≠ s.resultLen :=
  ⟨⟨accepted (idle aaab 8) .analyze, _, rfl, by decide, by decide, by decide⟩,
    ⟨accepted (stored aaab 8) .analyze, _, rfl, by decide, by decide, by decide⟩,
    ⟨{ accepted (idle [0x29#8, 0x56#8, 0x80#8] 0) .unpack with payloadOff := 1 }, _, rfl, by decide⟩,
    ⟨accepted (stored aaab 8) .decode, _, rfl, by decide, by decide⟩⟩

/-- StickyBitsAndLastop: a step that sets each bit, one that clears each, an acceptance. -/
theorem witness_StickyBitsAndLastop :
    (∃ s t, step s = .next t ∧ s.status.haz = false ∧ t.status.haz = true) ∧
    (∃ s t, step s = .next t ∧ s.status.buserr = false ∧ t.status.buserr = true) ∧
    (∃ s t, step s = .next t ∧ s.status.haz = true ∧ t.status.haz = false ∧
      s.status.buserr = true ∧ t.status.buserr = false) ∧
    ∃ s t, step s = .next t ∧ t.status.lastop ≠ s.status.lastop :=
  ⟨⟨before (accepted (idle aaab 8) .analyze) (.access (.write (.buf 0) 8 0)), _, rfl, rfl, rfl⟩,
    ⟨before (idle aaab 8) (.access (.read (.reg 0x44) 32)), _, rfl, rfl, rfl⟩,
    ⟨before { idle aaab 8 with status := { (idle aaab 8).status with haz := true, buserr := true } }
        (.access (.write (.reg 0x08) 32 0x1A#32)), _, rfl, rfl, rfl, rfl, rfl⟩,
    ⟨before (idle aaab 8) (.access (.write (.reg 0x04) 32 7#32)), _, rfl, by decide⟩⟩

/-- IrqIsLevelOfDone: a completion, an acceptance, an acknowledgement and a write of CTRL, each of which
moves IRQ (HA10, HA11). -/
theorem witness_IrqIsLevelOfDone :
    (∃ s t, step s = .next t ∧ (∃ rest, s.coreMoves rest) ∧ t.irq ≠ s.irq) ∧
    (∃ s t, step s = .next t ∧ s.writes .cmd 1#32 ∧ s.status.busy = false ∧ t.irq ≠ s.irq) ∧
    (∃ s t, step s = .next t ∧ s.writes .status 2#32 ∧ t.irq ≠ s.irq) ∧
    ∃ s t, step s = .next t ∧ s.writes .ctrl 2#32 ∧ t.irq ≠ s.irq :=
  ⟨⟨accepted (idle aaab 8) .analyze, _, rfl, ⟨[], rfl, .inr ⟨rfl, rfl⟩⟩, by decide⟩,
    ⟨before { idle aaab 8 with status := { (idle aaab 8).status with done := true } }
        (.access (.write (.reg 0x04) 32 1#32)), _, rfl, ⟨_, _, _, rfl, rfl⟩, rfl, by decide⟩,
    ⟨before { idle aaab 8 with status := { (idle aaab 8).status with done := true } }
        (.access (.write (.reg 0x08) 32 2#32)), _, rfl, ⟨_, _, _, rfl, rfl⟩, by decide⟩,
    ⟨before
        { idle aaab 8 with
          ctrl := { mode := .byteSeq, irqEn := false }
          status := { (idle aaab 8).status with done := true } }
        (.access (.write (.reg 0x00) 32 2#32)), _, rfl, ⟨_, _, _, rfl, rfl⟩, by decide⟩⟩

/-- StopsOnlyOnBytesWithoutValue: a command and a host read of bytes that hold no value; a source of
one byte that holds none, the first byte of BUF. -/
theorem witness_StopsOnlyOnBytesWithoutValue :
    (∃ s f, step s = .fault f ∧ s.status.busy = true) ∧
    (∃ s f, step s = .fault f ∧ s.status.busy = false) ∧
    (∃ s : State, Inv s ∧ s.completes .analyze ∧ readsSource .analyze = true ∧
      preCheck .analyze s = none ∧ ∃ a, s.inSrc a ∧ s.buf.read a = none) ∧
    (∃ (s : State) (rest : List Event), s.status.busy = false ∧ s.nextIs (.access (.read (.buf 65535) 8)) rest ∧
      target s.cfg (.buf 65535) 8 = .bufByte 65535 ∧
      ∃ x, inRegion 65535 1 x ∧ s.buf.read x = none) ∧
    ∃ (s : State) (rest : List Event), s.status.busy = false ∧ s.nextIs (.access (.read (.buf 65532) 32)) rest ∧
      target s.cfg (.buf 65532) 32 = .bufWord 65532 ∧
      ∃ x, inRegion 65532 4 x ∧ s.buf.read x = none :=
  ⟨⟨{ accepted (idle aaab 8) .analyze with buf := [] }, _, rfl, rfl⟩,
    ⟨before State.reset (.access (.read (.buf 65532) 32)), _, rfl, rfl⟩,
    ⟨State.accept
        { State.reset with operands := { Operands.zero with srcLen := 1 } } (encode .analyze),
      ⟨(by decide : Params.default.WellFormed), List.Pairwise.nil, fun _ h => (nomatch h),
        fun _ h => (nomatch h), .inl rfl, .inl rfl, fun _ h => (nomatch h),
        fun _ => ⟨rfl, rfl, rfl⟩⟩,
      ⟨⟨[], rfl, .inr ⟨rfl, rfl⟩⟩, rfl⟩, rfl, by decide, 0, by decide, rfl⟩,
    ⟨before State.reset _, [], rfl, rfl, by decide, 65535, by decide, rfl⟩,
    ⟨before State.reset _, [], rfl, rfl, by decide, 65533, by decide, rfl⟩⟩

/-- InvHoldsAtReset: parameters other than the defaults. -/
theorem witness_InvHoldsAtReset :
    ({ nMax := 1, bufBytes := 1, pbufBits := 1, markerW := 1, marker := 1#32,
       blockBase := 0x20000 } : Params).WellFormed := by decide

/-- StepKeepsInv: a step from a state that meets the invariant and has every store. -/
theorem witness_StepKeepsInv : ∃ s t, Inv s ∧ step s = .next t ∧ s.ft.isSome ∧ s.crom.isSome :=
  ⟨accepted (stored aaab 64) .encode, _, inv_aaab _ _, rfl, rfl, rfl⟩

theorem witness_RegisterAccesses :
    (∃ s rest, State.nextIs s (.access (.write (.reg 0x08) 32 0x1A#32)) rest) ∧
    (∃ s rest, State.nextIs s (.access (.read (.reg Reg.cfgMarkerW.offset) 32)) rest) ∧
    (∃ s rest, State.nextIs s (.access (.write (.reg 0x00) 32 0xFFFFFFFF#32)) rest) ∧
    (∃ s rest, State.nextIs s (.access (.write (.reg 0x0C) 32 1#32)) rest) ∧
    (∃ s rest, State.nextIs s (.access (.write (.reg 0x10) 32 1#32)) rest) ∧
    (∃ s rest, State.nextIs s (.access (.write (.reg 0x14) 32 1#32)) rest) ∧
    ∃ s rest, State.nextIs s (.access (.write (.reg 0x18) 32 1#32)) rest :=
  ⟨⟨before State.reset _, [], rfl⟩, ⟨before State.reset _, [], rfl⟩, ⟨before State.reset _, [], rfl⟩,
    ⟨before State.reset _, [], rfl⟩, ⟨before State.reset _, [], rfl⟩, ⟨before State.reset _, [], rfl⟩,
    ⟨before State.reset _, [], rfl⟩⟩

/-- BufAccessIsBigEndian: the last byte and the last word of BUF, and bytes that hold values. -/
theorem witness_BufAccessIsBigEndian :
    (∃ (s : State) (rest : List Event), s.status.busy = false ∧ 65535 < s.cfg.bufBytes ∧
      s.nextIs (.access (.write (.buf 65535) 8 0xFF#32)) rest) ∧
    (∃ (s : State) (rest : List Event), s.status.busy = false ∧ s.buf.read 7 = some 0x62#8 ∧ 7 < s.cfg.bufBytes ∧
      s.nextIs (.access (.read (.buf 7) 8)) rest) ∧
    (∃ (s : State) (rest : List Event), s.status.busy = false ∧ 65532 % 4 = 0 ∧ 65532 + 4 ≤ s.cfg.bufBytes ∧
      s.nextIs (.access (.write (.buf 65532) 32 0xFF#32)) rest) ∧
    ∃ (s : State) (rest : List Event), s.status.busy = false ∧ 4 % 4 = 0 ∧ 4 + 4 ≤ s.cfg.bufBytes ∧
      s.buf.read 4 = some 0x01#8 ∧ s.buf.read (4 + 1) = some 0x61#8 ∧
      s.buf.read (4 + 2) = some 0x01#8 ∧ s.buf.read (4 + 3) = some 0x62#8 ∧
      s.nextIs (.access (.read (.buf 4) 32)) rest :=
  ⟨⟨before (idle aaab 8) _, [], rfl, by decide, rfl⟩,
    ⟨before (idle aaab 8) _, [], rfl, by decide, by decide, rfl⟩,
    ⟨before (idle aaab 8) _, [], rfl, by decide, by decide, rfl⟩,
    ⟨before (idle aaab 8) _, [], rfl, by decide, by decide, by decide, by decide, by decide, by decide,
      rfl⟩⟩

/-- IllFormedAccessSetsBuserr: a width, an alignment, an offset past the last register (HA1), a BUF
address past the end (HA6), an unaligned BUF word (HA4), and the first and last RO registers (HA2). -/
theorem witness_IllFormedAccessSetsBuserr :
    (16 ≠ 32) ∧ (2 % 4 ≠ 0) ∧ (0x44 ≤ 0x44) ∧
    (¬ (8 = 8 ∧ 65536 < Params.default.bufBytes) ∧
      ¬ (8 = 32 ∧ 65536 % 4 = 0 ∧ 65536 + 4 ≤ Params.default.bufBytes)) ∧
    (¬ (32 = 8 ∧ 2 < Params.default.bufBytes) ∧
      ¬ (32 = 32 ∧ 2 % 4 = 0 ∧ 2 + 4 ≤ Params.default.bufBytes)) ∧
    (0x1C ≤ 0x1C ∧ 0x1C < 0x44 ∧ 0x1C % 4 = 0) ∧ (0x1C ≤ 0x40 ∧ 0x40 < 0x44 ∧ 0x40 % 4 = 0) ∧
    (∃ (s : State) (rest : List Event), s.status.busy = false ∧ s.cfg = Params.default ∧
      s.nextIs (.access (.read (.buf 65536) 8)) rest) ∧
    (∃ (s : State) (rest : List Event), s.status.busy = false ∧ s.cfg = Params.default ∧
      s.nextIs (.access (.write (.buf 2) 32 0#32)) rest) ∧
    ∃ s rest, State.nextIs s (.access (.write (.reg 0x1C) 32 5#32)) rest :=
  ⟨by decide, by decide, by decide, by decide, by decide, by decide, by decide,
    ⟨before State.reset _, [], rfl, rfl, rfl⟩, ⟨before State.reset _, [], rfl, rfl, rfl⟩,
    ⟨before State.reset _, [], rfl⟩⟩

/-- BufIsLockedWhileBusy: a well-formed access of each width (HA8), and an ill-formed one. -/
theorem witness_BufIsLockedWhileBusy :
    (∃ (s : State) (rest : List Event), s.status.busy = true ∧ 65535 < s.cfg.bufBytes ∧
      s.nextIs (.access (.write (.buf 65535) 8 0#32)) rest) ∧
    (∃ (s : State) (rest : List Event), s.status.busy = true ∧ 65532 + 4 ≤ s.cfg.bufBytes ∧
      s.nextIs (.access (.read (.buf 65532) 32)) rest) ∧
    ∃ (s : State) (rest : List Event), s.status.busy = true ∧ s.nextIs (.access (.read (.buf 65536) 8)) rest :=
  ⟨⟨before (accepted (idle aaab 8) .analyze) _, [], rfl, by decide, rfl⟩,
    ⟨before (accepted (idle aaab 8) .analyze) _, [], rfl, by decide, rfl⟩,
    ⟨before (accepted (idle aaab 8) .analyze) _, [], rfl, rfl⟩⟩

/-- AddressDecode: the last offset of each window, and the addresses just outside the block. -/
theorem witness_AddressDecode :
    (0xFFFF < 0x10000 ∧ ∃ s : State, 0xFFFF = s.cfg.blockBase + 0xFFFF) ∧
    (∃ s : State, 0x1FFFF = s.cfg.blockBase + 0x10000 + 0xFFFF) ∧
    (∃ s : State, s.cfg.blockBase + 0x1FFFF < 0x20000) ∧
    ∃ s : State, 0x1FFFF < s.cfg.blockBase :=
  ⟨⟨by decide, State.reset, by decide⟩, ⟨State.reset, by decide⟩, ⟨State.reset, by decide⟩,
    ⟨State.resetWith { Params.default with blockBase := 0x20000 }, by decide⟩⟩

/-- ResetState: a reset during a DECODE whose pre-checks pass, the last byte of its destination region
among them, and one during a command that writes no byte of BUF. -/
theorem witness_ResetState :
    (∃ (s : State) (rest : List Event), s.nextIs .reset rest ∧ s.status.busy = true ∧
      s.inDst s.latch.args.dstCap.toNat 0x107 ∧ s.latch.cmd = encode .decode ∧
      writesDest .decode = true ∧ preCheck .decode s = none) ∧
    ∃ (s : State) (rest : List Event), s.nextIs .reset rest ∧ s.status.busy = true ∧ s.latch.cmd = encode .analyze :=
  ⟨⟨before (accepted (stored aaab 8) .decode) .reset, [], rfl, rfl, by decide, rfl, rfl, by decide⟩,
    ⟨before (accepted (idle aaab 8) .analyze) .reset, [], rfl, rfl, rfl⟩⟩

/-- WaitReadsStatusUntilIdle and RunWaitsForCompletion: a running block, an idle one, and an idle one
whose command completes. -/
theorem witness_Scripts :
    (∃ s : State, s.status.busy = true) ∧
    ∃ (s t : State) (i : Instr), s.status.busy = false ∧ runCommand s i = some t :=
  ⟨⟨accepted (idle aaab 8) .analyze, rfl⟩, ⟨idle aaab 8, _, .analyze, rfl, rfl⟩⟩

end Sys2Proof.Tests
end

section
/-! PROOFS. What the invariant needs: the completion step, every command and every host access keep it,
so every step does (spec/10_state.md R30, R31, R34, R38). -/

namespace Sys2Proof.Machine

/-! ### What the completion step and a host access can do -/

/-- The completion step reports an illegal word, or runs the latched command (60_exceptions.md R246). -/
theorem completionStep_cases {s t : State} (h : completionStep s = .next t) :
    t = s.finish .illegalCommand ∨ ∃ i, s.latch.cmd = encode i ∧ exec i s = .next t := by
  unfold completionStep at h
  split at h
  · next i hd => exact .inr ⟨i, (encode_of_decode hd).symm, h⟩
  · cases h; exact .inl rfl

/-- All that `t` differs from `s` in, of STATUS and the latch, is that HAZ or BUSERR may have been
set. -/
def StickyOnly (s t : State) : Prop :=
  t.latch = s.latch ∧ ∃ haz buserr : Bool, t.status =
    { s.status with haz := s.status.haz || haz, buserr := s.status.buserr || buserr }

theorem stickyOnly_of_status {s t : State} (hl : t.latch = s.latch) (hs : t.status = s.status) :
    StickyOnly s t :=
  ⟨hl, false, false, by simp [hs]⟩

theorem setHaz_stickyOnly (s : State) : StickyOnly s s.setHaz := ⟨rfl, true, false, by simp⟩

theorem setBuserr_stickyOnly (s : State) : StickyOnly s s.setBuserr := ⟨rfl, false, true, by simp⟩

theorem illFormedBuf_stickyOnly (s : State) : StickyOnly s s.illFormedBuf := by
  unfold State.illFormedBuf
  split
  · exact ⟨rfl, _, _, rfl⟩
  · exact setBuserr_stickyOnly s

theorem hostWriteBuf_stickyOnly (s : State) (a n : Nat) (d : Word) :
    StickyOnly s (s.hostWriteBuf a n d) := by
  unfold State.hostWriteBuf
  split
  · exact setHaz_stickyOnly s
  · exact stickyOnly_of_status rfl rfl

theorem hostReadBuf_stickyOnly {s t : State} {a n : Nat} (h : s.hostReadBuf a n = .next t) :
    StickyOnly s t := by
  rcases hostReadBuf_next h with ⟨_, rfl⟩ | ⟨_, _, _, rfl⟩
  · exact setHaz_stickyOnly s
  · exact stickyOnly_of_status rfl rfl

theorem writeStatus_latch (s : State) (d : Word) : (s.writeStatus d).latch = s.latch := by
  unfold State.writeStatus
  split <;> rfl

theorem writeStatus_status (s : State) (d : Word) : (s.writeStatus d).status =
    { s.status with
      done := s.status.done && !d.getLsbD 1
      haz := s.status.haz && !d.getLsbD 3
      buserr := s.status.buserr && !d.getLsbD 4 } := by
  unfold State.writeStatus
  cases hd : d.getLsbD 1 <;>
    simp only [Bool.false_eq_true, ↓reduceIte, State.clearSticky_status, State.acknowledge_status,
      Bool.not_false, Bool.not_true, Bool.and_true, Bool.and_false]

/-- What a write to a register does to STATUS and the latch: an acceptance, a W1C write to STATUS, or
at most a sticky bit (10_state.md R40). -/
theorem writeReg_status_cases (s : State) (r : Reg) (d : Word) :
    (r = .cmd ∧ s.status.busy = false ∧ s.writeReg r d = s.accept d) ∨
    (r = .status ∧ s.writeReg r d = s.writeStatus d) ∨ StickyOnly s (s.writeReg r d) := by
  cases r with
  | ctrl | srcBase | srcLen | dstBase | dstCap =>
    exact .inr (.inr (stickyOnly_of_status rfl rfl))
  | resultLen | symCount | tableCount | pbitLen | payloadOff | cfgNmax | cfgBufbytes | cfgPbufbits
  | cfgMarker | cfgMarkerW =>
    exact .inr (.inr (setBuserr_stickyOnly s))
  | status => exact .inr (.inl ⟨rfl, rfl⟩)
  | cmd =>
    cases hb : s.status.busy with
    | true =>
      have hw : s.writeReg .cmd d = s.setHaz := if_pos hb
      rw [hw]
      exact .inr (.inr (setHaz_stickyOnly s))
    | false => exact .inl ⟨rfl, rfl, if_neg (by simp [hb])⟩

/-- What a host access does to STATUS and the latch: the same three cases (10_state.md R40). -/
theorem hostAccess_status_cases {a : Access} {s t : State} (h : hostAccess a s = .next t) :
    (∃ p w d, a = .write p w d ∧ target s.cfg p w = .reg .cmd ∧ s.status.busy = false ∧
      t = (s.accept d).answer none) ∨
    (∃ p w d, a = .write p w d ∧ target s.cfg p w = .reg .status ∧
      t = (s.writeStatus d).answer none) ∨ StickyOnly s t := by
  cases a with
  | read p w =>
    refine .inr (.inr ?_)
    simp only [hostAccess, State.hostRead] at h
    split at h
    · cases h; exact stickyOnly_of_status rfl rfl
    · exact hostReadBuf_stickyOnly h
    · exact hostReadBuf_stickyOnly h
    · cases h; exact setBuserr_stickyOnly s
    · cases h; exact illFormedBuf_stickyOnly s
    · cases h; exact stickyOnly_of_status rfl rfl
  | write p w d =>
    obtain rfl : s.hostWrite p w d = t := by cases h; rfl
    unfold State.hostWrite
    split
    · next r hr =>
      rcases writeReg_status_cases s r d with ⟨rfl, hb, hw⟩ | ⟨rfl, hw⟩ | hw
      · exact .inl ⟨p, w, d, rfl, hr, hb, by rw [hw]⟩
      · exact .inr (.inl ⟨p, w, d, rfl, hr, by rw [hw]⟩)
      · exact .inr (.inr hw)
    · exact .inr (.inr (hostWriteBuf_stickyOnly s _ _ d))
    · exact .inr (.inr (hostWriteBuf_stickyOnly s _ _ d))
    · exact .inr (.inr (setBuserr_stickyOnly s))
    · exact .inr (.inr (illFormedBuf_stickyOnly s))
    · exact .inr (.inr (stickyOnly_of_status rfl rfl))

/-! ### The invariant -/

/-- The invariant says nothing of the agenda. -/
theorem agenda_inv {s : State} (h : Inv s) (rest : List Event) : Inv { s with agenda := rest } :=
  ⟨h.cfgOk, h.bufCanonical, h.bufInside, h.tableOk, h.treeOfTable, h.codesOfTree, h.payloadOk,
    h.running⟩

/-- Every command keeps the invariant, whether it ends well or reports an error. -/
theorem exec_inv {i : Instr} {s t : State} (h : Inv s) (he : exec i s = .next t) : Inv t := by
  cases i with
  | analyze =>
    rcases execAnalyze_cases he with ⟨_, rfl⟩ | ⟨_, _, hs, ⟨e, _, rfl⟩ | ⟨T, n, ha, rfl⟩⟩
    · exact finish_inv h _
    · exact analyze_raise_inv h e
    · exact analyze_store_inv h hs ha _
  | buildTree =>
    rcases execBuildTree_cases he with ⟨_, rfl⟩ | ⟨_, hT, ⟨_, rfl⟩ | ⟨r, hr, rfl⟩⟩
    · exact finish_inv h _
    · exact buildTree_raise_inv h _
    · exact storeTree_inv h hT hr _
  | genCodes =>
    rcases execGenCodes_cases he with ⟨_, rfl⟩ | ⟨r, hr, rfl⟩
    · exact finish_inv h _
    · exact storeCodes_inv h hr _
  | encode =>
    rcases execEncode_cases he with
      ⟨_, rfl⟩ | ⟨_, _, hT, _, ⟨_, rfl⟩ | ⟨_, _, _, ⟨e, _, rfl⟩ | ⟨p, n, hp, rfl⟩⟩⟩
    · exact finish_inv h _
    · exact finish_inv h _
    · exact encode_raise_inv h e
    · exact storePayload_inv h hT (encodeSource_done hp) n _
  | pack =>
    rcases execPack_cases he with
      ⟨_, rfl⟩ | ⟨_, _, _, _, ⟨_, rfl⟩ | ⟨hv, ⟨e, _, rfl⟩ | ⟨bs, hb, rfl⟩⟩⟩
    · exact finish_inv h _
    · exact finish_inv h _
    · exact pack_raise_inv h hv e
    · exact storeFrame_inv h hv (packFrame_done hb) _
  | unpack =>
    rcases execUnpack_cases he with ⟨_, rfl⟩ | ⟨_, _, _, ⟨e, _, rfl⟩ | ⟨T, p, hu, rfl⟩⟩
    · exact finish_inv h _
    · exact unpack_raise_inv h e
    · obtain ⟨hT, hp⟩ := unpackFrame_done hu
      exact storeUnpacked_inv h hT hp _ _
  | decode =>
    rcases execDecode_cases he with
      ⟨_, rfl⟩ | ⟨_, _, _, _, _, _, ⟨_, rfl⟩ | ⟨hv, ⟨e, _, rfl⟩ | ⟨d, hd, rfl⟩⟩⟩
    · exact finish_inv h _
    · exact finish_inv h _
    · exact decode_raise_inv h hv e
    · exact storeDecoded_inv h hv (decodePayload_done hd) _

theorem completionStep_inv {s t : State} (h : Inv s) (hc : completionStep s = .next t) : Inv t := by
  rcases completionStep_cases hc with rfl | ⟨_, _, he⟩
  · exact finish_inv h _
  · exact exec_inv h he

/-- A host access keeps BUF canonical and inside its bounds. -/
theorem hostAccess_bufOk {a : Access} {s t : State} (h : Inv s) (ht : hostAccess a s = .next t) :
    t.buf.wf ∧ t.buf.below s.cfg.bufBytes := by
  rcases hostAccess_buf ht with hb | ⟨_, _, hb⟩
  · rw [hb]; exact ⟨h.bufCanonical, h.bufInside⟩
  · exact hb h.bufCanonical h.bufInside

/-- After a host access a running command has no report yet, and LASTOP is its own: an acceptance makes
it so, and no other access sets DONE or changes BUSY, ERRCODE, LASTOP or the latch. -/
theorem hostAccess_running {a : Access} {s t : State} (h : Inv s) (ht : hostAccess a s = .next t)
    (hb : t.status.busy = true) :
    t.status.done = false ∧ t.status.errcode = .success ∧ t.status.lastop = opField t.latch.cmd := by
  rcases hostAccess_status_cases ht with ⟨_, _, d, _, _, _, rfl⟩ | ⟨_, _, d, _, _, rfl⟩ |
    ⟨hl, _, _, hs⟩
  · exact ⟨rfl, rfl, rfl⟩
  · simp only [State.answer_status, State.answer_latch, writeStatus_status, writeStatus_latch] at hb ⊢
    obtain ⟨hd, hr⟩ := h.running hb
    exact ⟨by rw [hd]; rfl, hr⟩
  · rw [hs] at hb ⊢
    rw [hl]
    exact h.running hb

theorem hostAccess_inv {a : Access} {s t : State} (h : Inv s) (ht : hostAccess a s = .next t) :
    Inv t := by
  have ha := hostAccess_accessed ht
  obtain ⟨hwf, hbelow⟩ := hostAccess_bufOk h ht
  exact
    { cfgOk := by rw [ha.cfg]; exact h.cfgOk
      bufCanonical := hwf
      bufInside := by rw [ha.cfg]; exact hbelow
      tableOk := by rw [ha.ft, ha.cfg, ha.ftMode]; exact h.tableOk
      treeOfTable := by rw [ha.tree, ha.ft]; exact h.treeOfTable
      codesOfTree := by rw [ha.crom, ha.tree]; exact h.codesOfTree
      payloadOk := by rw [ha.pbuf, ha.ft, ha.cfg]; exact h.payloadOk
      running := hostAccess_running h ht }

/-- Settles O48: the completion step, a host access and a reset each keep the invariant, and an idle
core turn changes at most the agenda. -/
theorem stepKeepsInv : Obligations.StepKeepsInv := by
  unfold Obligations.StepKeepsInv
  intro s t h hs
  rcases step_cases hs with ⟨rest, _, hc⟩ | ⟨_, ⟨_, rfl⟩ | ⟨rest, _, rfl⟩⟩ | ⟨rest, _, rfl⟩ |
    ⟨a, rest, _, ha⟩
  · exact completionStep_inv (agenda_inv h rest) hc
  · exact h
  · exact agenda_inv h rest
  · exact platformReset_inv (agenda_inv h rest)
  · exact hostAccess_inv (agenda_inv h rest) ha

/-- The reset state meets the invariant for every legal choice of the parameters: every store is empty
and no command runs (10_state.md R41). -/
theorem resetWith_inv {cfg : Params} (h : cfg.WellFormed) : Inv (State.resetWith cfg) :=
  ⟨h, List.Pairwise.nil, fun _ hc => (nomatch hc), fun _ ht => (nomatch ht), .inl rfl, .inl rfl,
    fun _ hp => (nomatch hp), fun hb => nomatch hb⟩

/-- Settles O47: the default parameters are a legal choice (00_scope.md R9). -/
theorem invHoldsAtReset : Obligations.InvHoldsAtReset := by
  unfold Obligations.InvHoldsAtReset
  exact ⟨resetWith_inv (by decide), fun _ h => resetWith_inv h⟩

end Sys2Proof.Machine
end

section
/-! PROOFS. The registers of the window as one host access reads and writes them
(spec/10_state.md R22 to R29, R37; spec/20_memory.md R53, R62). -/

namespace Sys2Proof.Machine

/-- A step whose event is a 32-bit write of a register does that write and answers no data. -/
theorem step_writeReg {s : State} {r : Reg} {d : Word} {rest : List Event}
    (h : s.nextIs (.access (.write (.reg r.offset) 32 d)) rest) :
    step s = .next ((({ s with agenda := rest } : State).writeReg r d).answer none) := by
  rw [step_cons h]
  simp only [runEvent, hostAccess, State.hostWrite, target_reg]

/-- A step whose event is a 32-bit read of a register answers its value. -/
theorem step_readReg {s : State} {r : Reg} {rest : List Event}
    (h : s.nextIs (.access (.read (.reg r.offset) 32)) rest) :
    step s = .next (({ s with agenda := rest } : State).answer (some (s.readReg r))) := by
  rw [step_cons h]
  simp only [runEvent, hostAccess, State.hostRead, target_reg]
  cases r <;> rfl

/-- A write to STATUS changes its W1C bits and nothing else (10_state.md R25). -/
theorem writeStatus_eq (s : State) (d : Word) : s.writeStatus d =
    { s with
      status :=
        { s.status with
          done := s.status.done && !d.getLsbD 1
          haz := s.status.haz && !d.getLsbD 3
          buserr := s.status.buserr && !d.getLsbD 4 } } := by
  rw [← writeStatus_status]
  unfold State.writeStatus
  split <;> rfl

/-- CTRL reads as MODE in bit 0 and IRQ_EN in bit 1 (10_state.md R23). -/
theorem ctrlWord_eq (c : Ctrl) :
    c.word = (if c.mode = .byteSeq then 1 else 0) ||| (if c.irqEn then 2 else 0) := by
  obtain ⟨m, e⟩ := c
  cases m <;> cases e <;> decide

/-- TABLE_COUNT is the length of FT, 0 while there is none (10_state.md R29). -/
theorem tableCount_eq (s : State) :
    s.tableCount = BitVec.ofNat 32 ((s.ft.map List.length).getD 0) := by
  unfold State.tableCount
  cases s.ft <;> rfl

/-- PBIT_LEN is the length of PBUF, 0 while there is none (10_state.md R29). -/
theorem pbitLen_eq (s : State) :
    s.pbitLen = BitVec.ofNat 32 ((s.pbuf.map List.length).getD 0) := by
  unfold State.pbitLen
  cases s.pbuf <;> rfl

/-- Settles O50: every register but CTRL and the two counts reads as its field by definition. -/
theorem registerReads : Obligations.RegisterReads := by
  unfold Obligations.RegisterReads
  intro s r rest h
  rw [step_readReg h]
  cases r with
  | ctrl => simp only [State.readReg, ctrlWord_eq]; rfl
  | tableCount => simp only [State.readReg, tableCount_eq]; rfl
  | pbitLen => simp only [State.readReg, pbitLen_eq]; rfl
  | _ => rfl

/-- Settles O51: each offset is that of its register. -/
theorem registerWrites : Obligations.RegisterWrites := by
  unfold Obligations.RegisterWrites
  intro s d rest
  refine ⟨fun h => ?_, fun h => ?_, fun h => ?_, fun h => ?_, fun h => ?_⟩
  · exact step_writeReg (r := .ctrl) h
  · exact step_writeReg (r := .srcBase) h
  · exact step_writeReg (r := .srcLen) h
  · exact step_writeReg (r := .dstBase) h
  · exact step_writeReg (r := .dstCap) h

/-- Each field of STATUS by its position (10_state.md R25): the fields below it are dropped one by one
until it is the lowest. -/
theorem statusWord_fields (s : State) :
    s.statusWord.getLsbD 0 = s.status.busy ∧ s.statusWord.getLsbD 1 = s.status.done ∧
    s.statusWord.getLsbD 2 = decide (s.status.errcode ≠ .success) ∧
    s.statusWord.getLsbD 3 = s.status.haz ∧ s.statusWord.getLsbD 4 = s.status.buserr ∧
    s.statusWord.extractLsb 7 5 = 0#3 ∧
    s.statusWord.extractLsb 11 8 = s.status.errcode.code ∧
    s.statusWord.extractLsb 15 12 = s.status.lastop ∧
    s.statusWord.getLsbD 16 = s.ft.isSome ∧ s.statusWord.getLsbD 17 = s.tree.isSome ∧
    s.statusWord.getLsbD 18 = s.crom.isSome ∧ s.statusWord.getLsbD 19 = s.pbuf.isSome ∧
    s.statusWord.getLsbD 20 = s.status.ftMode.bit ∧ s.statusWord.extractLsb 31 21 = 0#11 := by
  unfold State.statusWord BitVec.extractLsb
  refine ⟨?_, ?_, ?_, ?_, ?_, ?_, ?_, ?_, ?_, ?_, ?_, ?_, ?_, ?_⟩
  all_goals
    simp (disch := omega) only [BitVec.getLsbD_append, BitVec.getLsbD_ofBool,
      BitVec.extractLsb'_append_eq_of_le, BitVec.extractLsb'_append_eq_right, BitVec.extractLsb'_eq_self,
      Nat.reduceLT, Nat.reduceSub, ↓reduceIte, decide_true, Bool.true_and]
  all_goals rfl

/-- Settles O49: the word is read field by field, and the write changes the W1C bits alone. -/
theorem statusReadsAndClears : Obligations.StatusReadsAndClears := by
  unfold Obligations.StatusReadsAndClears
  refine ⟨statusWord_fields, fun s d rest h => ?_⟩
  rw [step_writeReg (r := .status) h]
  simp only [State.writeReg, writeStatus_eq]
  rfl

end Sys2Proof.Machine
end

section
/-! PROOFS. Who writes what: the sticky bits and LASTOP (spec/10_state.md R40), and the stores, result
registers and parameters (R29, R30, R33, R37, R39). -/

namespace Sys2Proof.Machine

/-- Settles O44: a completion keeps the three, a reset clears them, and a host access sets at most a
sticky bit unless it is an acceptance or a write to STATUS. -/
theorem stickyBitsAndLastop : Obligations.StickyBitsAndLastop := by
  unfold Obligations.StickyBitsAndLastop
  intro s t h
  rcases step_cases h with ⟨rest, _, hc⟩ | ⟨_, ⟨_, rfl⟩ | ⟨rest, _, rfl⟩⟩ | ⟨rest, hr, rfl⟩ |
    ⟨a, rest, ha, hacc⟩
  · obtain ⟨hhaz, hbuserr, hlastop⟩ :
        t.status.haz = s.status.haz ∧ t.status.buserr = s.status.buserr ∧
          t.status.lastop = s.status.lastop :=
      have hd := completionStep_completed hc
      ⟨hd.haz, hd.buserr, hd.lastop⟩
    simp_all
  · simp_all
  · simp_all
  · have hreset : s.resets := ⟨rest, hr⟩
    exact ⟨fun _ h => (nomatch h), fun _ h => (nomatch h), fun _ _ => .inl hreset,
      fun _ _ => .inl hreset, fun _ => .inl hreset⟩
  · have host : ∃ a rest, s.nextIs (.access a) rest := ⟨a, rest, ha⟩
    refine ⟨fun _ _ => host, fun _ _ => host, ?_⟩
    rcases hostAccess_status_cases hacc with ⟨p, w, d, rfl, htg, hb, rfl⟩ |
      ⟨p, w, d, rfl, htg, rfl⟩ | ⟨_, _, _, hs⟩
    · have hw : s.writes .cmd d := ⟨p, w, rest, ha, htg⟩
      exact ⟨fun h h' => absurd (h.symm.trans h') (by decide),
        fun h h' => absurd (h.symm.trans h') (by decide), fun _ => .inr ⟨d, hw, hb, rfl⟩⟩
    · have hw : s.writes .status d := ⟨p, w, rest, ha, htg⟩
      simp only [State.answer_status, writeStatus_status]
      refine ⟨fun h h' => .inr ⟨d, hw, ?_⟩, fun h h' => .inr ⟨d, hw, ?_⟩, fun h => absurd rfl h⟩
      · simpa only [h, Bool.true_and, Bool.not_eq_false'] using h'
      · simpa only [h, Bool.true_and, Bool.not_eq_false'] using h'
    · rw [hs]
      exact ⟨fun h h' => by simp [h] at h', fun h h' => by simp [h] at h', fun h => absurd rfl h⟩

/-- What a command may write of the stores and result registers (10_state.md R29, R33, R39): every other
one it keeps. -/
structure CommandWrites (i : Instr) (s t : State) : Prop where
  ftMode : t.status.ftMode = s.status.ftMode ∨
    (i = .analyze ∨ i = .unpack) ∧ t.status.ftMode = s.latch.mode
  ft : t.ft = s.ft ∨ i = .analyze ∨ i = .unpack
  tree : t.tree = s.tree ∨ i = .analyze ∨ i = .buildTree ∨ i = .unpack
  crom : t.crom = s.crom ∨ i = .analyze ∨ i = .buildTree ∨ i = .genCodes ∨ i = .unpack
  pbuf : t.pbuf = s.pbuf ∨ i = .analyze ∨ i = .encode ∨ i = .unpack
  resultLen : t.resultLen = s.resultLen ∨ i = .pack ∨ i = .decode
  symCount : t.symCount = s.symCount ∨ i = .analyze ∨ i = .encode ∨ i = .decode
  payloadOff : t.payloadOff = s.payloadOff ∨ i = .unpack
  buf : t.buf = s.buf ∨ i = .pack ∨ i = .decode

/-- The end of a command alone writes no store. -/
theorem finish_writes (i : Instr) (s : State) (e : ErrCode) : CommandWrites i s (s.finish e) := by
  constructor <;> exact .inl rfl

/-- An execution error writes no store but the outputs of its command (60_exceptions.md R250). -/
theorem raise_writes (i : Instr) (s : State) (e : ErrCode) : CommandWrites i s (s.raise i e) := by
  cases i <;> constructor <;> simp [State.raise, failEffect]

/-- ANALYZE and UNPACK sample the latched mode first (10_state.md R33). -/
theorem sampleMode_writes {i : Instr} {s t : State} (hi : i = .analyze ∨ i = .unpack)
    (h : CommandWrites i s.sampleMode t) : CommandWrites i s t :=
  { h with ftMode := .inr ⟨hi, h.ftMode.elim id And.right⟩ }

/-- A command writes no store but its outputs, whether it ends well or reports an error. -/
theorem exec_writes {i : Instr} {s t : State} (h : exec i s = .next t) : CommandWrites i s t := by
  cases i with
  | analyze =>
    rcases execAnalyze_cases h with ⟨_, rfl⟩ | ⟨_, _, _, ⟨e, _, rfl⟩ | ⟨T, n, _, rfl⟩⟩
    · exact finish_writes _ _ _
    · exact sampleMode_writes (.inl rfl) (raise_writes _ _ _)
    · constructor <;> simp
  | buildTree =>
    rcases execBuildTree_cases h with ⟨_, rfl⟩ | ⟨_, _, ⟨_, rfl⟩ | ⟨r, _, rfl⟩⟩
    · exact finish_writes _ _ _
    · exact raise_writes _ _ _
    · constructor <;> simp
  | genCodes =>
    rcases execGenCodes_cases h with ⟨_, rfl⟩ | ⟨r, _, rfl⟩
    · exact finish_writes _ _ _
    · constructor <;> simp
  | encode =>
    rcases execEncode_cases h with
      ⟨_, rfl⟩ | ⟨_, _, _, _, ⟨_, rfl⟩ | ⟨_, _, _, ⟨e, _, rfl⟩ | ⟨p, n, _, rfl⟩⟩⟩
    · exact finish_writes _ _ _
    · exact finish_writes _ _ _
    · exact raise_writes _ _ _
    · constructor <;> simp
  | pack =>
    rcases execPack_cases h with
      ⟨_, rfl⟩ | ⟨_, _, _, _, ⟨_, rfl⟩ | ⟨_, ⟨e, _, rfl⟩ | ⟨bs, _, rfl⟩⟩⟩
    · exact finish_writes _ _ _
    · exact finish_writes _ _ _
    · exact raise_writes _ _ _
    · constructor <;> simp
  | unpack =>
    rcases execUnpack_cases h with ⟨_, rfl⟩ | ⟨_, _, _, ⟨e, _, rfl⟩ | ⟨T, p, _, rfl⟩⟩
    · exact finish_writes _ _ _
    · exact sampleMode_writes (.inr rfl) (raise_writes _ _ _)
    · constructor <;> simp
  | decode =>
    rcases execDecode_cases h with
      ⟨_, rfl⟩ | ⟨_, _, _, _, _, _, ⟨_, rfl⟩ | ⟨_, ⟨e, _, rfl⟩ | ⟨d, _, rfl⟩⟩⟩
    · exact finish_writes _ _ _
    · exact finish_writes _ _ _
    · exact raise_writes _ _ _
    · constructor <;> simp

/-- Settles O43: the completing command writes what `CommandWrites` says, a host access no store but
BUF, and a reset is allowed everywhere. -/
theorem writersOfEachStore : Obligations.WritersOfEachStore := by
  unfold Obligations.WritersOfEachStore
  intro s t h
  rcases step_cases h with ⟨rest, hm, hc⟩ | ⟨_, ⟨_, rfl⟩ | ⟨rest, _, rfl⟩⟩ | ⟨rest, hr, rfl⟩ |
    ⟨a, rest, ha, hacc⟩
  · rcases completionStep_cases hc with rfl | ⟨i, hi, he⟩
    · simp
    · have hcomp : s.completes i := ⟨⟨rest, hm⟩, hi⟩
      obtain ⟨hmode, hft, htree, hcrom, hpbuf, hres, hsym, hoff, hbuf⟩ := exec_writes he
      refine ⟨(exec_completed he).cfg, ?_, ?_, ?_, ?_, ?_, ?_, ?_, ?_, ?_⟩ <;> grind
  · simp
  · simp
  · have hreset : s.resets := ⟨rest, hr⟩
    simp [hreset]
  · obtain ⟨hcfg, hres, hsym, hoff, hft, htree, hcrom, hpbuf, _, hmode⟩ := hostAccess_accessed hacc
    have hbuf : t.buf ≠ s.buf → s.status.busy = false ∧
        ∃ p w d rest, s.nextIs (.access (.write p w d)) rest := fun hne => by
      obtain ⟨hb, ⟨p, w, d, rfl⟩, _⟩ := (hostAccess_buf hacc).resolve_left hne
      exact ⟨hb, p, w, d, rest, ha⟩
    simp_all

end Sys2Proof.Machine
end

section
/-! PROOFS. The latched operands are hidden copies (spec/10_state.md R35): the completion step reads
neither CTRL nor the operand registers, so it commutes with every change of them. -/

namespace Sys2Proof.Machine

/-- The outcome with its next state changed by `f`; a stop stays as it is. -/
def mapNext (f : State → State) : Outcome → Outcome
  | .next s => .next (f s)
  | .fault r => .fault r
  | .refused r => .refused r

/-- CTRL changed by `c` and the operand registers by `o`. -/
def State.editRegs (c : Ctrl → Ctrl) (o : Operands → Operands) (s : State) : State :=
  { s with ctrl := c s.ctrl, operands := o s.operands }

/-- A write to CTRL or an operand register is such a change. -/
theorem writeReg_eq_editRegs {r : Reg} (d : Word)
    (hr : r ∈ [Reg.ctrl, .srcBase, .srcLen, .dstBase, .dstCap]) :
    ∃ c o, ∀ s : State, s.writeReg r d = s.editRegs c o := by
  simp only [List.mem_cons, List.not_mem_nil, or_false] at hr
  rcases hr with rfl | rfl | rfl | rfl | rfl
  · exact ⟨fun _ => { mode := Mode.ofBit (d.getLsbD 0), irqEn := d.getLsbD 1 }, id, fun _ => rfl⟩
  · exact ⟨id, fun o => { o with srcBase := d }, fun _ => rfl⟩
  · exact ⟨id, fun o => { o with srcLen := d }, fun _ => rfl⟩
  · exact ⟨id, fun o => { o with dstBase := d }, fun _ => rfl⟩
  · exact ⟨id, fun o => { o with dstCap := d }, fun _ => rfl⟩

/-- A command stops where a byte of a valid source region holds no value (20_memory.md R51). -/
theorem withSource_of_noValue {s : State} (work : List Byte → State) (hv : s.srcValid)
    (hs : s.srcBytes = none) : s.withSource work = .fault .bufByteHoldsNoValue := by
  unfold State.withSource
  rw [if_pos hv, hs]

section

variable (c : Ctrl → Ctrl) (o : Operands → Operands) (s : State)

@[simp] theorem editRegs_cfg : (s.editRegs c o).cfg = s.cfg := rfl
@[simp] theorem editRegs_status : (s.editRegs c o).status = s.status := rfl
@[simp] theorem editRegs_latch : (s.editRegs c o).latch = s.latch := rfl
@[simp] theorem editRegs_ft : (s.editRegs c o).ft = s.ft := rfl
@[simp] theorem editRegs_tree : (s.editRegs c o).tree = s.tree := rfl
@[simp] theorem editRegs_crom : (s.editRegs c o).crom = s.crom := rfl
@[simp] theorem editRegs_pbuf : (s.editRegs c o).pbuf = s.pbuf := rfl

theorem editRegs_raise (i : Instr) (e : ErrCode) :
    (s.editRegs c o).raise i e = (s.raise i e).editRegs c o := by cases i <;> rfl

/-- A command that reads a source reads the latched one. -/
theorem editRegs_withSource {work work' : List Byte → State}
    (h : ∀ src, work' src = (work src).editRegs c o) :
    (s.editRegs c o).withSource work' = mapNext (State.editRegs c o) (s.withSource work) := by
  by_cases hv : s.srcValid
  · cases hs : s.srcBytes with
    | some src =>
      rw [withSource_of_bytes work hv hs]
      exact (withSource_of_bytes (s := s.editRegs c o) work' hv hs).trans (congrArg _ (h src))
    | none =>
      rw [withSource_of_noValue work hv hs]
      exact withSource_of_noValue work' hv hs
  · rw [withSource_of_invalid work hv]
    exact withSource_of_invalid work' hv

/-- A command that writes a destination writes the latched one. -/
theorem editRegs_withDest {work work' : State} (h : work' = work.editRegs c o) :
    (s.editRegs c o).withDest work' = mapNext (State.editRegs c o) (s.withDest work) := by
  subst h
  by_cases hv : s.dstValid
  · rw [withDest_of_valid _ hv]
    exact withDest_of_valid _ hv
  · rw [withDest_of_invalid _ hv]
    exact withDest_of_invalid _ hv

theorem editRegs_exec (i : Instr) :
    exec i (s.editRegs c o) = mapNext (State.editRegs c o) (exec i s) := by
  cases i with
  | analyze =>
    refine editRegs_withSource c o s fun src => ?_
    simp only [editRegs_cfg, editRegs_latch]
    cases analyzeSource s.cfg.nMax s.latch.mode src with
    | raised e => exact editRegs_raise c o s.sampleMode _ e
    | done r => rfl
  | unpack =>
    refine editRegs_withSource c o s fun src => ?_
    simp only [editRegs_cfg, editRegs_latch]
    cases unpackFrame s.cfg s.latch.mode (bitsOf src) with
    | raised e => exact editRegs_raise c o s.sampleMode _ e
    | done r => rfl
  | buildTree =>
    simp only [exec, execBuildTree, editRegs_ft]
    cases s.ft with
    | none => rfl
    | some T =>
      cases hb : buildTree T with
      | none => simp only [hb]; rfl
      | some r => simp only [hb]; rfl
  | genCodes =>
    simp only [exec, execGenCodes, editRegs_tree]
    cases s.tree <;> rfl
  | encode =>
    simp only [exec, execEncode, editRegs_ft, editRegs_crom]
    cases s.ft with
    | none => rfl
    | some T =>
      cases s.crom with
      | none => rfl
      | some rom =>
        refine editRegs_withSource c o s fun src => ?_
        simp only [editRegs_cfg, editRegs_status]
        cases encodeSource s.cfg.pbufBits s.status.ftMode T rom src with
        | raised e => exact editRegs_raise c o s _ e
        | done r => rfl
  | pack =>
    simp only [exec, execPack, editRegs_ft, editRegs_pbuf]
    cases s.ft with
    | none => rfl
    | some T =>
      cases s.pbuf with
      | none => rfl
      | some p =>
        refine editRegs_withDest c o s ?_
        simp only [editRegs_cfg, editRegs_status, editRegs_latch]
        cases packFrame s.cfg s.status.ftMode T p s.latch.args.dstCap.toNat with
        | raised e => exact editRegs_raise c o s _ e
        | done bs => rfl
  | decode =>
    simp only [exec, execDecode, editRegs_ft, editRegs_tree, editRegs_pbuf]
    cases s.ft with
    | none => rfl
    | some T =>
      cases s.tree with
      | none => rfl
      | some r =>
        cases s.pbuf with
        | none => rfl
        | some p =>
          refine editRegs_withDest c o s ?_
          simp only [editRegs_status, editRegs_latch]
          cases decodePayload s.status.ftMode T s.latch.args.dstCap.toNat r p with
          | raised e => exact editRegs_raise c o s _ e
          | done d => rfl

theorem editRegs_completionStep :
    completionStep (s.editRegs c o) = mapNext (State.editRegs c o) (completionStep s) := by
  cases hd : decode s.latch.cmd with
  | command i =>
    have hi : s.latch.cmd = encode i := (encode_of_decode hd).symm
    rw [completionStep_of_cmd hi]
    exact (completionStep_of_cmd (s := s.editRegs c o) hi).trans (editRegs_exec c o s i)
  | illegal why =>
    simp only [completionStep, fetchWord, editRegs_latch, hd]
    rfl

end

/-- Settles O9: the two orders are the commuting square of the completion step with the write. -/
theorem latchedOperandsShieldTheCommand : Obligations.LatchedOperandsShieldTheCommand := by
  unfold Obligations.LatchedOperandsShieldTheCommand
  refine ⟨fun _ _ => rfl, fun _ _ r => by cases r <;> rfl, fun s r d hr => ?_⟩
  obtain ⟨c, o, hw⟩ := writeReg_eq_editRegs d hr
  simp only [hw, editRegs_completionStep]
  exact ⟨fun t h => by rw [h]; rfl, fun f h => by rw [h]; rfl⟩

end Sys2Proof.Machine
end

section
/-! PROOFS. Which bytes of BUF a command touches (spec/20_memory.md R56): the commands that write no
destination region see BUF only through the bytes of their source region, and PACK and DECODE write the
same bytes whatever BUF holds. -/

namespace Sys2Proof.Machine

/-- Two memories with the same bytes written to them agree on every address written and differ elsewhere
only as they did before. -/
theorem read_writeBytes_agree (m m' : Memory) (a : Nat) (bs : List Byte) (x : Nat) :
    (inRegion a bs.length x ∧ (m'.writeBytes a bs).read x = (m.writeBytes a bs).read x) ∨
      ((m'.writeBytes a bs).read x = m'.read x ∧ (m.writeBytes a bs).read x = m.read x) := by
  by_cases hx : inRegion a bs.length x
  · obtain ⟨k, rfl⟩ := Nat.exists_eq_add_of_le hx.1
    have hk : k < bs.length := Nat.lt_of_add_lt_add_left hx.2
    exact .inl ⟨hx, by rw [Memory.read_writeBytes_inside _ _ _ hk, Memory.read_writeBytes_inside _ _ _ hk]⟩
  · exact .inr ⟨Memory.read_writeBytes_outside _ hx, Memory.read_writeBytes_outside _ hx⟩

/-- The state with another BUF. -/
def State.withBuf (m : Memory) (s : State) : State := { s with buf := m }

section

variable (m : Memory) (s : State)

@[simp] theorem withBuf_cfg : (s.withBuf m).cfg = s.cfg := rfl
@[simp] theorem withBuf_status : (s.withBuf m).status = s.status := rfl
@[simp] theorem withBuf_latch : (s.withBuf m).latch = s.latch := rfl
@[simp] theorem withBuf_ft : (s.withBuf m).ft = s.ft := rfl
@[simp] theorem withBuf_tree : (s.withBuf m).tree = s.tree := rfl
@[simp] theorem withBuf_crom : (s.withBuf m).crom = s.crom := rfl
@[simp] theorem withBuf_pbuf : (s.withBuf m).pbuf = s.pbuf := rfl

/-- A BUF that agrees on the source region gives the same source bytes. -/
theorem withBuf_srcBytes (hm : ∀ a, s.inSrc a → m.read a = s.buf.read a) :
    (s.withBuf m).srcBytes = s.srcBytes := Memory.readBytes_congr hm

/-- A command that reads a source sees BUF only through the bytes of its source region. -/
theorem withBuf_withSource (hm : ∀ a, s.inSrc a → m.read a = s.buf.read a)
    {work work' : List Byte → State} (h : ∀ src, work' src = (work src).withBuf m) :
    (s.withBuf m).withSource work' = mapNext (State.withBuf m) (s.withSource work) := by
  have hsrc := withBuf_srcBytes m s hm
  by_cases hv : s.srcValid
  · cases hs : s.srcBytes with
    | some src =>
      rw [withSource_of_bytes work hv hs]
      exact (withSource_of_bytes (s := s.withBuf m) work' hv (hsrc.trans hs)).trans
        (congrArg _ (h src))
    | none =>
      rw [withSource_of_noValue work hv hs]
      exact withSource_of_noValue work' hv (hsrc.trans hs)
  · rw [withSource_of_invalid work hv]
    exact withSource_of_invalid work' hv

/-- A command that writes no destination region does the same in every BUF that agrees on the source
region it reads, and leaves BUF as it is. -/
theorem withBuf_exec {i : Instr} (hi : writesDest i = false)
    (hm : readsSource i = true → ∀ a, s.inSrc a → m.read a = s.buf.read a) :
    exec i (s.withBuf m) = mapNext (State.withBuf m) (exec i s) := by
  cases i with
  | pack | decode => cases hi
  | analyze =>
    refine withBuf_withSource m s (hm rfl) fun src => ?_
    simp only [withBuf_cfg, withBuf_latch]
    cases analyzeSource s.cfg.nMax s.latch.mode src <;> rfl
  | unpack =>
    refine withBuf_withSource m s (hm rfl) fun src => ?_
    simp only [withBuf_cfg, withBuf_latch]
    cases unpackFrame s.cfg s.latch.mode (bitsOf src) <;> rfl
  | buildTree =>
    simp only [exec, execBuildTree, withBuf_ft]
    cases s.ft with
    | none => rfl
    | some T => cases hb : buildTree T <;> simp only [hb] <;> rfl
  | genCodes =>
    simp only [exec, execGenCodes, withBuf_tree]
    cases s.tree <;> rfl
  | encode =>
    simp only [exec, execEncode, withBuf_ft, withBuf_crom]
    cases s.ft with
    | none => rfl
    | some T =>
      cases s.crom with
      | none => rfl
      | some rom =>
        refine withBuf_withSource m s (hm rfl) fun src => ?_
        simp only [withBuf_cfg, withBuf_status]
        cases encodeSource s.cfg.pbufBits s.status.ftMode T rom src <;> rfl

end

/-- `run`, a transition from `s` with any BUF in place of its own, writes the same bytes from the base of
the latched destination region on whatever BUF holds, all of them in the region, and does nothing else
that depends on BUF. -/
def WritesInDest (s : State) (run : Memory → Outcome) : Prop :=
  ∃ (t : State) (bs : List Byte), bs.length ≤ s.latch.args.dstCap.toNat ∧
    ∀ m, run m = .next (t.withBuf (m.writeBytes s.latch.args.dstBase.toNat bs))

/-- The end of a command alone writes no byte of BUF. -/
theorem finish_writesInDest (s : State) (e : ErrCode) :
    WritesInDest s fun m => .next ((s.withBuf m).finish e) :=
  ⟨s.finish e, [], Nat.zero_le _, fun _ => rfl⟩

/-- The REGION_FAULT pre-check of a command that writes a destination does not look at BUF. -/
theorem withDest_writesInDest (s : State) {work : Memory → State}
    (h : WritesInDest s fun m => .next (work m)) :
    WritesInDest s fun m => (s.withBuf m).withDest (work m) := by
  obtain ⟨t, bs, hlen, hrun⟩ := h
  by_cases hv : s.dstValid
  · exact ⟨t, bs, hlen, fun m =>
      (withDest_of_valid (s := s.withBuf m) _ hv).trans (hrun m)⟩
  · exact ⟨s.finish .regionFault, [], Nat.zero_le _, fun _ => withDest_of_invalid _ hv⟩

/-- PACK and DECODE write the same bytes whatever BUF holds, all of them in the destination region: the
records or the frame, or, on an execution error, the free values drawn for the whole region. -/
theorem exec_writesInDest {i : Instr} (hi : writesDest i = true) (s : State) :
    WritesInDest s fun m => exec i (s.withBuf m) := by
  cases i with
  | analyze | buildTree | genCodes | encode | unpack => cases hi
  | pack =>
    simp only [exec, execPack, withBuf_ft, withBuf_pbuf]
    cases s.ft with
    | none => exact finish_writesInDest s _
    | some T =>
      cases s.pbuf with
      | none => exact finish_writesInDest s _
      | some p =>
        refine withDest_writesInDest s ?_
        simp only [withBuf_cfg, withBuf_status, withBuf_latch]
        cases hf : packFrame s.cfg s.status.ftMode T p s.latch.args.dstCap.toNat with
        | raised e => exact ⟨s.raise .pack e, _, (drawBytes_length s.draws _).le, fun _ => rfl⟩
        | done bs => exact ⟨(s.storeFrame bs).finish .success, bs, packFrame_done hf, fun _ => rfl⟩
  | decode =>
    simp only [exec, execDecode, withBuf_ft, withBuf_tree, withBuf_pbuf]
    cases s.ft with
    | none => exact finish_writesInDest s _
    | some T =>
      cases s.tree with
      | none => exact finish_writesInDest s _
      | some r =>
        cases s.pbuf with
        | none => exact finish_writesInDest s _
        | some p =>
          refine withDest_writesInDest s ?_
          simp only [withBuf_status, withBuf_latch]
          cases hd : decodePayload s.status.ftMode T s.latch.args.dstCap.toNat r p with
          | raised e => exact ⟨s.raise .decode e, _, (drawBytes_length s.draws _).le, fun _ => rfl⟩
          | done d =>
            exact ⟨(s.storeDecoded d).finish .success, d.out, decodePayload_done hd, fun _ => rfl⟩

/-- Settles O42: a command without a destination region commutes with a change of BUF outside its
source, and one with a destination region writes the same bytes into either memory. -/
theorem coreTouchesOnlyItsRegions : Obligations.CoreTouchesOnlyItsRegions := by
  unfold Obligations.CoreTouchesOnlyItsRegions
  intro i s t m h
  refine ⟨fun hi hm => ?_, fun hi => ?_⟩
  · exact (withBuf_exec m s hi hm).trans (congrArg _ h)
  · obtain ⟨t', bs, hlen, hrun⟩ := exec_writesInDest hi s
    obtain rfl : t'.withBuf (s.buf.writeBytes s.latch.args.dstBase.toNat bs) = t :=
      Host.Outcome.next.inj ((hrun s.buf).symm.trans h)
    refine ⟨m.writeBytes s.latch.args.dstBase.toNat bs, hrun m, fun a => ?_⟩
    refine (read_writeBytes_agree s.buf m _ bs a).imp_left fun ⟨⟨hlo, hhi⟩, hread⟩ => ?_
    exact ⟨⟨hlo, by omega⟩, hread⟩

end Sys2Proof.Machine
end

section
/-! PROOFS. Where the machine stops (spec/20_memory.md R51): what a command and a host read answer when a
byte they read holds no value, and that nothing else stops. -/

namespace Sys2Proof.Machine

/-- Reading bytes answers none when one of them holds no value. -/
theorem Memory.readBytes_eq_none {m : Memory} {a n x : Nat} (hx : inRegion a n x)
    (h : m.read x = none) : m.readBytes a n = none := by
  induction n generalizing a with
  | zero => exact absurd hx (by simp only [inRegion]; omega)
  | succ n ih =>
    rw [Memory.readBytes_succ]
    by_cases hax : a = x
    · rw [hax, h]
    · rw [ih (a := a + 1) (by simp only [inRegion] at hx ⊢; omega)]
      split
      · next h' => cases h'
      · rfl

/-- A command that reads a source answers a next state, unless the region is valid and a byte of it holds
no value. -/
theorem withSource_total (s : State) (work : List Byte → State) :
    (∃ t, s.withSource work = .next t) ∨
      s.srcValid ∧ s.srcBytes = none ∧ s.withSource work = .fault .bufByteHoldsNoValue := by
  by_cases hv : s.srcValid
  · cases hs : s.srcBytes with
    | some src => exact .inl ⟨_, withSource_of_bytes work hv hs⟩
    | none => exact .inr ⟨hv, rfl, withSource_of_noValue work hv hs⟩
  · exact .inl ⟨_, withSource_of_invalid work hv⟩

theorem withDest_total (s work : State) : ∃ t, s.withDest work = .next t := by
  unfold State.withDest
  split <;> exact ⟨_, rfl⟩

/-- What it takes for the command `i` to stop in the state `s`: its pre-checks pass, and a byte of the
source it reads holds no value. -/
structure CommandStops (i : Instr) (s : State) : Prop where
  reads : readsSource i = true
  checked : preCheck i s = none
  noValue : s.srcBytes = none

/-- The pre-checks of a command that reads a source region (60_exceptions.md R246). -/
theorem preCheck_readsSource {i : Instr} (h : readsSource i = true) (s : State) :
    preCheck i s = none ↔ s.ready i = true ∧ s.srcValid := by
  have hp : preCheck i s = if s.ready i = false then some .notReady
      else if s.srcValid then none else some .regionFault := by
    cases i with
    | analyze | encode | unpack => rfl
    | buildTree | genCodes | pack | decode => cases h
  rw [hp]
  split
  · simp [*]
  · split <;> simp_all

/-- A command answers a next state, or stops on a source byte without value. -/
theorem exec_total (i : Instr) (s : State) :
    (∃ t, exec i s = .next t) ∨
      CommandStops i s ∧ exec i s = .fault .bufByteHoldsNoValue := by
  have stops : readsSource i = true → s.ready i = true → s.srcValid → s.srcBytes = none →
      CommandStops i s := fun hi hr hv hs => ⟨hi, (preCheck_readsSource hi s).mpr ⟨hr, hv⟩, hs⟩
  cases i with
  | analyze | unpack =>
    exact (withSource_total s _).imp_right fun ⟨hv, hs, hf⟩ => ⟨stops rfl rfl hv hs, hf⟩
  | buildTree =>
    left
    simp only [exec, execBuildTree]
    split
    · exact ⟨_, rfl⟩
    · split <;> exact ⟨_, rfl⟩
  | genCodes =>
    left
    simp only [exec, execGenCodes]
    split <;> exact ⟨_, rfl⟩
  | encode =>
    simp only [exec, execEncode]
    split
    · next T rom _ hrom =>
      have hready : s.ready .encode = true := by simp [State.ready, State.codesValid, hrom]
      exact (withSource_total s _).imp_right fun ⟨hv, hs, hf⟩ => ⟨stops rfl hready hv hs, hf⟩
    · exact .inl ⟨_, rfl⟩
  | pack =>
    left
    simp only [exec, execPack]
    split
    · exact withDest_total s _
    · exact ⟨_, rfl⟩
  | decode =>
    left
    simp only [exec, execDecode]
    split
    · exact withDest_total s _
    · exact ⟨_, rfl⟩

/-- CODES_VALID comes with FT_VALID (10_state.md R38). -/
theorem exists_ft_of_crom {s : State} (h : Inv s) {rom : CodeRom} (hrom : s.crom = some rom) :
    ∃ T, s.ft = some T := by
  cases hT : s.ft with
  | some T => exact ⟨T, rfl⟩
  | none =>
    have htree : s.tree = none := by simpa [hT] using h.treeOfTable
    have hcrom : s.crom = none := by simpa [htree] using h.codesOfTree
    exact nomatch hrom.symm.trans hcrom

/-- Under the invariant a command whose pre-checks pass stops on a source byte without value. -/
theorem exec_of_commandStops {i : Instr} {s : State} (h : Inv s) (hc : CommandStops i s) :
    exec i s = .fault .bufByteHoldsNoValue := by
  obtain ⟨hi, hp, hs⟩ := hc
  obtain ⟨hr, hv⟩ := (preCheck_readsSource hi s).mp hp
  cases i with
  | buildTree | genCodes | pack | decode => cases hi
  | analyze | unpack => exact withSource_of_noValue _ hv hs
  | encode =>
    obtain ⟨rom, hrom⟩ := Option.isSome_iff_exists.mp hr
    obtain ⟨T, hT⟩ := exists_ft_of_crom h hrom
    simp only [exec, execEncode, hT, hrom]
    exact withSource_of_noValue _ hv hs

/-- The completion step answers a next state, or the latched command stops. -/
theorem completionStep_total (s : State) :
    (∃ t, completionStep s = .next t) ∨ ∃ i, s.latch.cmd = encode i ∧ CommandStops i s ∧
      completionStep s = .fault .bufByteHoldsNoValue := by
  cases hd : decode s.latch.cmd with
  | illegal why => exact .inl ⟨s.finish .illegalCommand, by simp only [completionStep, fetchWord, hd]⟩
  | command i =>
    have hi : s.latch.cmd = encode i := (encode_of_decode hd).symm
    rw [completionStep_of_cmd hi]
    exact (exec_total i s).imp_right fun hstop => ⟨i, hi, hstop⟩

/-- The core's turn answers a next state, or a command is running and stops. -/
theorem coreTurn_total (s : State) :
    (∃ t, coreTurn s = .next t) ∨ s.status.busy = true ∧ ∃ i, s.latch.cmd = encode i ∧
      CommandStops i s ∧ coreTurn s = .fault .bufByteHoldsNoValue := by
  unfold coreTurn
  split
  · next hb => exact (completionStep_total s).imp_right fun h => ⟨hb, h⟩
  · exact .inl ⟨s, rfl⟩

/-- The step that completes a command is the command. -/
theorem step_of_completes {s : State} {i : Instr} (h : s.completes i) :
    ∃ rest, step s = exec i { s with agenda := rest } := by
  obtain ⟨⟨rest, hm⟩, hi⟩ := h
  exact ⟨rest, (step_of_coreMoves hm).trans (completionStep_of_cmd hi)⟩

/-! ### Host reads -/

/-- An access to the place `p` of the width `w` is a well-formed one to the `n` bytes of BUF from `a`
on (20_memory.md R54). -/
def reachesBuf (cfg : Params) (p : Place) (w a n : Nat) : Prop :=
  target cfg p w = .bufByte a ∧ n = 1 ∨ target cfg p w = .bufWord a ∧ n = 4

theorem hostRead_of_reachesBuf {s : State} {p : Place} {w a n : Nat}
    (h : reachesBuf s.cfg p w a n) : s.hostRead p w = s.hostReadBuf a n := by
  rcases h with ⟨htg, rfl⟩ | ⟨htg, rfl⟩ <;> simp only [State.hostRead, htg]

/-- What it takes for a host access to stop in the state `s`: it reads BUF while BUSY = 0, and a byte of
those it reads holds no value. -/
def HostReadStops (a : Access) (s : State) : Prop :=
  s.status.busy = false ∧ ∃ p w x n, a = .read p w ∧ reachesBuf s.cfg p w x n ∧
    s.buf.readBytes x n = none

/-- A host read of a byte without value stops. -/
theorem hostAccess_of_hostReadStops {a : Access} {s : State} (h : HostReadStops a s) :
    hostAccess a s = .fault .bufByteHoldsNoValue := by
  obtain ⟨hb, p, w, x, n, rfl, hr, hs⟩ := h
  change s.hostRead p w = _
  simp only [hostRead_of_reachesBuf hr, State.hostReadBuf, hb, hs, Bool.false_eq_true, ↓reduceIte]

/-- A host read of BUF answers a next state, unless BUSY = 0 and a byte of those it reads holds no
value. -/
theorem hostReadBuf_total (s : State) (a n : Nat) :
    (∃ t, s.hostReadBuf a n = .next t) ∨ s.status.busy = false ∧ s.buf.readBytes a n = none := by
  unfold State.hostReadBuf
  split
  · exact .inl ⟨_, rfl⟩
  · next hb =>
    split
    · exact .inl ⟨_, rfl⟩
    · next hs => exact .inr ⟨by simpa using hb, hs⟩

/-- A host access answers a next state, or it is a read that stops. -/
theorem hostAccess_total (a : Access) (s : State) :
    (∃ t, hostAccess a s = .next t) ∨ HostReadStops a s := by
  cases a with
  | write p w d => exact .inl ⟨_, rfl⟩
  | read p w =>
    have readBuf : ∀ x n, reachesBuf s.cfg p w x n →
        (∃ t, s.hostRead p w = .next t) ∨ HostReadStops (.read p w) s := by
      intro x n hx
      rw [hostRead_of_reachesBuf hx]
      exact (hostReadBuf_total s x n).imp_right fun ⟨hb, hs⟩ => ⟨hb, p, w, x, n, rfl, hx, hs⟩
    change (∃ t, s.hostRead p w = .next t) ∨ _
    cases htg : target s.cfg p w with
    | bufByte x => exact readBuf x 1 (.inl ⟨htg, rfl⟩)
    | bufWord x => exact readBuf x 4 (.inr ⟨htg, rfl⟩)
    | reg | badReg | badBuf | outside =>
      simp only [State.hostRead, htg]
      exact .inl ⟨_, rfl⟩

/-! ### Steps -/

/-- A step answers a next state, or it stops: on a completing command's source byte without value, or on
a byte without value that the host reads (20_memory.md R51). -/
theorem step_total (s : State) :
    (∃ t, step s = .next t) ∨ step s = .fault .bufByteHoldsNoValue ∧
      ((∃ i, s.completes i ∧ CommandStops i s) ∨
        ∃ a rest, s.nextIs (.access a) rest ∧ HostReadStops a s) := by
  match ha : s.agenda with
  | [] =>
    rw [step_nil ha]
    refine (coreTurn_total s).imp_right fun ⟨hb, i, hi, hstop, hf⟩ => ?_
    exact ⟨hf, .inl ⟨i, ⟨⟨[], hb, .inr ⟨ha, rfl⟩⟩, hi⟩, hstop⟩⟩
  | .completion :: rest =>
    rw [step_cons ha]
    refine (coreTurn_total _).imp_right fun ⟨hb, i, hi, ⟨hr, hp, hs⟩, hf⟩ => ?_
    exact ⟨hf, .inl ⟨i, ⟨⟨rest, hb, .inl ha⟩, hi⟩, ⟨hr, hp, hs⟩⟩⟩
  | .reset :: rest => exact .inl ⟨_, step_cons ha⟩
  | .access a :: rest =>
    rw [step_cons ha]
    refine (hostAccess_total a _).imp_right fun hstop => ?_
    exact ⟨hostAccess_of_hostReadStops hstop, .inr ⟨a, rest, ha, hstop⟩⟩

/-- Settles O46: a step has no outcome but the two of `step_total`, and each of its two stops is a stop
whenever its conditions hold. -/
theorem stopsOnlyOnBytesWithoutValue : Obligations.StopsOnlyOnBytesWithoutValue := by
  unfold Obligations.StopsOnlyOnBytesWithoutValue
  intro s
  refine ⟨fun r hr => ?_, fun f hf => ?_, fun i hinv hi hr hp ⟨a, ha, hnone⟩ => ?_,
    fun p w rest a n hb hnext htg ⟨x, hx, hnone⟩ => ?_⟩
  · rcases step_total s with ⟨t, ht⟩ | ⟨hf, _⟩
    · exact nomatch hr.symm.trans ht
    · exact nomatch hr.symm.trans hf
  · rcases step_total s with ⟨t, ht⟩ | ⟨hstop, hwhy⟩
    · exact nomatch hf.symm.trans ht
    · refine ⟨Host.Outcome.fault.inj (hf.symm.trans hstop), hwhy.imp ?_ ?_⟩
      · rintro ⟨i, hi, hr, hp, hs⟩
        exact ⟨i, hi, hr, hp, hs⟩
      · rintro ⟨_, rest, hnext, hb, p, w, a, n, rfl, htg, hs⟩
        exact ⟨hb, p, w, rest, a, n, hnext, htg, hs⟩
  · obtain ⟨rest, hstep⟩ := step_of_completes hi
    have hsrc : s.srcBytes = none := Memory.readBytes_eq_none ha hnone
    rw [hstep]
    exact exec_of_commandStops (agenda_inv hinv rest) ⟨hr, hp, hsrc⟩
  · have hstop : HostReadStops (.read p w) { s with agenda := rest } :=
      ⟨hb, p, w, a, n, rfl, htg, Memory.readBytes_eq_none hx hnone⟩
    rw [step_cons hnext]
    exact hostAccess_of_hostReadStops hstop

end Sys2Proof.Machine
end

section
/-! PROOFS. The BUF window and the register window as one host access sees them: well-formed, ill-formed
and locked accesses, and host addresses (spec/20_memory.md R50 to R57). -/

namespace Sys2Proof.Machine

/-- A step whose event is a host read is that read. -/
theorem step_hostRead {s : State} {p : Place} {w : Nat} {rest : List Event}
    (h : s.nextIs (.access (.read p w)) rest) :
    step s = ({ s with agenda := rest } : State).hostRead p w := step_cons h

/-- A step whose event is a host write is that write. -/
theorem step_hostWrite {s : State} {p : Place} {w : Nat} {d : Word} {rest : List Event}
    (h : s.nextIs (.access (.write p w d)) rest) :
    step s = .next (({ s with agenda := rest } : State).hostWrite p w d) := step_cons h

/-! ### Well-formed BUF accesses -/

/-- The four bytes of a word, most significant first (20_memory.md R60). -/
theorem bytesBE_word (d : Word) : bytesBE d.toNat 4 =
    [d.extractLsb 31 24, d.extractLsb 23 16, d.extractLsb 15 8, d.extractLsb 7 0] := rfl

/-- The low byte of the number that one byte spells is that byte. -/
theorem extractLsb_ofNat_be_byte (b : Byte) : (BitVec.ofNat 32 (be [b])).extractLsb 7 0 = b := by
  have hbe : be [b] = b.toNat := by simp [be]
  apply BitVec.eq_of_toNat_eq
  rw [hbe, BitVec.extractLsb_toNat, BitVec.toNat_ofNat, Nat.shiftRight_zero]
  have := b.isLt
  omega

/-- The number that four bytes spell is the word they make (20_memory.md R60). -/
theorem ofNat_be_word (b0 b1 b2 b3 : Byte) :
    BitVec.ofNat 32 (be [b0, b1, b2, b3]) = b0 ++ b1 ++ b2 ++ b3 := by
  apply BitVec.eq_of_toNat_eq
  have hcat : ∀ {n : Nat} (x : BitVec n) (b : Byte), (x ++ b).toNat = 256 * x.toNat + b.toNat := by
    intro n x b
    rw [BitVec.toNat_append, ← Nat.shiftLeft_add_eq_or_of_lt b.isLt, Nat.shiftLeft_eq, Nat.mul_comm]
  have h0 := b0.isLt
  have h1 := b1.isLt
  have h2 := b2.isLt
  have h3 := b3.isLt
  rw [hcat, hcat, hcat, BitVec.toNat_ofNat]
  simp only [be, List.foldl_cons, List.foldl_nil]
  omega

theorem readBytes_one {m : Memory} {a : Nat} {b : Byte} (h : m.read a = some b) :
    m.readBytes a 1 = some [b] := by
  rw [Memory.readBytes_succ, h, Memory.readBytes_zero]

theorem readBytes_four {m : Memory} {a : Nat} {b0 b1 b2 b3 : Byte} (h0 : m.read a = some b0)
    (h1 : m.read (a + 1) = some b1) (h2 : m.read (a + 2) = some b2) (h3 : m.read (a + 3) = some b3) :
    m.readBytes a 4 = some [b0, b1, b2, b3] := by
  rw [Memory.readBytes_succ, Memory.readBytes_succ, Memory.readBytes_succ, readBytes_one h3, h0, h1, h2]

/-- While BUSY = 0 a host read of BUF answers the bytes, composed big-endian. -/
theorem hostReadBuf_of_bytes {s : State} {a n : Nat} {bs : List Byte} (hb : s.status.busy = false)
    (h : s.buf.readBytes a n = some bs) :
    s.hostReadBuf a n = .next (s.answer (some (BitVec.ofNat 32 (be bs)))) := by
  simp only [State.hostReadBuf, hb, h, Bool.false_eq_true, ↓reduceIte]

/-- While BUSY = 0 a host write of BUF writes the bytes of its data, most significant first. -/
theorem hostWriteBuf_of_idle {s : State} (hb : s.status.busy = false) (a n : Nat) (d : Word) :
    s.hostWriteBuf a n d = s.withBuf (s.buf.writeBytes a (bytesBE d.toNat n)) :=
  if_neg (by simp [hb])

theorem hostWrite_of_reachesBuf {s : State} {p : Place} {w a n : Nat}
    (h : reachesBuf s.cfg p w a n) (d : Word) :
    s.hostWrite p w d = (s.hostWriteBuf a n d).answer none := by
  rcases h with ⟨htg, rfl⟩ | ⟨htg, rfl⟩ <;> simp only [State.hostWrite, htg]

theorem reachesBuf_byte {cfg : Params} {a : Nat} (h : a < cfg.bufBytes) :
    reachesBuf cfg (.buf a) 8 a 1 := .inl ⟨target_bufByte h, rfl⟩

theorem reachesBuf_word {cfg : Params} {a : Nat} (h4 : a % 4 = 0) (h : a + 4 ≤ cfg.bufBytes) :
    reachesBuf cfg (.buf a) 32 a 4 := .inr ⟨target_bufWord h4 h, rfl⟩

/-- The step of a well-formed BUF write while BUSY = 0. -/
theorem step_writeBuf {s : State} {p : Place} {w a n : Nat} {d : Word} {rest : List Event}
    (hb : s.status.busy = false) (hr : reachesBuf s.cfg p w a n)
    (h : s.nextIs (.access (.write p w d)) rest) :
    step s = .next
      { s with
        agenda := rest, hostData := none, buf := s.buf.writeBytes a (bytesBE d.toNat n) } := by
  rw [step_hostWrite h, hostWrite_of_reachesBuf (s := { s with agenda := rest }) hr,
    hostWriteBuf_of_idle (s := { s with agenda := rest }) hb]
  rfl

/-- The step of a well-formed BUF read while BUSY = 0. -/
theorem step_readBuf {s : State} {p : Place} {w a n : Nat} {bs : List Byte} {rest : List Event}
    (hb : s.status.busy = false) (hr : reachesBuf s.cfg p w a n)
    (hbs : s.buf.readBytes a n = some bs) (h : s.nextIs (.access (.read p w)) rest) :
    step s = .next
      { s with agenda := rest, hostData := some (BitVec.ofNat 32 (be bs)) } := by
  rw [step_hostRead h, hostRead_of_reachesBuf (s := { s with agenda := rest }) hr]
  exact hostReadBuf_of_bytes (s := { s with agenda := rest }) hb hbs

/-- Settles O52: the step writes or reads the one byte, or the four bytes, of the access. -/
theorem bufAccessIsBigEndian : Obligations.BufAccessIsBigEndian := by
  unfold Obligations.BufAccessIsBigEndian
  intro s a rest hb
  refine ⟨fun d ha h => ?_, fun b ha hv h => ?_, fun d h4 ha h => ?_,
    fun b0 b1 b2 b3 h4 ha hv0 hv1 hv2 hv3 h => ?_⟩
  · refine ⟨_, step_writeBuf hb (reachesBuf_byte ha) h, rfl, ?_, fun x hx => ?_⟩
    · exact Memory.read_writeBytes_inside s.buf a [d.extractLsb 7 0] (k := 0) (by simp)
    · exact Memory.read_writeBytes_outside _ (by simp only [inRegion, bytesBE_length]; omega)
  · refine ⟨_, step_readBuf hb (reachesBuf_byte ha) (readBytes_one hv) h, ?_⟩
    exact extractLsb_ofNat_be_byte b
  · have written : ∀ k (hk : k < 4), (s.buf.writeBytes a (bytesBE d.toNat 4)).read (a + k) =
        some [d.extractLsb 31 24, d.extractLsb 23 16, d.extractLsb 15 8, d.extractLsb 7 0][k] :=
      fun k hk => by
        rw [bytesBE_word]
        exact Memory.read_writeBytes_inside s.buf a _ hk
    refine ⟨_, step_writeBuf hb (reachesBuf_word h4 ha) h, rfl, written 0 (by omega),
      written 1 (by omega), written 2 (by omega), written 3 (by omega), fun x hx => ?_⟩
    exact Memory.read_writeBytes_outside _ (by simpa using hx)
  · rw [step_readBuf hb (reachesBuf_word h4 ha) (readBytes_four hv0 hv1 hv2 hv3) h, ofNat_be_word]

/-! ### Ill-formed accesses -/

/-- An access that sets BUSERR and does nothing else: an ill-formed one to the register window, or to the
BUF window while BUSY = 0 (20_memory.md R55). -/
def setsBuserr (s : State) (p : Place) (w : Nat) : Prop :=
  target s.cfg p w = .badReg ∨ target s.cfg p w = .badBuf ∧ s.status.busy = false

theorem illFormedBuf_of_idle {s : State} (hb : s.status.busy = false) :
    s.illFormedBuf = s.setBuserr := if_neg (by simp [hb])

theorem hostRead_of_setsBuserr {s : State} {p : Place} {w : Nat} (h : setsBuserr s p w) :
    s.hostRead p w = .next (s.setBuserr.answer (some 0)) := by
  rcases h with htg | ⟨htg, hb⟩
  · simp only [State.hostRead, htg]
  · simp only [State.hostRead, htg, illFormedBuf_of_idle hb]

theorem hostWrite_of_setsBuserr {s : State} {p : Place} {w : Nat} (h : setsBuserr s p w) (d : Word) :
    s.hostWrite p w d = s.setBuserr.answer none := by
  rcases h with htg | ⟨htg, hb⟩
  · simp only [State.hostWrite, htg]
  · simp only [State.hostWrite, htg, illFormedBuf_of_idle hb]

/-- The RO registers are those at the offsets 0x1C to 0x40 (10_state.md R22). -/
theorem exists_readOnly {off : Nat} (hlo : 0x1C ≤ off) (hhi : off < 0x44) (h4 : off % 4 = 0) :
    ∃ r : Reg, r.offset = off ∧ r.readOnly = true := by
  have all : ∀ k < 17, 7 ≤ k → ∃ r ∈ Reg.all, r.offset = 4 * k ∧ r.readOnly = true := by decide
  obtain ⟨r, -, hr, hro⟩ := all (off / 4) (by omega) (by omega)
  exact ⟨r, by omega, hro⟩

/-- A write to an RO register is ill-formed (20_memory.md R55). -/
theorem writeReg_readOnly {r : Reg} (h : r.readOnly = true) (s : State) (d : Word) :
    s.writeReg r d = s.setBuserr := by
  cases r with
  | ctrl | cmd | status | srcBase | srcLen | dstBase | dstCap => cases h
  | resultLen | symCount | tableCount | pbitLen | payloadOff | cfgNmax | cfgBufbytes | cfgPbufbits
  | cfgMarker | cfgMarkerW => rfl

/-- Settles O53: an ill-formed access has an ill-formed target, except a write to an RO register, whose
target is the register. -/
theorem illFormedAccessSetsBuserr : Obligations.IllFormedAccessSetsBuserr := by
  unfold Obligations.IllFormedAccessSetsBuserr
  intro s p w d rest
  refine ⟨fun hbad => ?_, fun off hlo hhi h4 h => ?_⟩
  · have hset : setsBuserr { s with agenda := rest } p w := by
      rcases hbad with ⟨off, rfl, hoff⟩ | ⟨a, rfl, hb, h8, h32⟩
      · exact .inl (target_badReg hoff)
      · exact .inr ⟨target_badBuf h8 h32, hb⟩
    exact ⟨fun h => (step_hostRead h).trans (hostRead_of_setsBuserr hset),
      fun h => (step_hostWrite h).trans (congrArg _ (hostWrite_of_setsBuserr hset d))⟩
  · obtain ⟨r, rfl, hro⟩ := exists_readOnly hlo hhi h4
    rw [step_writeReg h, writeReg_readOnly hro]
    rfl

/-! ### BUF while BUSY = 1 -/

theorem hostReadBuf_of_busy {s : State} (hb : s.status.busy = true) (a n : Nat) :
    s.hostReadBuf a n = .next (s.setHaz.answer (some 0)) := if_pos hb

theorem hostWriteBuf_of_busy {s : State} (hb : s.status.busy = true) (a n : Nat) (d : Word) :
    s.hostWriteBuf a n d = s.setHaz := if_pos hb

/-- What every BUF access while BUSY = 1 has in common (20_memory.md R57): it sets HAZ, BUSERR or both,
and changes nothing else but what is the model's own. -/
structure Locked (s t : State) : Prop where
  frame : t = { s with
    hostData := t.hostData, draws := t.draws
    status := { s.status with haz := t.status.haz, buserr := t.status.buserr } }
  sets : t.status.haz = true ∨ t.status.buserr = true
  hazKept : s.status.haz = true → t.status.haz = true
  buserrKept : s.status.buserr = true → t.status.buserr = true

theorem locked_answer {s t : State} (h : Locked s t) (d : Option Word) : Locked s (t.answer d) := by
  obtain ⟨hframe, hsets, hhaz, hbuserr⟩ := h
  exact ⟨congrArg (State.answer · d) hframe, hsets, hhaz, hbuserr⟩

theorem setHaz_locked (s : State) : Locked s s.setHaz := ⟨rfl, .inl rfl, fun _ => rfl, id⟩

/-- Whichever of its three values the free choice takes, one of the two bits is set. -/
theorem illFormedBuf_locked {s : State} (hb : s.status.busy = true) : Locked s s.illFormedBuf := by
  have hill : s.illFormedBuf = s.lockedIllFormed := if_pos hb
  rw [hill]
  refine ⟨rfl, ?_, fun h => ?_, fun h => ?_⟩
  · by_cases hc : Config.illFormedWhileLocked s.draws = 1
    · exact .inr (by simp [State.lockedIllFormed, hc])
    · exact .inl (by simp [State.lockedIllFormed, hc])
  · simp [State.lockedIllFormed, h]
  · simp [State.lockedIllFormed, h]

/-- A BUF read while BUSY = 1, well-formed or not, answers 0 and is locked. -/
theorem hostRead_locked {s : State} (hb : s.status.busy = true) (a w : Nat) :
    ∃ t, s.hostRead (.buf a) w = .next (t.answer (some 0)) ∧ Locked s t := by
  rcases target_buf_cases s.cfg a w with ⟨htg, _⟩ | ⟨htg, _⟩ | htg
  · exact ⟨_, by simp only [State.hostRead, htg, hostReadBuf_of_busy hb], setHaz_locked s⟩
  · exact ⟨_, by simp only [State.hostRead, htg, hostReadBuf_of_busy hb], setHaz_locked s⟩
  · exact ⟨_, by simp only [State.hostRead, htg], illFormedBuf_locked hb⟩

/-- A BUF write while BUSY = 1, well-formed or not, is locked. -/
theorem hostWrite_locked {s : State} (hb : s.status.busy = true) (a w : Nat) (d : Word) :
    Locked s (s.hostWrite (.buf a) w d) := by
  unfold State.hostWrite
  rcases target_buf_cases s.cfg a w with ⟨htg, _⟩ | ⟨htg, _⟩ | htg
  · simp only [htg, hostWriteBuf_of_busy hb]
    exact locked_answer (setHaz_locked s) _
  · simp only [htg, hostWriteBuf_of_busy hb]
    exact locked_answer (setHaz_locked s) _
  · simp only [htg]
    exact locked_answer (illFormedBuf_locked hb) _

/-- A well-formed BUF access reaches one byte or four (20_memory.md R54). -/
theorem exists_reachesBuf {cfg : Params} {a w : Nat}
    (h : w = 8 ∧ a < cfg.bufBytes ∨ w = 32 ∧ a % 4 = 0 ∧ a + 4 ≤ cfg.bufBytes) :
    ∃ n, reachesBuf cfg (.buf a) w a n := by
  rcases h with ⟨rfl, ha⟩ | ⟨rfl, h4, ha⟩
  · exact ⟨1, reachesBuf_byte ha⟩
  · exact ⟨4, reachesBuf_word h4 ha⟩

/-- Settles O54: a well-formed access sets HAZ alone, and every access is locked. -/
theorem bufIsLockedWhileBusy : Obligations.BufIsLockedWhileBusy := by
  unfold Obligations.BufIsLockedWhileBusy
  intro s a w d rest hb
  refine ⟨fun hok => ?_, fun hnext => ?_⟩
  · obtain ⟨n, hr⟩ := exists_reachesBuf hok
    refine ⟨fun h => ?_, fun h => ?_⟩
    · rw [step_hostRead h, hostRead_of_reachesBuf (s := { s with agenda := rest }) hr]
      exact hostReadBuf_of_busy (s := { s with agenda := rest }) hb a n
    · rw [step_hostWrite h, hostWrite_of_reachesBuf (s := { s with agenda := rest }) hr,
        hostWriteBuf_of_busy (s := { s with agenda := rest }) hb]
      rfl
  · rcases hnext with h | h
    · obtain ⟨t, ht, hl⟩ := hostRead_locked (s := { s with agenda := rest }) hb a w
      obtain ⟨hframe, hsets, hhaz, hbuserr⟩ := locked_answer hl (some 0)
      exact ⟨_, (step_hostRead h).trans ht, fun _ => rfl, hframe, hsets, hhaz, hbuserr⟩
    · obtain ⟨hframe, hsets, hhaz, hbuserr⟩ :=
        hostWrite_locked (s := { s with agenda := rest }) hb a w d
      refine ⟨_, step_hostWrite h, fun h' => ?_, hframe, hsets, hhaz, hbuserr⟩
      exact nomatch h.symm.trans h'

/-! ### Host addresses -/

/-- An access sees the place it is directed at only through where that goes. -/
theorem hostAccess_congr {s : State} {p q : Place} {w : Nat} (h : target s.cfg p w = target s.cfg q w) :
    s.hostRead p w = s.hostRead q w ∧ ∀ d, s.hostWrite p w d = s.hostWrite q w d := by
  simp only [State.hostRead, State.hostWrite, h, implies_true, and_self]

/-- A host address does what an access to the window offset it stands for does. -/
theorem step_of_resolve {s : State} {addr w : Nat} {q : Place}
    (h : target s.cfg (.address addr) w = target s.cfg q w) (d : Word) (rest : List Event) :
    step { s with agenda := .access (.read (.address addr) w) :: rest } =
        step { s with agenda := .access (.read q w) :: rest } ∧
      step { s with agenda := .access (.write (.address addr) w d) :: rest } =
        step { s with agenda := .access (.write q w d) :: rest } := by
  obtain ⟨hread, hwrite⟩ := hostAccess_congr (s := { s with agenda := rest }) h
  exact ⟨hread, congrArg Host.Outcome.next (hwrite d)⟩

/-- Settles O55: the address resolves to the offset of the window it lies in, or to nothing. -/
theorem addressDecode : Obligations.AddressDecode := by
  unfold Obligations.AddressDecode
  intro s addr w d rest
  refine ⟨fun off hoff haddr => ?_, fun a ha haddr => ?_, fun hout => ?_⟩
  · subst haddr
    exact step_of_resolve (by simp only [target, resolve_registers s.cfg hoff]; rfl) d rest
  · subst haddr
    exact step_of_resolve (by simp only [target, resolve_buf s.cfg ha]; rfl) d rest
  · have htg : target s.cfg (.address addr) w = .outside := by
      simp only [target, resolve_outside s.cfg hout]
    have hread : ({ s with agenda := rest } : State).hostRead (.address addr) w =
        .next { s with agenda := rest, hostData := none } := by
      simp only [State.hostRead, htg]
      rfl
    have hwrite : ({ s with agenda := rest } : State).hostWrite (.address addr) w d =
        { s with agenda := rest, hostData := none } := by
      simp only [State.hostWrite, htg]
      rfl
    exact ⟨hread, congrArg Host.Outcome.next hwrite⟩

end Sys2Proof.Machine
end

section
/-! PROOFS. The command words (spec/30_encoding.md R70 to R74), and what the core's turn makes of the
latched one (R73; spec/60_exceptions.md R241). -/

namespace Sys2Proof

/-- The decoder finds a command exactly in the words whose two fields select one (30_encoding.md
R72). -/
theorem exists_decode_command_iff (w : Word) : (∃ i, decode w = .command i) ↔ CommandWordOk w := by
  constructor
  · rintro ⟨i, h⟩
    obtain ⟨hr, ho⟩ := decode_command h
    exact ⟨hr, (opcodeMap_isSome _).mp (Option.isSome_of_eq_some ho)⟩
  · rintro ⟨hr, hop⟩
    obtain ⟨i, hi⟩ := Option.isSome_iff_exists.mp ((opcodeMap_isSome (opField w)).mpr hop)
    have hr' : rsvdField w = 0 := hr
    exact ⟨i, by simp [decode, hr', hi]⟩

/-- A word decodes to a command exactly if it is that command's word (30_encoding.md R72). -/
theorem decode_eq_command_iff {w : Word} {i : Instr} : decode w = .command i ↔ encode i = w :=
  ⟨encode_of_decode, fun h => h ▸ decode_encode i⟩

/-- The words of the commands are the well-formed ones (30_encoding.md R72). -/
theorem exists_eq_encode_iff (w : Word) : (∃ i, w = encode i) ↔ CommandWordOk w := by
  simp only [← exists_decode_command_iff, decode_eq_command_iff, eq_comm]

/-- Settles O2: the decoder's answer is read off the two fields, and the encoder is its inverse. -/
theorem eachCommandHasOneWord : Obligations.EachCommandHasOneWord := by
  unfold Obligations.EachCommandHasOneWord
  exact ⟨exists_decode_command_iff, fun _ _ => decode_eq_command_iff, by decide⟩

/-- Settles O1: the decoder computes on each of the words. -/
theorem commandWordsDecode : Obligations.CommandWordsDecode := by
  unfold Obligations.CommandWordsDecode
  decide

end Sys2Proof

namespace Sys2Proof.Machine

/-- The completion step of a word that is no command's reports ILLEGAL_COMMAND (60_exceptions.md
R246). -/
theorem completionStep_of_illegal {s : State} (h : ¬ CommandWordOk s.latch.cmd) :
    completionStep s = .next (s.finish .illegalCommand) := by
  cases hd : decode s.latch.cmd with
  | command i => exact absurd ((exists_decode_command_iff _).mp ⟨i, hd⟩) h
  | illegal why => simp only [completionStep, fetchWord, hd]

/-- Settles O3: the core's step is the completion step, which goes by whether the word is a
command's. -/
theorem stepRunsLatchedCommand : Obligations.StepRunsLatchedCommand := by
  unfold Obligations.StepRunsLatchedCommand
  intro s rest hm
  refine ⟨fun i hi => ?_, fun hbad => ?_, ?_⟩
  · exact (step_of_coreMoves hm).trans (completionStep_of_cmd (s := { s with agenda := rest }) hi)
  · exact (step_of_coreMoves hm).trans
      (completionStep_of_illegal (s := { s with agenda := rest }) hbad)
  · rw [exists_eq_encode_iff]
    exact Classical.em _

end Sys2Proof.Machine
end

section
/-! PROOFS. Host scripts: WAIT, and RUN from the acceptance of its command to the poll that sees it
completed (spec/30_encoding.md R76, R77). -/

namespace Sys2Proof.Machine

/-- Settles O57: `turn_wait` in its two cases. -/
theorem waitReadsStatusUntilIdle : Obligations.WaitReadsStatusUntilIdle := by
  unfold Obligations.WaitReadsStatusUntilIdle
  intro s todo
  have hturn := turn_wait s todo
  refine ⟨fun hb => ?_, fun hb => ?_⟩
  · rw [if_pos hb] at hturn
    exact hturn
  · rw [if_neg (by simp [hb])] at hturn
    exact hturn

/-! ### A command does not see what the host last read -/

section

variable (d : Option Word) (s : State)

theorem withSource_answer {work work' : List Byte → State}
    (h : ∀ src, work' src = (work src).answer d) :
    (s.answer d).withSource work' = mapNext (State.answer · d) (s.withSource work) := by
  obtain rfl : work' = fun src => (work src).answer d := funext h
  by_cases hv : s.srcValid
  · cases hs : s.srcBytes with
    | some src =>
      rw [withSource_of_bytes work hv hs]
      exact withSource_of_bytes (s := s.answer d) _ hv hs
    | none =>
      rw [withSource_of_noValue work hv hs]
      exact withSource_of_noValue (s := s.answer d) _ hv hs
  · rw [withSource_of_invalid work hv]
    exact withSource_of_invalid (s := s.answer d) _ hv

theorem withDest_answer {work work' : State} (h : work' = work.answer d) :
    (s.answer d).withDest work' = mapNext (State.answer · d) (s.withDest work) := by
  subst h
  by_cases hv : s.dstValid
  · rw [withDest_of_valid work hv]
    exact withDest_of_valid (s := s.answer d) _ hv
  · rw [withDest_of_invalid work hv]
    exact withDest_of_invalid (s := s.answer d) _ hv

/-- A command neither reads nor writes the data the host last got: it commutes with a change of it. -/
theorem exec_answer (i : Instr) :
    exec i (s.answer d) = mapNext (State.answer · d) (exec i s) := by
  cases i with
  | analyze =>
    refine withSource_answer d s fun src => ?_
    simp only [State.answer_cfg, State.answer_latch]
    cases analyzeSource s.cfg.nMax s.latch.mode src <;> rfl
  | unpack =>
    refine withSource_answer d s fun src => ?_
    simp only [State.answer_cfg, State.answer_latch]
    cases unpackFrame s.cfg s.latch.mode (bitsOf src) <;> rfl
  | buildTree =>
    simp only [exec, execBuildTree, State.answer_ft]
    cases s.ft with
    | none => rfl
    | some T => cases hb : buildTree T <;> simp only [hb] <;> rfl
  | genCodes =>
    simp only [exec, execGenCodes, State.answer_tree]
    cases s.tree <;> rfl
  | encode =>
    simp only [exec, execEncode, State.answer_ft, State.answer_crom]
    cases s.ft with
    | none => rfl
    | some T =>
      cases s.crom with
      | none => rfl
      | some rom =>
        refine withSource_answer d s fun src => ?_
        simp only [State.answer_cfg, State.answer_status]
        cases encodeSource s.cfg.pbufBits s.status.ftMode T rom src <;> rfl
  | pack =>
    simp only [exec, execPack, State.answer_ft, State.answer_pbuf]
    cases s.ft with
    | none => rfl
    | some T =>
      cases s.pbuf with
      | none => rfl
      | some p =>
        refine withDest_answer d s ?_
        simp only [State.answer_cfg, State.answer_status, State.answer_latch]
        cases packFrame s.cfg s.status.ftMode T p s.latch.args.dstCap.toNat <;> rfl
  | decode =>
    simp only [exec, execDecode, State.answer_ft, State.answer_tree, State.answer_pbuf]
    cases s.ft with
    | none => rfl
    | some T =>
      cases s.tree with
      | none => rfl
      | some r =>
        cases s.pbuf with
        | none => rfl
        | some p =>
          refine withDest_answer d s ?_
          simp only [State.answer_status, State.answer_latch]
          cases decodePayload s.status.ftMode T s.latch.args.dstCap.toNat r p <;> rfl

/-- The completion step neither reads nor writes the data the host last got. -/
theorem completionStep_answer :
    completionStep (s.answer d) = mapNext (State.answer · d) (completionStep s) := by
  by_cases hok : CommandWordOk s.latch.cmd
  · obtain ⟨i, hi⟩ := (exists_eq_encode_iff _).mpr hok
    rw [completionStep_of_cmd hi]
    exact (completionStep_of_cmd (s := s.answer d) hi).trans (exec_answer d s i)
  · rw [completionStep_of_illegal hok]
    exact completionStep_of_illegal (s := s.answer d) hok

end

/-! ### The turns of RUN -/

/-- STATUS says nothing of the data the host last got (10_state.md R25). -/
theorem statusWord_answer (d : Option Word) (s : State) : (s.answer d).statusWord = s.statusWord := rfl

/-- A core turn while a command runs is its completion step. -/
theorem turn_core_busy {s t : State} (hb : s.status.busy = true) (hc : completionStep s = .next t)
    (todo : List HostAction) :
    ({ todo := todo, state := s } : ScriptRun).turn .core = .next { todo := todo, state := t } := by
  simp only [ScriptRun.turn, stepOn_completion, coreTurn, hb, ↓reduceIte, hc]

/-- The CMD write to an idle block is an acceptance (60_exceptions.md R240). -/
theorem hostAccess_writeCmd {s : State} (hb : s.status.busy = false) (w : Word) :
    hostAccess (writeAccess .cmd w) s = .next ((s.accept w).answer none) := by
  have hw : s.writeReg .cmd w = s.accept w := if_neg (by simp [hb])
  simp only [hostAccess, writeAccess, State.hostWrite, target_reg, hw]

/-- A host turn at the CMD statement, on an idle block. -/
theorem turn_cmd {s : State} (hb : s.status.busy = false) (w : Word) (todo : List HostAction) :
    ({ todo := .access (writeAccess .cmd w) :: todo, state := s } : ScriptRun).turn .host =
      .next { todo := todo, state := (s.accept w).answer none } := by
  simp only [ScriptRun.turn, HostAction.next, stepOn_access, hostAccess_writeCmd hb, HostAction.rest,
    List.nil_append]

/-- The rest of a schedule runs from where its first turn led. -/
theorem run_cons {r r' : ScriptRun} {t : Turn} (h : r.turn t = .next r') (ts : List Turn) :
    r.run (t :: ts) = r'.run ts := by
  simp only [ScriptRun.run, h]

/-- However often WAIT polls while a command runs, it goes on, and of the state only the data the host
last got has changed. -/
theorem run_polls {s : State} (hb : s.status.busy = true) (todo : List HostAction) (ts : List Turn)
    (polls : Nat) (d : Option Word) :
    ∃ d', ({ todo := .pollUntilIdle :: todo, state := s.answer d } : ScriptRun).run
        (List.replicate polls .host ++ ts) =
      ({ todo := .pollUntilIdle :: todo, state := s.answer d' } : ScriptRun).run ts := by
  induction polls generalizing d with
  | zero => exact ⟨d, rfl⟩
  | succ n ih =>
    have hturn := turn_wait (s.answer d) todo
    rw [State.answer_status, if_pos hb] at hturn
    obtain ⟨d', hrun⟩ := ih (some (s.answer d).statusWord)
    exact ⟨d', (run_cons hturn _).trans hrun⟩

theorem completionStep_of_runCommand {s t : State} {i : Instr} (h : runCommand s i = some t) :
    completionStep (s.accept (encode i)) = .next t := by
  unfold runCommand at h
  split at h
  · next ht => cases h; exact ht
  · cases h
  · cases h

/-- Settles O58: the CMD write accepts, the polls change no more than the data the host last got, the
completion does not see it, and the last poll finds BUSY = 0. -/
theorem runWaitsForCompletion : Obligations.RunWaitsForCompletion := by
  unfold Obligations.RunWaitsForCompletion
  intro s t i polls todo hidle hrun
  have hc := completionStep_of_runCommand hrun
  obtain ⟨d, hpolls⟩ :=
    run_polls (s := s.accept (encode i)) rfl todo [.core, .host] polls none
  have hcore : completionStep ((s.accept (encode i)).answer d) = .next (t.answer d) := by
    rw [completionStep_answer, hc]
    rfl
  have hlast := turn_wait (t.answer d) todo
  rw [State.answer_status, if_neg (by simp [(completionStep_completed hc).busy]),
    statusWord_answer] at hlast
  have htodo : scriptActions (runCmd i) ++ todo =
      .access (writeAccess .cmd (encode i)) :: .pollUntilIdle :: todo := rfl
  rw [htodo, List.cons_append, run_cons (turn_cmd hidle _ _), hpolls,
    run_cons (turn_core_busy rfl hcore _), run_cons hlast]
  rfl

end Sys2Proof.Machine
end

section
/-! PROOFS. NextSymbol takes off a source exactly the record of the symbol it gives
(spec/41_frequency_analyzer.md R101, R103). -/

namespace Sys2Proof.Machine

theorem be_lt (bs : List Byte) : be bs < 256 ^ bs.length := by
  induction bs with
  | nil => simp [be]
  | cons b bs ih =>
    have hb : b.toNat + 1 ≤ 256 := b.isLt
    calc be (b :: bs) = b.toNat * 256 ^ bs.length + be bs := be_cons b bs
      _ < (b.toNat + 1) * 256 ^ bs.length := by rw [Nat.succ_mul]; omega
      _ ≤ 256 * 256 ^ bs.length := Nat.mul_le_mul_right _ hb
      _ = 256 ^ (b :: bs).length := by rw [List.length_cons, Nat.pow_succ']

/-- The `n` bytes of a number do not see what stands above them. -/
theorem bytesBE_mul_pow_add (x v : Nat) {m n : Nat} (h : n ≤ m) :
    bytesBE (x * 256 ^ m + v) n = bytesBE v n := by
  induction n with
  | zero => rfl
  | succ n ih =>
    have hpow : (256 : Nat) ^ m = 2 ^ (8 * n) * (256 * 256 ^ (m - n - 1)) := by
      rw [Nat.pow_mul, ← Nat.pow_succ', ← Nat.pow_add, show n + (m - n - 1 + 1) = m by omega]
    rw [bytesBE, bytesBE, ih (by omega), hpow]
    congr 1
    apply BitVec.eq_of_toNat_eq
    rw [BitVec.toNat_ofNat, BitVec.toNat_ofNat, Nat.shiftRight_eq_div_pow,
      Nat.shiftRight_eq_div_pow, Nat.mul_left_comm, Nat.mul_add_div (by positivity),
      Nat.mul_left_comm, Nat.mul_add_mod]

/-- BytesBE undoes BE. -/
theorem bytesBE_be (bs : List Byte) : bytesBE (be bs) bs.length = bs := by
  induction bs with
  | nil => rfl
  | cons b bs ih =>
    have htop : be (b :: bs) >>> (8 * bs.length) = b.toNat := by
      rw [be_cons, Nat.shiftRight_eq_div_pow, Nat.pow_mul, Nat.mul_comm,
        Nat.mul_add_div (by positivity), Nat.div_eq_of_lt (be_lt bs), Nat.add_zero]
    rw [List.length_cons, bytesBE, htop, be_cons, bytesBE_mul_pow_add _ _ le_rfl, ih]
    simp

/-- What NextSymbol takes off a source is the record of the symbol it gives
(41_frequency_analyzer.md R101, R103). -/
theorem nextSymbol_done {mode : Mode} {src rest : List Byte} {k : Symbol}
    (h : nextSymbol mode src = .done (k, rest)) : src = symbolRecord mode k ++ rest := by
  cases mode with
  | numeric =>
    simp only [nextSymbol] at h
    split at h
    · cases h
    · next hlen =>
      split at h
      · cases h
        have h8 : (src.take 8).length = 8 := by rw [List.length_take]; omega
        have hrec : bytesBE (be (src.take 8)) 8 = src.take 8 := by
          simpa only [h8] using bytesBE_be (src.take 8)
        simp only [symbolRecord, Symbol.value, hrec, List.take_append_drop]
      · cases h
  | byteSeq =>
    cases src with
    | nil => cases h
    | cons l src =>
      simp only [nextSymbol] at h
      split at h
      · cases h
      · split at h
        · cases h
        · next hlen =>
          cases h
          have hl : (src.take l.toNat).length = l.toNat := by rw [List.length_take]; omega
          simp only [symbolRecord, Symbol.bytes, hl, BitVec.ofNat_toNat, BitVec.setWidth_eq,
            List.cons_append, List.take_append_drop]

/-- Settles O13: a record reads back to its symbol, and what is read off a source was that symbol's
record. -/
theorem symbolRecordRoundTrip : Obligations.SymbolRecordRoundTrip := by
  unfold Obligations.SymbolRecordRoundTrip
  exact fun _ _ _ rest =>
    ⟨fun hok => nextSymbol_record hok rest, fun h => ⟨nextSymbol_done h, nextSymbol_okFor h⟩⟩

end Sys2Proof.Machine
end

section
/-! PROOFS. ANALYZE: what the analyzer answers for a stream of records, and what the command makes of
the answer (spec/41_frequency_analyzer.md R104 to R106; spec/60_exceptions.md R247, R250). -/

namespace Sys2Proof.Machine

/-! ### The analyzer -/

/-- Symbols whose distinct ones fit the table are counted to their tally. -/
theorem countSymbols_eq_tally {nMax : Nat} {ks : List Symbol} (h : ks.eraseDups.length ≤ nMax) :
    countSymbols nMax ks [] = .done (tally ks) := countSymbols_tally ks [] h

theorem analyzeSource_nil (nMax : Nat) (mode : Mode) :
    analyzeSource nMax mode [] = .raised .emptyInput := rfl

section

variable {nMax : Nat} {mode : Mode} {src : List Byte} {T : Table} {e : ErrCode}

/-- An error of the count comes before the stream's own, which stands behind all its symbols
(60_exceptions.md R247). -/
theorem analyzeSource_of_count_raised (hne : src ≠ [])
    (hc : countSymbols nMax (symbolStream mode src).syms [] = .raised e) :
    analyzeSource nMax mode src = .raised e := by
  simp only [analyzeSource, if_neg hne, hc]

theorem analyzeSource_of_fail (hne : src ≠ [])
    (hc : countSymbols nMax (symbolStream mode src).syms [] = .done T)
    (hf : (symbolStream mode src).fail = some e) : analyzeSource nMax mode src = .raised e := by
  simp only [analyzeSource, if_neg hne, hc, hf]

theorem analyzeSource_of_counted (hne : src ≠ [])
    (hc : countSymbols nMax (symbolStream mode src).syms [] = .done T)
    (hf : (symbolStream mode src).fail = none) :
    analyzeSource nMax mode src = .done (T, (symbolStream mode src).syms.length) := by
  simp only [analyzeSource, if_neg hne, hc, hf]

/-- ANALYZE raises EMPTY_INPUT, BAD_SYMBOL or CAPACITY_EXCEEDED and nothing else
(41_frequency_analyzer.md R104). -/
theorem analyzeSource_raised (h : analyzeSource nMax mode src = .raised e) :
    e = .emptyInput ∨ e = .badSymbol ∨ e = .capacityExceeded := by
  unfold analyzeSource at h
  split at h
  · cases h; exact .inl rfl
  · simp only at h
    split at h
    · next hc => cases h; exact .inr (.inr (countSymbols_raised hc))
    · split at h
      · next hf => cases h; exact .inr (.inl (symbolStream_fail hf))
      · cases h

end

section

variable {nMax : Nat} {mode : Mode} {ks : List Symbol} (hks : ∀ k ∈ ks, k.okFor mode = true)

include hks

/-- A well-formed, non-empty source is counted to its tally (41_frequency_analyzer.md R105). -/
theorem analyzeSource_records (hne : ks ≠ []) (hroom : ks.eraseDups.length ≤ nMax) :
    analyzeSource nMax mode (records mode ks) = .done (tally ks, ks.length) := by
  have hstream := symbolStream_records hks
  rw [analyzeSource_of_counted (T := tally ks) (records_ne_nil hne) (by
    rw [hstream]; exact countSymbols_eq_tally hroom) (by rw [hstream]), hstream]

/-- An ill-formed record is reported when the records before it could be counted. -/
theorem analyzeSource_badSymbol {bad : List Byte} (hne : bad ≠ [])
    (hbad : nextSymbol mode bad = .raised .badSymbol) (hroom : ks.eraseDups.length ≤ nMax) :
    analyzeSource nMax mode (records mode ks ++ bad) = .raised .badSymbol := by
  have hstream : symbolStream mode (records mode ks ++ bad) = ⟨ks, some .badSymbol⟩ := by
    simpa [symbolStream_raised hne hbad] using symbolStream_records_append hks bad
  exact analyzeSource_of_fail (T := tally ks) (by simp [hne])
    (by rw [hstream]; exact countSymbols_eq_tally hroom) (by rw [hstream])

/-- A new symbol that finds the table full is reported, whatever follows it. -/
theorem analyzeSource_capacity {k : Symbol} (hk : k.okFor mode = true) (hnew : k ∉ ks)
    (hfull : ks.eraseDups.length = nMax) (tail : List Byte) :
    analyzeSource nMax mode (records mode (ks ++ [k]) ++ tail) = .raised .capacityExceeded := by
  have hall : ∀ j ∈ ks ++ [k], j.okFor mode = true := by simpa [or_imp, forall_and, hk] using hks
  refine analyzeSource_of_count_raised (by simp [records_ne_nil]) ?_
  rw [symbolStream_records_append hall, List.append_assoc, List.singleton_append]
  exact countSymbols_capacity ks k _ hfull hnew

end

/-! ### The command -/

/-- ANALYZE ends well with the table and the count of the analyzer (41_frequency_analyzer.md R104). -/
theorem exec_analyze_of_done {s : State} {src : List Byte} {T : Table} {n : Nat} (hv : s.srcValid)
    (hs : s.srcBytes = some src) (h : analyzeSource s.cfg.nMax s.latch.mode src = .done (T, n)) :
    exec .analyze s = .next
      { s with
        status := { s.status.ended .success with ftMode := s.latch.mode }
        ft := some T, tree := none, crom := none, pbuf := none
        symCount := BitVec.ofNat 32 n } :=
  (withSource_of_bytes _ hv hs).trans (by simp only [h]; rfl)

/-- ANALYZE reports the analyzer's error, with the effects of 60_exceptions.md R250. -/
theorem exec_analyze_of_raised {s : State} {src : List Byte} {e : ErrCode} (hv : s.srcValid)
    (hs : s.srcBytes = some src) (h : analyzeSource s.cfg.nMax s.latch.mode src = .raised e) :
    exec .analyze s = .next
      { s with
        status := { s.status.ended e with ftMode := s.latch.mode }
        ft := none, tree := none, crom := none, pbuf := none, symCount := 0 } :=
  (withSource_of_bytes _ hv hs).trans (by simp only [h]; rfl)

/-- Settles O10: the source is counted to its tally, and ANALYZE stores it. -/
theorem analyzeCountsSymbols : Obligations.AnalyzeCountsSymbols := by
  unfold Obligations.AnalyzeCountsSymbols
  exact fun _ _ hne hks hroom hv hs =>
    exec_analyze_of_done hv hs (analyzeSource_records hks hne hroom)

/-- Settles O12: the three errors of the analyzer, each reported by ANALYZE. -/
theorem analyzeReportsFirstError : Obligations.AnalyzeReportsFirstError := by
  unfold Obligations.AnalyzeReportsFirstError
  intro s ks hv hks
  refine ⟨fun hs => ?_, fun bad hne hbad hroom hs => ?_, fun k tail hk hnew hfull hs => ?_⟩
  · exact exec_analyze_of_raised hv hs (analyzeSource_nil _ _)
  · exact exec_analyze_of_raised hv hs (analyzeSource_badSymbol hks hne hbad hroom)
  · exact exec_analyze_of_raised hv hs (analyzeSource_capacity hks hk hnew hfull tail)

/-- If ANALYZE ends well, it stored the tally of the symbols of its source and their number
(41_frequency_analyzer.md R104, R105). -/
theorem exec_analyze_success {s t : State} (h : exec .analyze s = .next t)
    (hok : t.status.errcode = .success) :
    ∃ src, s.srcBytes = some src ∧ t.ft = some (tally (symbolStream s.latch.mode src).syms) ∧
      t.symCount = BitVec.ofNat 32 (symbolStream s.latch.mode src).syms.length := by
  rcases execAnalyze_cases h with ⟨_, rfl⟩ | ⟨_, src, hs, ⟨e, he, rfl⟩ | ⟨T, n, hd, rfl⟩⟩
  · cases hok
  · have hsuccess : e = .success := hok
    subst hsuccess
    simpa using analyzeSource_raised he
  · obtain ⟨_, _, rfl, rfl, _⟩ := analyzeSource_done hd
    exact ⟨src, hs, rfl, rfl⟩

/-- A source region holds fewer than 2³² symbols, so SYM_COUNT can say how many. -/
theorem symbolStream_length_lt {s : State} {src : List Byte} (hs : s.srcBytes = some src)
    (mode : Mode) : (symbolStream mode src).syms.length < 2 ^ 32 :=
  calc (symbolStream mode src).syms.length ≤ src.length := symbolStream_length_le mode src
    _ = s.latch.args.srcLen.toNat := srcBytes_length hs
    _ < 2 ^ 32 := s.latch.args.srcLen.isLt

theorem mem_tally {ks : List Symbol} {e : Entry} :
    e ∈ tally ks ↔ e.key ∈ ks ∧ e.freq = ks.count e.key := by
  constructor
  · intro he
    obtain ⟨k, hk, rfl⟩ := List.mem_map.mp he
    exact ⟨List.mem_eraseDups.mp hk, rfl⟩
  · rintro ⟨hk, hf⟩
    exact List.mem_map.mpr ⟨e.key, List.mem_eraseDups.mpr hk, by rw [← hf]⟩

/-- Settles O11: the three facts hold of every tally, and SYM_COUNT holds the whole count. -/
theorem analyzePreservesFrequencies : Obligations.AnalyzePreservesFrequencies := by
  unfold Obligations.AnalyzePreservesFrequencies
  intro s t h hok
  obtain ⟨src, hs, hft, hcount⟩ := exec_analyze_success h hok
  refine ⟨_, src, hft, hs, ?_, fun k hk => ?_, fun e he => ?_⟩
  · rw [hcount, BitVec.toNat_ofNat, Nat.mod_eq_of_lt (symbolStream_length_lt hs _), tally_freq_sum]
  · exact ⟨⟨k, _⟩, mem_tally.mpr ⟨hk, rfl⟩, rfl, rfl⟩
  · obtain ⟨hk, hf⟩ := mem_tally.mp he
    rw [hf]
    exact List.count_pos_iff.mpr hk

end Sys2Proof.Machine
end

section
/-! PROOFS. The frame of the commands that read a source region (spec/41_frequency_analyzer.md R104,
spec/45_bitstream_packer.md R190, spec/46_bitstream_unpacker.md R211). -/

namespace Sys2Proof.Machine

/-- Settles O40: each way such a command can end is an update of its own outputs and of STATUS. -/
theorem sourceCommandsFrame : Obligations.SourceCommandsFrame := by
  unfold Obligations.SourceCommandsFrame
  intro i s t hi h
  simp only [List.mem_cons, List.not_mem_nil, or_false] at hi
  rcases hi with rfl | rfl | rfl
  · rcases execAnalyze_cases h with ⟨_, rfl⟩ | ⟨_, _, _, ⟨_, _, rfl⟩ | ⟨_, _, _, rfl⟩⟩ <;>
      exact ⟨rfl, fun _ => rfl⟩
  · rcases execEncode_cases h with ⟨_, rfl⟩ |
      ⟨_, _, _, _, ⟨_, rfl⟩ | ⟨_, _, _, ⟨_, _, rfl⟩ | ⟨_, _, _, rfl⟩⟩⟩ <;>
      exact ⟨rfl, fun _ => rfl⟩
  · rcases execUnpack_cases h with ⟨_, rfl⟩ | ⟨_, _, _, ⟨_, _, rfl⟩ | ⟨_, _, _, rfl⟩⟩ <;>
      exact ⟨rfl, fun _ => rfl⟩

end Sys2Proof.Machine
end

section
/-! PROOFS. BUILD_TREE as a command (spec/42_tree_builder.md R123, R124), and the frame of the two
tree commands (spec/43_code_generator.md R142). -/

namespace Sys2Proof.Machine

/-- BUILD_TREE ends well with the tree of FT (42_tree_builder.md R123). -/
theorem exec_buildTree_of_some {s : State} {T : Table} {r : HuffTree} (hT : s.ft = some T)
    (hr : buildTree T = some r) :
    exec .buildTree s = .next
      { s with status := s.status.ended .success, tree := some r, crom := none } := by
  have h : exec .buildTree s = .next ((s.storeTree r).finish .success) := by
    simp only [exec, execBuildTree, hT, hr]
  exact h

/-- An empty FT is reported, with the effects of 60_exceptions.md R250. -/
theorem exec_buildTree_of_empty {s : State} (hT : s.ft = some []) :
    exec .buildTree s = .next
      { s with status := s.status.ended .emptyInput, tree := none, crom := none } := by
  simp only [exec, execBuildTree, hT, buildTree_nil, raise_buildTree]

/-- A table of one entry needs no merge (42_tree_builder.md R124). -/
theorem buildTree_singleton (e : Entry) : buildTree [e] = some (.leaf 0 e.freq) := rfl

/-- Settles O14: a table with entries has a tree, and only the empty one has none. -/
theorem buildTreeStoresTree : Obligations.BuildTreeStoresTree := by
  unfold Obligations.BuildTreeStoresTree
  intro s T hT
  refine ⟨fun hne => ?_, ?_, ?_⟩
  · obtain ⟨r, hr, _⟩ := buildTree_of_ne_nil hne
    exact ⟨r, hr, exec_buildTree_of_some hT hr⟩
  · rintro rfl
    exact exec_buildTree_of_empty hT
  · rintro e rfl
    exact buildTree_singleton e

/-- Settles O39: each way such a command can end is an update of TREE, CROM and STATUS. -/
theorem treeCommandsFrame : Obligations.TreeCommandsFrame := by
  unfold Obligations.TreeCommandsFrame
  intro i s t hi h
  simp only [List.mem_cons, List.not_mem_nil, or_false] at hi
  rcases hi with rfl | rfl
  · rcases execBuildTree_cases h with ⟨_, rfl⟩ | ⟨_, _, ⟨_, rfl⟩ | ⟨_, _, rfl⟩⟩ <;>
      exact ⟨rfl, fun _ => rfl⟩
  · rcases execGenCodes_cases h with ⟨_, rfl⟩ | ⟨_, _, rfl⟩ <;> exact ⟨rfl, fun _ => rfl⟩

end Sys2Proof.Machine
end

section
/-! PROOFS. The order of Q (spec/42_tree_builder.md R120, R126): where an insertion puts a node, and
that the newest of equal frequency stays first. -/

namespace Sys2Proof.Machine

/-- The order of Q on nodes as trees (42_tree_builder.md R126): the lower frequency first, and of
equal frequencies the newer node. -/
abbrev HuffTree.before (a b : HuffTree) : Prop :=
  a.freq < b.freq ∨ a.freq = b.freq ∧ b.number < a.number

/-- The place of an insertion (42_tree_builder.md R120). -/
theorem insertNode_eq_findIdx (x : HuffTree) (q : List HuffTree) :
    insertNode x q =
      q.take (q.findIdx fun y => decide (x.freq ≤ y.freq)) ++
        x :: q.drop (q.findIdx fun y => decide (x.freq ≤ y.freq)) := by
  induction q with
  | nil => rfl
  | cons y q ih =>
    by_cases hle : x.freq ≤ y.freq
    · simp [insertNode, List.findIdx_cons, hle]
    · simpa [insertNode, List.findIdx_cons, hle] using ih

/-- An insertion keeps any order of Q that refines the order of frequency, if the new node goes
after the lower frequencies and before the others in it. -/
theorem insertNode_pairwise {R : HuffTree → HuffTree → Prop} (hR : ∀ a b, R a b → a.freq ≤ b.freq)
    {x : HuffTree} {q : List HuffTree} (hlow : ∀ y ∈ q, y.freq < x.freq → R y x)
    (hhigh : ∀ y ∈ q, x.freq ≤ y.freq → R x y) (hq : q.Pairwise R) :
    (insertNode x q).Pairwise R := by
  induction q with
  | nil => exact List.pairwise_singleton R x
  | cons y q ih =>
    obtain ⟨hy, hq'⟩ := List.pairwise_cons.mp hq
    rw [insertNode]
    split
    · next hle =>
      refine List.pairwise_cons.mpr ⟨fun z hz => hhigh z hz ?_, hq⟩
      rcases List.mem_cons.mp hz with rfl | hz
      · exact hle
      · exact hle.trans (hR _ _ (hy z hz))
    · next hlt =>
      refine List.pairwise_cons.mpr ⟨fun z hz => ?_, ih (fun z hz => hlow z (.tail _ hz))
        (fun z hz => hhigh z (.tail _ hz)) hq'⟩
      rcases mem_insertNode.mp hz with rfl | hz
      · exact hlow y (.head _) (not_le.mp hlt)
      · exact hy z hz

/-- The insertion of a node newer than all of Q keeps the order of Q. -/
theorem insertNode_before {x : HuffTree} {q : List HuffTree} (hx : ∀ y ∈ q, y.number < x.number)
    (hq : q.Pairwise HuffTree.before) : (insertNode x q).Pairwise HuffTree.before :=
  insertNode_pairwise (fun a b h => by omega) (fun _ _ h => .inl h)
    (fun y hy h => by have := hx y hy; omega) hq

/-- Leaves inserted behind older nodes stand in the order of Q. -/
theorem insertLeaves_before {i : Nat} {T : Table} {q : List HuffTree} (hi : ∀ y ∈ q, y.number < i)
    (hq : q.Pairwise HuffTree.before) : (insertLeaves i T q).Pairwise HuffTree.before := by
  induction T generalizing i q with
  | nil => exact hq
  | cons e T ih =>
    refine ih (fun y hy => ?_) (insertNode_before hi hq)
    rcases mem_insertNode.mp hy with rfl | hy
    · exact i.lt_succ_self
    · exact (hi y hy).trans i.lt_succ_self

/-- Settles O15: the place is found by walking Q, and the order of frequency refines itself. -/
theorem insertGoesBeforeEqualFrequency : Obligations.InsertGoesBeforeEqualFrequency := by
  unfold Obligations.InsertGoesBeforeEqualFrequency
  exact fun x q => ⟨insertNode_eq_findIdx x q,
    insertNode_pairwise (fun _ _ h => h) (fun _ _ h => h.le) (fun _ _ h => h)⟩

/-- Settles O16: a newer node goes before its equals, and the leaves come in rising number. -/
theorem newestOfEqualFrequencyIsFirst : Obligations.NewestOfEqualFrequencyIsFirst := by
  unfold Obligations.NewestOfEqualFrequencyIsFirst
  exact ⟨fun _ _ => insertNode_before,
    fun _ => insertLeaves_before (fun _ h => nomatch h) List.Pairwise.nil⟩

end Sys2Proof.Machine
end

section
/-! PROOFS. The merge loop (spec/42_tree_builder.md R121, R122): the numbers of its nodes, and an
invariant that says of every merge done so far that it took the two first nodes of Q. -/

namespace Sys2Proof.Machine

/-- The tree of a table is the one node the merge loop leaves. -/
theorem mergeNodes_of_buildTree {T : Table} {r : HuffTree} (h : buildTree T = some r) :
    mergeNodes T.length T.length (insertLeaves 0 T []) = [r] := by
  obtain ⟨r', hr, hm⟩ := buildTree_of_ne_nil (ne_nil_of_buildTree h)
  obtain rfl : r' = r := Option.some.inj (hr.symm.trans h)
  exact hm

/-! ### The numbering -/

/-- The pool of a table's tree has the numbers of 42_tree_builder.md R122. -/
theorem buildTree_numbers {T : Table} {r : HuffTree} (h : buildTree T = some r) :
    (r.nodes.map Prod.fst).Perm (List.range (2 * T.length - 1)) := by
  have hm := mergeNodes_of_buildTree h
  obtain ⟨n, hperm, hn⟩ := mergeNodes_numbers T.length T.length (insertLeaves 0 T [])
  rw [hm] at hperm hn
  have hlen : 2 * T.length - 1 = T.length + n := by simp at hn; omega
  have hleaves := (insertLeaves_numbers 0 T []).append_right (List.range' T.length n)
  have hrange := List.range'_append (s := 0) (m := T.length) (n := n) (step := 1)
  simpa [hlen, List.range_eq_range', ← hrange] using hperm.trans hleaves

/-- The root of a table's tree is the node made last. -/
theorem buildTree_root {T : Table} {r : HuffTree} (h : buildTree T = some r) :
    r.root = 2 * T.length - 2 := by
  have hm := mergeNodes_of_buildTree h
  match T, h, hm with
  | [e], h, _ =>
    rw [buildTree_singleton] at h
    cases h
    rfl
  | e :: e' :: T, _, hm =>
    rcases mergeNodes_root hm (by simp) with hq | ⟨hroot, _⟩
    · simpa using congrArg List.length hq
    · simp [HuffTree.root] at hroot ⊢
      omega

/-- Settles O18: the numbers of the pool and of its root. -/
theorem treeNumbering : Obligations.TreeNumbering := by
  unfold Obligations.TreeNumbering
  exact fun _ _ h => ⟨buildTree_numbers h, buildTree_root h⟩

/-! ### Pools -/

/-- The node pool while the tree is built: the pools of the nodes in Q (42_tree_builder.md R122). -/
def pool (q : List HuffTree) : List (Nat × Node) := q.flatMap HuffTree.nodes

theorem mem_pool {p : Nat × Node} {q : List HuffTree} : p ∈ pool q ↔ ∃ t ∈ q, p ∈ t.nodes :=
  List.mem_flatMap

@[simp] theorem pool_singleton (t : HuffTree) : pool [t] = t.nodes := List.flatMap_singleton ..

/-- A merge adds its node to the pool. -/
theorem pool_merge_perm (k f : Nat) (a b : HuffTree) (q : List HuffTree) :
    (pool (insertNode (.internal k f a b) q)).Perm
      ((k, .internal a.number b.number f) :: pool (a :: b :: q)) := by
  refine (insertNode_nodes _ q).trans ?_
  simpa [pool, HuffTree.nodes] using List.perm_middle (l₁ := a.nodes ++ b.nodes)

theorem mem_pool_merge {k f : Nat} {a b : HuffTree} {q : List HuffTree} {p : Nat × Node} :
    p ∈ pool (insertNode (.internal k f a b) q) ↔
      p = (k, .internal a.number b.number f) ∨ p ∈ pool (a :: b :: q) := by
  rw [(pool_merge_perm k f a b q).mem_iff, List.mem_cons]

/-- An internal node of the pool after a merge is the one the merge made, or an older one. -/
theorem internal_mem_pool_merge {k f k' l m g : Nat} {a b : HuffTree} {q : List HuffTree} :
    (k', Node.internal l m g) ∈ pool (insertNode (.internal k f a b) q) ↔
      (k' = k ∧ l = a.number ∧ m = b.number ∧ g = f) ∨
        (k', Node.internal l m g) ∈ pool (a :: b :: q) := by
  simp [mem_pool_merge]

/-! ### What a merge takes -/

/-- Node `k` of a pool, with the children `l` and `m`, merges the two first nodes of the Q it found
(42_tree_builder.md R121, R126): what the statement MergeTakesTheTwoSmallest says of one node. -/
def MergesTwoFirst (pool : List (Nat × Node)) (k l m : Nat) : Prop :=
  l < k ∧ m < k ∧ ∃ x y, (l, x) ∈ pool ∧ (m, y) ∈ pool ∧ queuedBefore (l, x) (m, y) ∧
    ¬ mergedBefore pool k l ∧ ¬ mergedBefore pool k m ∧
    ∀ j z, (j, z) ∈ pool → j < k → j ≠ l → j ≠ m → ¬ mergedBefore pool k j →
      queuedBefore (m, y) (j, z)

section

variable {old new : List (Nat × Node)} {n k : Nat} {x : Node}
  (hnew : ∀ p, p ∈ new ↔ p = (n, x) ∨ p ∈ old) (hk : k ≤ n)

include hnew hk

/-- A node made later does not change what had left Q before. -/
theorem mergedBefore_of_added {j : Nat} : mergedBefore new k j ↔ mergedBefore old k j := by
  constructor
  · rintro ⟨k', l, m, f, hmem, hlt, hj⟩
    rcases (hnew _).mp hmem with heq | hmem
    · have : k' = n := congrArg Prod.fst heq
      omega
    · exact ⟨k', l, m, f, hmem, hlt, hj⟩
  · rintro ⟨k', l, m, f, hmem, hlt, hj⟩
    exact ⟨k', l, m, f, (hnew _).mpr (.inr hmem), hlt, hj⟩

/-- A node made later does not change what a merge took. -/
theorem MergesTwoFirst.of_added {l m : Nat} (h : MergesTwoFirst old k l m) :
    MergesTwoFirst new k l m := by
  obtain ⟨hl, hm, y, z, hy, hz, hyz, hlq, hmq, hrest⟩ := h
  have hmerged (j : Nat) := mergedBefore_of_added hnew hk (j := j)
  refine ⟨hl, hm, y, z, (hnew _).mpr (.inr hy), (hnew _).mpr (.inr hz), hyz,
    (hmerged l).not.mpr hlq, (hmerged m).not.mpr hmq, fun j w hj hjk hjl hjm hjq => ?_⟩
  rcases (hnew _).mp hj with heq | hj
  · have : j = n := congrArg Prod.fst heq
    omega
  · exact hrest j w hj hjk hjl hjm ((hmerged j).not.mp hjq)

end

/-! ### The invariant of the loop -/

/-- The invariant of the merge loop when node `k` is the next to be made. -/
structure MergeInv (k : Nat) (q : List HuffTree) : Prop where
  /-- The pool holds nodes 0 to k−1, each once. -/
  numbered : ((pool q).map Prod.fst).Perm (List.range k)
  /-- Q is in its order. -/
  ordered : q.Pairwise HuffTree.before
  /-- A node in Q is no node's child yet. -/
  unmerged : ∀ t ∈ q, ¬ mergedBefore (pool q) k t.number
  /-- Every merge done took the two first nodes of Q. -/
  merges : ∀ k' l m f, (k', Node.internal l m f) ∈ pool q → MergesTwoFirst (pool q) k' l m

namespace MergeInv

variable {k : Nat} {q : List HuffTree} {a b : HuffTree}

theorem lt_of_mem (h : MergeInv k q) {p : Nat × Node} (hp : p ∈ pool q) : p.1 < k :=
  List.mem_range.mp (h.numbered.subset (List.mem_map_of_mem hp))

theorem number_lt (h : MergeInv k q) {t : HuffTree} (ht : t ∈ q) : t.number < k := by
  obtain ⟨x, hx, _⟩ := exists_root_mem_nodes t
  exact h.lt_of_mem (mem_pool.mpr ⟨t, ht, hx⟩)

/-- Different nodes of Q have different numbers. -/
theorem numbers_ne (h : MergeInv k q) : q.Pairwise fun t u => t.number ≠ u.number := by
  have hnodup : (q.flatMap fun t => t.nodes.map Prod.fst).Nodup := by
    rw [← List.map_flatMap]
    exact h.numbered.nodup_iff.mpr List.nodup_range
  refine (List.nodup_flatMap.mp hnodup).2.imp fun {t u} hdisj heq => ?_
  exact hdisj (number_mem_nodes t) (heq ▸ number_mem_nodes u)

/-- A node of the pool that no node has as a child is in Q. -/
theorem mem_of_not_mergedBefore (h : MergeInv k q) {j : Nat} {x : Node} (hj : (j, x) ∈ pool q)
    (hq : ¬ mergedBefore (pool q) k j) : ∃ t ∈ q, j = t.number ∧ x.freq = t.freq := by
  obtain ⟨t, ht, hj⟩ := mem_pool.mp hj
  rcases root_or_child_of_mem_nodes hj with hroot | ⟨k', l, m, f, hmem, hchild⟩
  · exact ⟨t, ht, hroot⟩
  · have hmem' := mem_pool.mpr ⟨t, ht, hmem⟩
    exact absurd ⟨k', l, m, f, hmem', h.lt_of_mem hmem', hchild⟩ hq

/-- The two first nodes of Q are the two first of the nodes not merged yet. -/
theorem mergesTwoFirst (h : MergeInv k (a :: b :: q)) :
    MergesTwoFirst (pool (a :: b :: q)) k a.number b.number := by
  have ha : a ∈ a :: b :: q := by simp
  have hb : b ∈ a :: b :: q := by simp
  obtain ⟨x, hx, hxf⟩ := exists_root_mem_nodes a
  obtain ⟨y, hy, hyf⟩ := exists_root_mem_nodes b
  obtain ⟨hfirst, hsecond⟩ := List.pairwise_cons.mp h.ordered
  refine ⟨h.number_lt ha, h.number_lt hb, x, y, mem_pool.mpr ⟨a, ha, hx⟩, mem_pool.mpr ⟨b, hb, hy⟩,
    ?_, h.unmerged a ha, h.unmerged b hb, fun j z hz _ hja hjb hjq => ?_⟩
  · simpa [queuedBefore, hxf, hyf] using hfirst b (.head _)
  · obtain ⟨t, ht, rfl, hzf⟩ := h.mem_of_not_mergedBefore hz hjq
    have htq : t ∈ q := by
      simp only [List.mem_cons] at ht
      rcases ht with rfl | rfl | ht
      · exact absurd rfl hja
      · exact absurd rfl hjb
      · exact ht
    simpa [queuedBefore, hyf, hzf] using (List.pairwise_cons.mp hsecond).1 t htq

/-- A node that stays in Q through a merge is no node's child after it. -/
theorem unmerged_of_mem (h : MergeInv k (a :: b :: q)) {f : Nat} {t : HuffTree} (ht : t ∈ q) :
    ¬ mergedBefore (pool (insertNode (.internal k f a b) q)) (k + 1) t.number := by
  rintro ⟨k', l, m, g, hmem, _, hj⟩
  rcases internal_mem_pool_merge.mp hmem with ⟨rfl, rfl, rfl, rfl⟩ | hmem
  · obtain ⟨hane, hbne⟩ := List.pairwise_cons.mp h.numbers_ne
    rcases hj with hj | hj
    · exact hane t (by simp [ht]) hj.symm
    · exact (List.pairwise_cons.mp hbne).1 t ht hj.symm
  · exact h.unmerged t (by simp [ht]) ⟨k', l, m, g, hmem, h.lt_of_mem hmem, hj⟩

/-- The children of a node are older than it, so the node a merge makes is no node's child. -/
theorem unmerged_new (h : MergeInv k (a :: b :: q)) {f : Nat} :
    ¬ mergedBefore (pool (insertNode (.internal k f a b) q)) (k + 1) k := by
  rintro ⟨k', l, m, g, hmem, _, hj⟩
  rcases internal_mem_pool_merge.mp hmem with ⟨rfl, rfl, rfl, rfl⟩ | hmem
  · have := h.number_lt (t := a) (by simp)
    have := h.number_lt (t := b) (by simp)
    omega
  · obtain ⟨hl, hm, _⟩ := h.merges k' l m g hmem
    have := h.lt_of_mem hmem
    omega

/-- One merge keeps the invariant. -/
theorem merge (h : MergeInv k (a :: b :: q)) (f : Nat) :
    MergeInv (k + 1) (insertNode (.internal k f a b) q) where
  numbered := by
    refine ((pool_merge_perm k f a b q).map Prod.fst).trans ?_
    rw [List.range_succ, List.map_cons]
    exact (h.numbered.cons k).trans (List.perm_append_singleton k _).symm
  ordered :=
    insertNode_before (fun y hy => h.number_lt (.tail _ (.tail _ hy))) h.ordered.of_cons.of_cons
  unmerged t ht := by
    rcases mem_insertNode.mp ht with rfl | ht
    · exact h.unmerged_new
    · exact h.unmerged_of_mem ht
  merges k' l m g hmem := by
    rcases internal_mem_pool_merge.mp hmem with ⟨rfl, rfl, rfl, rfl⟩ | hmem
    · exact h.mergesTwoFirst.of_added (fun _ => mem_pool_merge) le_rfl
    · exact (h.merges k' l m g hmem).of_added (fun _ => mem_pool_merge) (h.lt_of_mem hmem).le

/-- The merge loop keeps the invariant. -/
theorem mergeLoop {fuel : Nat} (h : MergeInv k q) : ∃ n, MergeInv n (mergeNodes fuel k q) := by
  induction fuel generalizing k q with
  | zero => exact ⟨k, h⟩
  | succ fuel ih =>
    match q, h with
    | [], h => exact ⟨k, h⟩
    | [_], h => exact ⟨k, h⟩
    | _ :: _ :: _, h => exact ih (h.merge _)

/-- The pool of leaves holds no internal node. -/
theorem not_mem_pool_insertLeaves {i : Nat} {T : Table} {k l m f : Nat} :
    (k, Node.internal l m f) ∉ pool (insertLeaves i T []) := by
  intro hmem
  obtain ⟨t, ht, hmem⟩ := mem_pool.mp hmem
  exact insertLeaves_forall (P := fun t => (k, Node.internal l m f) ∉ t.nodes)
    (fun _ _ => by simp [HuffTree.nodes]) (by simp) t ht hmem

/-- The invariant holds when all the leaves are in Q. -/
theorem initial (T : Table) : MergeInv T.length (insertLeaves 0 T []) where
  numbered := by simpa [pool, List.range_eq_range'] using insertLeaves_numbers 0 T []
  ordered := insertLeaves_before (fun _ h => nomatch h) List.Pairwise.nil
  unmerged _ _ h := by
    obtain ⟨_, _, _, _, hmem, _⟩ := h
    exact not_mem_pool_insertLeaves hmem
  merges _ _ _ _ hmem := absurd hmem not_mem_pool_insertLeaves

end MergeInv

/-! ### The tree -/

/-- Every internal node of a table's tree merges the two first nodes of Q. -/
theorem buildTree_mergesTwoFirst {T : Table} {r : HuffTree} (h : buildTree T = some r)
    {k l m f : Nat} (hmem : (k, Node.internal l m f) ∈ r.nodes) : MergesTwoFirst r.nodes k l m := by
  have hm := mergeNodes_of_buildTree h
  obtain ⟨n, hinv⟩ := (MergeInv.initial T).mergeLoop (fuel := T.length)
  rw [hm] at hinv
  simpa using hinv.merges k l m f (by simpa using hmem)

/-- Settles O59: the invariant of the merge loop, when one node is left. -/
theorem mergeTakesTheTwoSmallest : Obligations.MergeTakesTheTwoSmallest := by
  unfold Obligations.MergeTakesTheTwoSmallest
  exact fun _ _ h _ _ _ _ => buildTree_mergesTwoFirst h

/-- An internal node of a table's tree has two different children in the pool: they stand one before
the other in Q, and a number stands for one node. -/
theorem buildTree_children {T : Table} {r : HuffTree} (h : buildTree T = some r) {k l m f : Nat}
    (hmem : (k, Node.internal l m f) ∈ r.nodes) :
    l ≠ m ∧ l ∈ r.nodes.map Prod.fst ∧ m ∈ r.nodes.map Prod.fst := by
  obtain ⟨_, _, x, y, hx, hy, hxy, _⟩ := buildTree_mergesTwoFirst h hmem
  refine ⟨?_, List.mem_map_of_mem hx, List.mem_map_of_mem hy⟩
  rintro rfl
  have hnodup := (buildTree_numbers h).nodup_iff.mpr List.nodup_range
  have heq := List.inj_on_of_nodup_map hnodup hx hy rfl
  rw [heq] at hxy
  omega

/-- The root's frequency is the sum of the table's (42_tree_builder.md R127). -/
theorem buildTree_freq {T : Table} {r : HuffTree} (h : buildTree T = some r) :
    r.freq = (T.map (·.freq)).sum := by
  have hfreqs : (T.zipIdx.map fun p => (p.2, p.1.freq)).map Prod.snd = T.map (·.freq) := by
    calc (T.zipIdx.map fun p => (p.2, p.1.freq)).map Prod.snd
        = (T.zipIdx.map Prod.fst).map (·.freq) := by simp only [List.map_map, Function.comp_def]
      _ = T.map (·.freq) := by rw [List.zipIdx_map_fst]
  rw [freq_eq_sum (buildTree_freqsAdd h), ((buildTree_leaves h).map Prod.snd).sum_eq,
    hfreqs]

/-- Settles O17: what the merges keep, the paths, and the two children of every merge. -/
theorem treeInvariants : Obligations.TreeInvariants := by
  unfold Obligations.TreeInvariants
  exact fun _ r h => ⟨buildTree_freqsAdd h, buildTree_freq h, buildTree_leaves h,
    paths_prefixFree [] r, fun _ _ _ _ => buildTree_children h⟩

end Sys2Proof.Machine
end

section
/-! PROOFS. GEN_CODES (spec/43_code_generator.md R140 to R144): the code of a table index is the
path to its leaf, no code starts another, their lengths are bounded, and the command stores them. -/

namespace Sys2Proof.Machine

/-! ### The code of a table index -/

/-- The tree of a one-entry table gives its entry the code 0 (43_code_generator.md R140). -/
theorem codeAt_genCodes_singleton {T : Table} {r : HuffTree} {i : Nat} (h : buildTree T = some r)
    (hi : i < T.length) (hone : T.length = 1) : codeAt (genCodes r) i = [false] := by
  obtain ⟨e, rfl⟩ := List.length_eq_one_iff.mp hone
  obtain rfl : i = 0 := Nat.lt_one_iff.mp hi
  rw [buildTree_singleton] at h
  cases h
  rfl

/-- The code of an entry of a longer table is the path to its leaf, which no shorter start of it
reaches (43_code_generator.md R140). -/
theorem codeAt_genCodes_child {T : Table} {r : HuffTree} {i : Nat} (h : buildTree T = some r)
    (hi : i < T.length) (htwo : 2 ≤ T.length) :
    (∃ f, (codeAt (genCodes r) i).foldl HuffTree.child r = .leaf i f) ∧
      ∀ q, q <+: codeAt (genCodes r) i → q ≠ codeAt (genCodes r) i →
        ∃ k f a b, q.foldl HuffTree.child r = .internal k f a b := by
  cases r with
  | leaf sym f =>
    obtain ⟨hone, _⟩ := buildTree_leaf h
    omega
  | internal k f a b =>
    obtain ⟨p, hp, rfl⟩ := exists_code h hi
    exact paths_child (c := []) hp

/-- Settles O20: a one-entry table has the code 0, and the codes of a longer one are the paths. -/
theorem codeIsThePathToTheLeaf : Obligations.CodeIsThePathToTheLeaf := by
  unfold Obligations.CodeIsThePathToTheLeaf
  exact fun _ _ _ h hi => ⟨codeAt_genCodes_singleton h hi, codeAt_genCodes_child h hi⟩

/-! ### Lengths and prefixes -/

/-- The bounds of 43_code_generator.md R144. -/
theorem codeAt_genCodes_length_bounds {T : Table} {r : HuffTree} {i : Nat}
    (h : buildTree T = some r) (hi : i < T.length) :
    1 ≤ (codeAt (genCodes r) i).length ∧
      (codeAt (genCodes r) i).length ≤ max 1 (T.length - 1) := by
  obtain ⟨p, hp, rfl⟩ := exists_code h hi
  rw [← buildTree_leaves_length h]
  exact codes_length_bounds hp

/-- Settles O22: a code is a path, no longer than there are other leaves, or the single bit 0. -/
theorem codeLengthsAreBounded : Obligations.CodeLengthsAreBounded := by
  unfold Obligations.CodeLengthsAreBounded
  exact fun _ _ _ => codeAt_genCodes_length_bounds

/-- The codes of different table indices do not start one another
(43_code_generator.md R143). -/
theorem codeAt_genCodes_not_prefix {T : Table} {r : HuffTree} {i j : Nat}
    (h : buildTree T = some r) (hi : i < T.length) (hj : j < T.length) (hij : i ≠ j) :
    ¬ codeAt (genCodes r) i <+: codeAt (genCodes r) j := by
  obtain ⟨p, hp, hpi⟩ := exists_code h hi
  obtain ⟨q, hq, hqj⟩ := exists_code h hj
  have hne : (i, p) ≠ (j, q) := fun heq => hij (congrArg Prod.fst heq)
  have hsymm : Std.Symm fun c d : Nat × Bits => ¬ c.2 <+: d.2 ∧ ¬ d.2 <+: c.2 :=
    ⟨fun _ _ hcd => And.symm hcd⟩
  rw [hpi, hqj]
  exact ((codes_prefixFree r).forall hp hq hne).1

/-! ### The command -/

/-- Settles O19: with a tree, the command ends well with the tree's codes. -/
theorem genCodesStoresRom : Obligations.GenCodesStoresRom := by
  unfold Obligations.GenCodesStoresRom
  intro s r hr
  have h : exec .genCodes s = .next ((s.storeCodes (genCodes r)).finish .success) := by
    simp only [exec, execGenCodes, hr]
  exact h

/-- TREE is the tree of FT (10_state.md R38). -/
theorem Inv.exists_table {s : State} {r : HuffTree} (hinv : Inv s) (hr : s.tree = some r) :
    ∃ T, s.ft = some T ∧ buildTree T = some r := by
  rcases hinv.treeOfTable with hnone | hbind
  · rw [hr] at hnone
    cases hnone
  · exact Option.bind_eq_some_iff.mp (hbind.symm.trans hr)

/-- Settles O21: if GEN_CODES ends well, its codes are those of the tree of FT. -/
theorem codesArePrefixFree : Obligations.CodesArePrefixFree := by
  unfold Obligations.CodesArePrefixFree
  intro s t hinv h hok
  rcases execGenCodes_cases h with ⟨_, rfl⟩ | ⟨r, hr, rfl⟩
  · cases hok
  · obtain ⟨T, hT, hb⟩ := hinv.exists_table hr
    exact ⟨T, genCodes r, hT, rfl, genCodes_length hb,
      fun _ hi => (codeAt_genCodes_length_bounds hb hi).1,
      fun _ _ => codeAt_genCodes_not_prefix hb⟩

end Sys2Proof.Machine
end

section
/-! PROOFS. SerTable (spec/44_table_codec.md R161 to R165): when a field cannot hold its value, and
what the bits and their number are otherwise. -/

namespace Sys2Proof.Machine

/-- Every field of the serialized table can hold its value (44_table_codec.md R165). -/
def FieldsFit : Mode → Table → Prop
  | .numeric, T => T.length < 2 ^ 32 ∧ freqWidth T ≤ 63 ∧ keyWidth T ≤ 63
  | .byteSeq, T => ∀ e ∈ T, e.freq < 2 ^ 32 ∧ e.key.bytes.length ≤ 63

/-- The bits of the serialized table (44_table_codec.md R161 to R164). -/
def tableBits : Mode → Table → Bits
  | .numeric, T => numericHeader T ++ numericBody (keyWidth T) (freqWidth T) T
  | .byteSeq, T => T.flatMap byteSeqRecord ++ sentinel

theorem serTable_of_fieldsFit {mode : Mode} {T : Table} (h : FieldsFit mode T) :
    serTable mode T = .done (tableBits mode T) := by
  cases mode with
  | numeric =>
    obtain ⟨hn, hf, hk⟩ := h
    exact if_neg (by omega)
  | byteSeq =>
    refine if_neg ?_
    simp only [List.any_eq_true, decide_eq_true_eq, not_exists, not_and]
    intro e he
    obtain ⟨hf, hk⟩ := h e he
    omega

theorem serTable_of_not_fieldsFit {mode : Mode} {T : Table} (h : ¬ FieldsFit mode T) :
    serTable mode T = .raised .fieldRange := by
  cases mode with
  | numeric =>
    unfold FieldsFit at h
    exact if_pos (by omega)
  | byteSeq =>
    unfold FieldsFit at h
    push Not at h
    obtain ⟨e, he, hbad⟩ := h
    refine if_pos (List.any_eq_true.mpr ⟨e, he, decide_eq_true ?_⟩)
    omega

/-- SerTable answers a table's bits exactly when its fields hold their values. -/
theorem serTable_done_iff {mode : Mode} {T : Table} {tb : Bits} :
    serTable mode T = .done tb ↔ FieldsFit mode T ∧ tableBits mode T = tb := by
  by_cases h : FieldsFit mode T
  · simp [serTable_of_fieldsFit h, h]
  · simp [serTable_of_not_fieldsFit h, h]

/-- SerTable raises FIELD_RANGE exactly when a field cannot hold its value
(44_table_codec.md R165). -/
theorem serTable_fieldRange_iff {mode : Mode} {T : Table} :
    serTable mode T = .raised .fieldRange ↔ ¬ FieldsFit mode T := by
  by_cases h : FieldsFit mode T
  · simp [serTable_of_fieldsFit h, h]
  · simp [serTable_of_not_fieldsFit h, h]

/-! ### The widths and lengths -/

/-- A width holds the largest number of a list exactly when it holds every one. -/
theorem bitlen_maxOf_le_iff {l : List Nat} {w : Nat} :
    bitlen (maxOf l) ≤ w ↔ ∀ x ∈ l, x < 2 ^ w := by
  rw [bitlen_le_iff]
  exact ⟨fun h x hx => lt_of_le_of_lt (le_maxOf hx) h, maxOf_lt (Nat.two_pow_pos w)⟩

/-- F is the least width of every frequency (44_table_codec.md R161). -/
theorem freqWidth_le_iff {T : Table} {w : Nat} : freqWidth T ≤ w ↔ ∀ e ∈ T, e.freq < 2 ^ w :=
  bitlen_maxOf_le_iff.trans List.forall_mem_map

/-- K is the least width of every key (44_table_codec.md R161). -/
theorem keyWidth_le_iff {T : Table} {w : Nat} : keyWidth T ≤ w ↔ ∀ e ∈ T, e.key.value < 2 ^ w :=
  bitlen_maxOf_le_iff.trans List.forall_mem_map

@[simp] theorem numericHeader_length (T : Table) : (numericHeader T).length = 44 := by
  simp [numericHeader]

@[simp] theorem numericBody_length (k f : Nat) (T : Table) :
    (numericBody k f T).length = T.length * (k + f) := by
  simp [numericBody, List.length_flatMap]

theorem flatMap_byteSeqRecord_length (T : Table) :
    (T.flatMap byteSeqRecord).length = (T.map fun e => 6 + 8 * e.key.bytes.length + 32).sum := by
  simp [List.length_flatMap]

/-- Settles O25: SerTable answers the table's bits, and each width is the least one. -/
theorem serializedTableLayout : Obligations.SerializedTableLayout := by
  unfold Obligations.SerializedTableLayout
  intro T tb
  constructor
  · intro h
    obtain ⟨-, rfl⟩ := serTable_done_iff.mp h
    exact ⟨rfl, by simp [tableBits], fun _ => freqWidth_le_iff,
      fun _ => keyWidth_le_iff⟩
  · intro h
    obtain ⟨-, rfl⟩ := serTable_done_iff.mp h
    refine ⟨rfl, ?_⟩
    rw [tableBits, List.length_append, flatMap_byteSeqRecord_length, sentinel, u_length]

/-! ### The tables of a state -/

/-- A key of byte-sequence mode fits its 6-bit length field. -/
theorem bytes_length_of_okFor {k : Symbol} (h : k.okFor .byteSeq = true) : k.bytes.length ≤ 63 := by
  obtain ⟨bs, rfl, -, h63⟩ := octets_of_okFor h
  exact h63

/-- A key of numeric mode has at most 63 bits. -/
theorem value_lt_of_okFor {k : Symbol} (h : k.okFor .numeric = true) : k.value < 2 ^ 63 := by
  obtain ⟨v, rfl, hv⟩ := num_of_okFor h
  exact hv

/-- Every field of a table the block can hold fits (44_table_codec.md R165; 10_state.md R30). -/
theorem TableOk.fieldsFit {nMax : Nat} {mode : Mode} {T : Table} (h : TableOk nMax mode T)
    (hmax : nMax < 2 ^ 32) : FieldsFit mode T := by
  cases mode with
  | numeric =>
    exact ⟨lt_of_le_of_lt h.room hmax, freqWidth_le_iff.mpr h.freqsFit,
      keyWidth_le_iff.mpr fun e he => value_lt_of_okFor (h.keysFit e he)⟩
  | byteSeq =>
    exact fun e he => ⟨h.byteSeqFreqsFit rfl e he, bytes_length_of_okFor (h.keysFit e he)⟩

/-- Settles O26: FIELD_RANGE is the failure of `FieldsFit`, which the invariant gives of FT. -/
theorem fieldRangeIsUnreachable : Obligations.FieldRangeIsUnreachable := by
  unfold Obligations.FieldRangeIsUnreachable
  refine ⟨fun T => ?_, fun T hok => ?_, fun s T hinv hT => ?_⟩
  · rw [serTable_fieldRange_iff, FieldsFit]
    omega
  · rw [serTable_fieldRange_iff, FieldsFit]
    push Not
    refine exists_congr fun e => and_congr_right fun he => ?_
    have := bytes_length_of_okFor (hok e he)
    omega
  · obtain ⟨⟨-, hmax⟩, -⟩ := hinv.cfgOk
    exact ⟨_, serTable_of_fieldsFit ((hinv.tableOk T hT).fieldsFit hmax)⟩

end Sys2Proof.Machine
end

section
/-! PROOFS. ParseTable on what SerTable wrote (spec/44_table_codec.md R166 to R174): the whole table,
a table cut short, a key twice, and a table too long. -/

namespace Sys2Proof.Machine

/-! ### The whole table -/

/-- The numeric parse past the header: the capacity check, then the records
(44_table_codec.md R168). -/
theorem parseNumeric_header {nMax cnt f k : Nat} (hcnt : cnt < 2 ^ 32) (hf : f < 64) (hk : k < 64)
    (rest : Bits) :
    parseNumeric nMax (u cnt 32 ++ u f 6 ++ u k 6 ++ rest) =
      if nMax < cnt then .raised .capacityExceeded else parseNumericRecords k f cnt [] rest := by
  simp only [parseNumeric, List.append_assoc, readField_u hcnt, readField_u (show f < 2 ^ 6 from hf),
    readField_u (show k < 2 ^ 6 from hk)]

/-- No table has more entries than its byte-sequence body has bits: the parse does not run out of
fuel. -/
theorem length_le_flatMap_byteSeqRecord (T : Table) :
    T.length ≤ (T.flatMap byteSeqRecord).length := by
  induction T with
  | nil => simp
  | cons e T ih =>
    simp only [List.flatMap_cons, List.length_append, byteSeqRecord_length, List.length_cons]
    omega

/-- A table parses back from its bits (44_table_codec.md R174). -/
theorem parseTable_tableBits {nMax : Nat} {mode : Mode} {T : Table} (hfit : FieldsFit mode T)
    (hn : (T.map (·.key)).Nodup) (hroom : T.length ≤ nMax) (hok : ∀ e ∈ T, e.key.okFor mode = true)
    (rest : Bits) : parseTable nMax mode (tableBits mode T ++ rest) = .done (T, rest) := by
  cases mode with
  | numeric =>
    obtain ⟨hcnt, hf, hk⟩ := hfit
    have hkeys : ∀ e ∈ T, ∃ v, e.key = .num v ∧ v < 2 ^ keyWidth T := by
      intro e he
      obtain ⟨v, hv, -⟩ := num_of_okFor (hok e he)
      have hlt := key_lt_width he
      rw [hv] at hlt
      exact ⟨v, hv, hlt⟩
    rw [parseTable, tableBits, numericHeader, List.append_assoc,
      parseNumeric_header hcnt (by omega) (by omega), if_neg (by omega),
      parseNumericRecords_body [] rest hkeys (fun _ => freq_lt_width) hn, List.nil_append]
  | byteSeq =>
    have hlen := length_le_flatMap_byteSeqRecord T
    rw [parseTable, tableBits, List.append_assoc,
      parseByteSeqFuel_body [] rest (fun e he => octets_of_okFor (hok e he))
        (fun e he => (hfit e he).1) hn hroom (by simp [sentinel]; omega), List.nil_append]

/-- Settles O27: SerTable's answer is the table's bits, which parse back. -/
theorem tableRoundTrip : Obligations.TableRoundTrip := by
  unfold Obligations.TableRoundTrip
  intro nMax mode T tb rest h hn hroom hok
  obtain ⟨hfit, rfl⟩ := serTable_done_iff.mp h
  exact parseTable_tableBits hfit hn hroom hok rest

/-! ### A table cut short: a parse that does not run out of bits never looks past what it took -/

/-- What a reader answers when `x` stands after its bits and it did not need it: the same value or
error, with `x` at the end of what is left over. -/
def moreLeft {α : Type} (x : Bits) : Attempt (α × Bits) → Attempt (α × Bits)
  | .done (a, rest) => .done (a, rest ++ x)
  | .raised e => .raised e

theorem readField_append {n v : Nat} {s rest : Bits} (x : Bits)
    (h : readField n s = .done (v, rest)) : readField n (s ++ x) = .done (v, rest ++ x) := by
  obtain ⟨rfl, hv⟩ := readField_done h
  rw [List.append_assoc, readField_u hv]

theorem readBytesField_append {n : Nat} {s rest : Bits} {bs : List Byte} (x : Bits)
    (h : readBytesField n s = .done (bs, rest)) :
    readBytesField n (s ++ x) = .done (bs, rest ++ x) := by
  obtain ⟨rfl, rfl⟩ := readBytesField_done h
  rw [List.append_assoc, readBytesField_bitsOf]

theorem parseNumericRecords_append {k f cnt : Nat} {acc : Table} {s : Bits} (x : Bits)
    (h : parseNumericRecords k f cnt acc s ≠ .raised .incompleteTable) :
    parseNumericRecords k f cnt acc (s ++ x) = moreLeft x (parseNumericRecords k f cnt acc s) := by
  induction cnt generalizing acc s with
  | zero => rfl
  | succ cnt ih =>
    rw [parseNumericRecords] at h
    cases hk : readField k s with
    | raised e => simp [hk, readField_raised hk] at h
    | done p =>
      cases hf : readField f p.2 with
      | raised e => simp [hk, hf, readField_raised hf] at h
      | done q =>
        simp only [parseNumericRecords, hk, hf, readField_append x hk, readField_append x hf] at h ⊢
        split at h
        · next hdup => rw [if_pos hdup, if_pos hdup, moreLeft]
        · next hnew => rw [if_neg hnew, if_neg hnew, ih h]

theorem parseNumeric_append {nMax : Nat} {s : Bits} (x : Bits)
    (h : parseNumeric nMax s ≠ .raised .incompleteTable) :
    parseNumeric nMax (s ++ x) = moreLeft x (parseNumeric nMax s) := by
  unfold parseNumeric at h ⊢
  cases hcnt : readField 32 s with
  | raised e => simp [hcnt, readField_raised hcnt] at h
  | done p =>
    cases hf : readField 6 p.2 with
    | raised e => simp [hcnt, hf, readField_raised hf] at h
    | done q =>
      cases hk : readField 6 q.2 with
      | raised e => simp [hcnt, hf, hk, readField_raised hk] at h
      | done r =>
        simp only [hcnt, hf, hk, readField_append x hcnt, readField_append x hf,
          readField_append x hk] at h ⊢
        split at h
        · next hfull => rw [if_pos hfull, if_pos hfull, moreLeft]
        · next hroom => rw [if_neg hroom, if_neg hroom, parseNumericRecords_append x h]

/-- The longer bits may come with more fuel. -/
theorem parseByteSeqFuel_append {nMax fuel fuel' : Nat} {acc : Table} {s : Bits} (x : Bits)
    (hfuel : fuel ≤ fuel') (h : parseByteSeqFuel nMax fuel acc s ≠ .raised .incompleteTable) :
    parseByteSeqFuel nMax fuel' acc (s ++ x) = moreLeft x (parseByteSeqFuel nMax fuel acc s) := by
  induction fuel generalizing fuel' acc s with
  | zero => exact absurd rfl h
  | succ fuel ih =>
    obtain ⟨fuel', rfl⟩ : ∃ n, fuel' = n + 1 := ⟨fuel' - 1, by omega⟩
    rw [parseByteSeqFuel] at h
    cases hl : readField 6 s with
    | raised e => simp [hl, readField_raised hl] at h
    | done p =>
      simp only [parseByteSeqFuel, hl, readField_append x hl] at h ⊢
      split at h
      · next hend => rw [if_pos hend, if_pos hend, moreLeft]
      · next hmore =>
        rw [if_neg hmore, if_neg hmore]
        cases hb : readBytesField p.1 p.2 with
        | raised e => simp [hb, readBytesField_raised hb] at h
        | done q =>
          cases hf : readField 32 q.2 with
          | raised e => simp [hb, hf, readField_raised hf] at h
          | done r =>
            simp only [hb, hf, readBytesField_append x hb, readField_append x hf] at h ⊢
            split at h
            · next hdup => rw [if_pos hdup, if_pos hdup, moreLeft]
            · next hnew =>
              rw [if_neg hnew, if_neg hnew]
              split at h
              · next hfull => rw [if_pos hfull, if_pos hfull, moreLeft]
              · next hroom => rw [if_neg hroom, if_neg hroom, ih (by omega) h]

/-- A parse that does not raise INCOMPLETE_TABLE answers the same whatever follows
(44_table_codec.md R166, R168, R169). -/
theorem parseTable_append {nMax : Nat} {mode : Mode} {s : Bits} (x : Bits)
    (h : parseTable nMax mode s ≠ .raised .incompleteTable) :
    parseTable nMax mode (s ++ x) = moreLeft x (parseTable nMax mode s) := by
  cases mode with
  | numeric => exact parseNumeric_append x h
  | byteSeq => exact parseByteSeqFuel_append x (by simp) h

/-- Settles O28: had the cut table parsed, or raised another error, so would the whole one; but the
whole table parses with no bit left over, so nothing was cut. -/
theorem truncatedTableIsIncomplete : Obligations.TruncatedTableIsIncomplete := by
  unfold Obligations.TruncatedTableIsIncomplete
  intro nMax mode T tb cut h hn hroom hok hcut hne
  obtain ⟨x, rfl⟩ := hcut
  by_contra hinc
  have hwhole := tableRoundTrip nMax mode T _ [] h hn hroom hok
  rw [List.append_nil, parseTable_append x hinc] at hwhole
  cases hp : parseTable nMax mode cut with
  | raised e => simp [hp, moreLeft] at hwhole
  | done p =>
    obtain ⟨-, -, hx⟩ : p.1 = T ∧ p.2 = [] ∧ x = [] := by simpa [hp, moreLeft] using hwhole
    exact hne (by simp [hx])

/-! ### A table that is refused -/

/-- One numeric record: its key is new, or the parse ends (44_table_codec.md R168). -/
theorem parseNumericRecords_record {k f v freq cnt : Nat} (hv : v < 2 ^ k) (hfreq : freq < 2 ^ f)
    (acc : Table) (rest : Bits) :
    parseNumericRecords k f (cnt + 1) acc (numericBody k f [⟨.num v, freq⟩] ++ rest) =
      if hasKey acc (.num v) then .raised .duplicateKey
      else parseNumericRecords k f cnt (acc ++ [⟨.num v, freq⟩]) rest := by
  simp only [parseNumericRecords, numericBody, List.flatMap_singleton, Symbol.value,
    List.append_assoc, readField_u hv, readField_u hfreq]

/-- A count of records is read in two runs, if the first of them goes well. -/
theorem parseNumericRecords_add {k f m n : Nat} {acc T : Table} {s rest : Bits}
    (h : parseNumericRecords k f m acc s = .done (T, rest)) :
    parseNumericRecords k f (m + n) acc s = parseNumericRecords k f n T rest := by
  induction m generalizing acc s with
  | zero => cases h; rw [Nat.zero_add]
  | succ m ih =>
    rw [parseNumericRecords] at h
    rw [Nat.succ_add, parseNumericRecords]
    cases hk : readField k s with
    | raised e => simp [hk] at h
    | done p =>
      cases hf : readField f p.2 with
      | raised e => simp [hk, hf] at h
      | done q =>
        simp only [hk, hf] at h ⊢
        split at h
        · cases h
        · next hnew => rw [if_neg hnew, ih h]

/-- A numeric record with a key of the table before it (44_table_codec.md R168, R170). -/
theorem parseNumericRecords_duplicate {k f v freq n : Nat} {T : Table} (rest : Bits)
    (hT : ∀ e ∈ T, (∃ x, e.key = .num x ∧ x < 2 ^ k) ∧ e.freq < 2 ^ f)
    (hn : (T.map (·.key)).Nodup) (hv : v < 2 ^ k) (hfreq : freq < 2 ^ f)
    (hdup : .num v ∈ T.map (·.key)) :
    parseNumericRecords k f (T.length + (n + 1)) []
        (numericBody k f (T ++ ([⟨.num v, freq⟩] : Table)) ++ rest) = .raised .duplicateKey := by
  have hbody : numericBody k f (T ++ ([⟨.num v, freq⟩] : Table)) ++ rest =
      numericBody k f T ++ (numericBody k f [⟨.num v, freq⟩] ++ rest) := by
    simp [numericBody]
  have hrun := parseNumericRecords_body (acc := []) (numericBody k f [⟨.num v, freq⟩] ++ rest)
    (fun e he => (hT e he).1) (fun e he => (hT e he).2) hn
  rw [hbody, parseNumericRecords_add hrun, List.nil_append,
    parseNumericRecords_record hv hfreq, if_pos (hasKey_eq_true.mpr hdup)]

/-- Of distinct keys, none is among those before it. -/
theorem hasKey_eq_false_of_nodup {T after : Table} {e : Entry}
    (h : ((T ++ e :: after).map (·.key)).Nodup) : hasKey T e.key = false := by
  rw [List.map_append, List.nodup_append] at h
  obtain ⟨-, -, hdisj⟩ := h
  exact hasKey_eq_false.mpr fun hmem => hdisj _ hmem _ (by simp) rfl

/-- One byte-sequence record: its key is new and there is room for it, or the parse ends
(44_table_codec.md R169). -/
theorem parseByteSeqFuel_record {nMax fuel : Nat} {e : Entry} (hok : e.key.okFor .byteSeq = true)
    (hfreq : e.freq < 2 ^ 32) (acc : Table) (rest : Bits) :
    parseByteSeqFuel nMax (fuel + 1) acc (byteSeqRecord e ++ rest) =
      if hasKey acc e.key then .raised .duplicateKey
      else if acc.length = nMax then .raised .capacityExceeded
      else parseByteSeqFuel nMax fuel (acc ++ [e]) rest := by
  obtain ⟨key, freq⟩ := e
  obtain ⟨bs, rfl, h1, h63⟩ := octets_of_okFor hok
  simp only [parseByteSeqFuel, byteSeqRecord, keyEnc, Symbol.bytes, List.append_assoc,
    readField_u (show bs.length < 2 ^ 6 by omega), readBytesField_bitsOf, readField_u hfreq]
  rw [if_neg (by omega)]

/-- Records of new keys, for which there is room, are read one after another
(44_table_codec.md R169). -/
theorem parseByteSeqFuel_records {nMax fuel : Nat} {T : Table} (acc : Table) (rest : Bits)
    (hT : ∀ e ∈ T, e.key.okFor .byteSeq = true ∧ e.freq < 2 ^ 32)
    (hn : ((acc ++ T).map (·.key)).Nodup) (hroom : (acc ++ T).length ≤ nMax) :
    parseByteSeqFuel nMax (T.length + fuel) acc (T.flatMap byteSeqRecord ++ rest) =
      parseByteSeqFuel nMax fuel (acc ++ T) rest := by
  induction T generalizing acc with
  | nil => simp
  | cons e T ih =>
    obtain ⟨⟨hok, hfreq⟩, hrest⟩ := List.forall_mem_cons.mp hT
    have hnew := hasKey_eq_false_of_nodup hn
    have hlt : acc.length ≠ nMax := by
      simp only [List.length_append, List.length_cons] at hroom
      omega
    rw [List.length_cons, Nat.succ_add, List.flatMap_cons, List.append_assoc,
      parseByteSeqFuel_record hok hfreq, if_neg (by simp [hnew]), if_neg hlt,
      ih (acc ++ [e]) hrest (by simpa using hn) (by simpa using hroom), List.append_assoc]
    rfl

/-- The byte-sequence parse past a table of at most N_MAX new keys is at the next record: it ends
there if the key is not new, or the table is full (44_table_codec.md R169). -/
theorem parseTable_byteSeq_next {nMax : Nat} {T : Table} {e : Entry} (rest : Bits)
    (hT : ∀ x ∈ T ++ [e], x.key.okFor .byteSeq = true ∧ x.freq < 2 ^ 32)
    (hn : (T.map (·.key)).Nodup) (hroom : T.length ≤ nMax) :
    ∃ fuel, parseTable nMax .byteSeq ((T ++ [e]).flatMap byteSeqRecord ++ rest) =
      if hasKey T e.key then .raised .duplicateKey
      else if T.length = nMax then .raised .capacityExceeded
      else parseByteSeqFuel nMax fuel (T ++ [e]) rest := by
  obtain ⟨hT, he⟩ := List.forall_mem_append.mp hT
  obtain ⟨hok, hfreq⟩ := List.forall_mem_singleton.mp he
  have hbits : (T ++ [e]).flatMap byteSeqRecord ++ rest =
      T.flatMap byteSeqRecord ++ (byteSeqRecord e ++ rest) := by simp
  obtain ⟨fuel, hfuel⟩ : ∃ n, (T.flatMap byteSeqRecord ++ (byteSeqRecord e ++ rest)).length =
      T.length + (n + 1) := by
    have hlen := length_le_flatMap_byteSeqRecord T
    refine ⟨(T.flatMap byteSeqRecord ++ (byteSeqRecord e ++ rest)).length - T.length - 1, ?_⟩
    simp only [List.length_append, byteSeqRecord_length]
    omega
  refine ⟨fuel, ?_⟩
  rw [hbits, parseTable, hfuel, parseByteSeqFuel_records [] _ hT hn hroom, List.nil_append,
    parseByteSeqFuel_record hok hfreq]

/-- Settles O29: the records before are read, and the last one's key is then in the table. -/
theorem duplicateKeyIsRejected : Obligations.DuplicateKeyIsRejected := by
  unfold Obligations.DuplicateKeyIsRejected
  constructor
  · intro nMax k f cnt v freq T rest hmax hcnt hlt hk hf hv hfreq hn hT hdup
    obtain ⟨n, rfl⟩ := Nat.exists_eq_add_of_lt hlt
    rw [List.append_assoc, parseTable, parseNumeric_header hcnt hf hk, if_neg (by omega),
      Nat.add_assoc, parseNumericRecords_duplicate rest hT hn hv hfreq hdup]
  · intro nMax freq key T rest hroom hfreq hn hT hdup
    obtain ⟨e, he, hkey⟩ := List.mem_map.mp hdup
    have hlast : (Symbol.octets key).okFor .byteSeq = true := hkey ▸ (hT e he).1
    obtain ⟨fuel, hnext⟩ := parseTable_byteSeq_next (e := ⟨.octets key, freq⟩) rest
      (List.forall_mem_append.mpr ⟨hT, List.forall_mem_singleton.mpr ⟨hlast, hfreq⟩⟩) hn hroom
    rw [hnext, if_pos (hasKey_eq_true.mpr hdup)]

/-- Settles O30: the count of the header is too large, or the table is full when one more new key has
been read. -/
theorem oversizedTableIsRejected : Obligations.OversizedTableIsRejected := by
  unfold Obligations.OversizedTableIsRejected
  constructor
  · intro nMax cnt f k rest hover hcnt hf hk
    rw [parseTable, parseNumeric_header hcnt hf hk, if_pos hover]
  · intro nMax T e rest hfull hn hT
    have hnT : (T.map (·.key)).Nodup := by
      rw [List.map_append] at hn
      exact hn.of_append_left
    obtain ⟨fuel, hnext⟩ := parseTable_byteSeq_next rest hT hnT hfull.le
    rw [hnext, if_neg (by simp [hasKey_eq_false_of_nodup hn]), if_pos hfull]

end Sys2Proof.Machine
end

section
/-! PROOFS. ENCODE: what the packer answers for a stream of records, and what the command makes of the
answer (spec/45_bitstream_packer.md R190, R191; spec/60_exceptions.md R247, R250). -/

namespace Sys2Proof.Machine

/-! ### The code of the next symbol -/

section

variable {cap : Nat} {T : Table} {rom : CodeRom} {k : Symbol}

/-- A symbol that is no key of the table ends the loop (45_bitstream_packer.md R190). -/
theorem encodeSymbols_unknown (hk : k ∉ T.map (·.key)) (ks : List Symbol) (p : Bits) :
    encodeSymbols cap T rom (k :: ks) p = .raised .unknownSymbol := by
  simp only [encodeSymbols, indexOf_not_mem hk]

/-- A code that does not fit behind the payload so far ends the loop (45_bitstream_packer.md R190). -/
theorem encodeSymbols_full (hk : k ∈ T.map (·.key)) (ks : List Symbol) {p : Bits}
    (hfull : cap < p.length + (codeOf T rom k).length) :
    encodeSymbols cap T rom (k :: ks) p = .raised .capacityExceeded := by
  obtain ⟨i, _, hi, _⟩ := indexOf_mem hk
  simp only [codeOf, hi] at hfull
  simp only [encodeSymbols, hi, if_pos hfull]

end

/-! ### The packer on a source -/

section

variable {cap : Nat} {mode : Mode} {T : Table} {rom : CodeRom} {src : List Byte} {p : Bits}
  {e : ErrCode}

/-- An error of the loop comes before the stream's own, which stands behind all its symbols
(60_exceptions.md R247). -/
theorem encodeSource_of_encode_raised
    (h : encodeSymbols cap T rom (symbolStream mode src).syms [] = .raised e) :
    encodeSource cap mode T rom src = .raised e := by
  simp only [encodeSource, h]

theorem encodeSource_of_fail
    (h : encodeSymbols cap T rom (symbolStream mode src).syms [] = .done p)
    (hf : (symbolStream mode src).fail = some e) : encodeSource cap mode T rom src = .raised e := by
  simp only [encodeSource, h, hf]

theorem encodeSource_of_encoded
    (h : encodeSymbols cap T rom (symbolStream mode src).syms [] = .done p)
    (hf : (symbolStream mode src).fail = none) :
    encodeSource cap mode T rom src = .done (p, (symbolStream mode src).syms.length) := by
  simp only [encodeSource, h, hf]

end

section

variable {cap : Nat} {mode : Mode} {T : Table} {rom : CodeRom} {ks : List Symbol}
  (hks : ∀ k ∈ ks, k.okFor mode = true ∧ k ∈ T.map (·.key))
  (hfit : (ks.flatMap (codeOf T rom)).length ≤ cap)

include hks hfit

/-- Symbols of the table whose codes fit are encoded, and the loop goes on behind their codes. -/
theorem encodeSymbols_codes (tail : List Symbol) :
    encodeSymbols cap T rom (ks ++ tail) [] =
      encodeSymbols cap T rom tail (ks.flatMap (codeOf T rom)) :=
  encodeSymbols_append ks tail [] (fun k hk => (hks k hk).2) (by simpa using hfit)

theorem encodeSymbols_all :
    encodeSymbols cap T rom ks [] = .done (ks.flatMap (codeOf T rom)) := by
  simpa [encodeSymbols] using encodeSymbols_codes hks hfit []

/-- A source of symbols of the table gives their codes and their number
(45_bitstream_packer.md R191). -/
theorem encodeSource_records :
    encodeSource cap mode T rom (records mode ks) =
      .done (ks.flatMap (codeOf T rom), ks.length) := by
  have hstream := symbolStream_records fun k hk => (hks k hk).1
  rw [encodeSource_of_encoded (by rw [hstream]; exact encodeSymbols_all hks hfit)
    (by rw [hstream]), hstream]

/-- An ill-formed record is reported when the symbols before it could be encoded. -/
theorem encodeSource_badSymbol {bad : List Byte} (hne : bad ≠ [])
    (hbad : nextSymbol mode bad = .raised .badSymbol) :
    encodeSource cap mode T rom (records mode ks ++ bad) = .raised .badSymbol := by
  have hstream : symbolStream mode (records mode ks ++ bad) = ⟨ks, some .badSymbol⟩ := by
    simpa [symbolStream_raised hne hbad] using
      symbolStream_records_append (fun k hk => (hks k hk).1) bad
  exact encodeSource_of_fail (by rw [hstream]; exact encodeSymbols_all hks hfit) (by rw [hstream])

/-- An error of the next symbol is reported, whatever follows it. -/
theorem encodeSource_next_raised {k : Symbol} {e : ErrCode} (hk : k.okFor mode = true)
    (tail : List Byte)
    (h : ∀ more, encodeSymbols cap T rom (k :: more) (ks.flatMap (codeOf T rom)) = .raised e) :
    encodeSource cap mode T rom (records mode (ks ++ [k]) ++ tail) = .raised e := by
  have hall : ∀ j ∈ ks ++ [k], j.okFor mode = true :=
    List.forall_mem_append.mpr ⟨fun j hj => (hks j hj).1, List.forall_mem_singleton.mpr hk⟩
  refine encodeSource_of_encode_raised ?_
  rw [symbolStream_records_append hall, List.append_assoc, List.singleton_append,
    encodeSymbols_codes hks hfit, h]

end

/-! ### The command -/

section

variable {s : State} {T : Table} {rom : CodeRom} {src : List Byte} (hT : s.ft = some T)
  (hrom : s.crom = some rom) (hv : s.srcValid) (hs : s.srcBytes = some src)

include hT hrom hv hs

/-- ENCODE ends well with the payload and the count of the packer (45_bitstream_packer.md R190). -/
theorem exec_encode_of_done {p : Bits} {n : Nat}
    (h : encodeSource s.cfg.pbufBits s.status.ftMode T rom src = .done (p, n)) :
    exec .encode s = .next
      { s with
        status := s.status.ended .success, pbuf := some p, symCount := BitVec.ofNat 32 n } := by
  have hexec : exec .encode s = .next ((s.storePayload p n).finish .success) := by
    simp only [exec, execEncode, hT, hrom, withSource_of_bytes _ hv hs, h]
  exact hexec

/-- ENCODE reports the packer's error, with the effects of 60_exceptions.md R250. -/
theorem exec_encode_of_raised {e : ErrCode}
    (h : encodeSource s.cfg.pbufBits s.status.ftMode T rom src = .raised e) :
    exec .encode s = .next
      { s with status := s.status.ended e, pbuf := none, symCount := 0 } := by
  simp only [exec, execEncode, hT, hrom, withSource_of_bytes _ hv hs, h, raise_encode]

end

/-- Settles O23: the source is encoded to its codes, and ENCODE stores them. -/
theorem encodeConcatenatesCodes : Obligations.EncodeConcatenatesCodes := by
  unfold Obligations.EncodeConcatenatesCodes
  exact fun _ _ _ _ hT hrom hv hs hks hfit =>
    exec_encode_of_done hT hrom hv hs (encodeSource_records hks hfit)

/-- Settles O24: the three errors of the packer, each reported by ENCODE. -/
theorem encodeReportsFirstError : Obligations.EncodeReportsFirstError := by
  unfold Obligations.EncodeReportsFirstError
  intro s T rom ks hT hrom hv hks hfit
  refine ⟨fun bad hne hbad hs => ?_, fun k tail hk hnew hs => ?_, fun k tail hk hmem hfull hs => ?_⟩
  · exact exec_encode_of_raised hT hrom hv hs (encodeSource_badSymbol hks hfit hne hbad)
  · exact exec_encode_of_raised hT hrom hv hs
      (encodeSource_next_raised hks hfit hk tail fun _ => encodeSymbols_unknown hnew _ _)
  · exact exec_encode_of_raised hT hrom hv hs
      (encodeSource_next_raised hks hfit hk tail fun _ =>
        encodeSymbols_full hmem _ (by simpa using hfull))

end Sys2Proof.Machine
end

section
/-! PROOFS. PACK: the bytes of the frame, and what the command makes of them
(spec/45_bitstream_packer.md R193, R194, R197; spec/60_exceptions.md R250). -/

namespace Sys2Proof.Machine

/-! ### The frame -/

/-- The frame is padding, marker, table and payload (45_bitstream_packer.md R194). -/
theorem frameBits_eq (cfg : Params) (tb p : Bits) :
    frameBits cfg tb p =
      zeros (padBits (cfg.markerW + tb.length + p.length)) ++ u cfg.marker.toNat cfg.markerW ++
        tb ++ p := by
  simp [frameBits, Nat.add_assoc]

/-- The frame is a whole number of bytes, so its bytes hold all of its bits
(45_bitstream_packer.md R197). -/
theorem bitsOf_frame (cfg : Params) (tb p : Bits) :
    bitsOf (bytesOf (frameBits cfg tb p)) = frameBits cfg tb p :=
  bitsOf_bytesOf _ _ (frameBits_length cfg tb p)

theorem frame_length (cfg : Params) (tb p : Bits) :
    (bytesOf (frameBits cfg tb p)).length = frameBytes cfg.markerW tb.length p.length :=
  bytesOf_length _ _ (frameBits_length cfg tb p)

/-- PACK's answer for a table that serializes: the frame, if it fits (45_bitstream_packer.md R193). -/
theorem packFrame_eq {mode : Mode} {T : Table} {tb : Bits} (h : serTable mode T = .done tb)
    (cfg : Params) (p : Bits) (cap : Nat) :
    packFrame cfg mode T p cap =
      if cap < frameBytes cfg.markerW tb.length p.length then .raised .capacityExceeded
      else .done (bytesOf (frameBits cfg tb p)) := by
  simp only [packFrame, h, frameBits_length, Nat.mul_div_cancel_left _ (show 0 < 8 by decide)]

/-! ### The command -/

section

variable {s : State} {T : Table} {p : Bits} (hT : s.ft = some T) (hp : s.pbuf = some p)
  (hv : s.dstValid)

include hT hp hv

/-- PACK ends well with the frame in the destination (45_bitstream_packer.md R193). -/
theorem exec_pack_of_done {bs : List Byte}
    (h : packFrame s.cfg s.status.ftMode T p s.latch.args.dstCap.toNat = .done bs) :
    exec .pack s = .next
      { s with
        status := s.status.ended .success
        buf := s.buf.writeBytes s.latch.args.dstBase.toNat bs
        resultLen := BitVec.ofNat 32 bs.length } := by
  have hexec : exec .pack s = .next ((s.storeFrame bs).finish .success) := by
    simp only [exec, execPack, hT, hp, withDest_of_valid _ hv, h]
  exact hexec

/-- PACK reports an error of the frame, as an execution error (60_exceptions.md R250). -/
theorem exec_pack_of_raised {e : ErrCode}
    (h : packFrame s.cfg s.status.ftMode T p s.latch.args.dstCap.toNat = .raised e) :
    exec .pack s = .next (s.raise .pack e) := by
  simp only [exec, execPack, hT, hp, withDest_of_valid _ hv, h]

end

/-- An execution error of PACK or DECODE leaves free values in the destination region, and changes no
byte outside it (60_exceptions.md R250). -/
theorem raise_read_outside {i : Instr} (hi : writesDest i = true) (s : State) (e : ErrCode) {a : Nat}
    (ha : ¬ s.inDst s.latch.args.dstCap.toNat a) : (s.raise i e).buf.read a = s.buf.read a := by
  have hbuf : (s.raise i e).buf = s.buf.writeBytes s.latch.args.dstBase.toNat
      (drawBytes s.draws s.latch.args.dstCap.toNat) := by
    cases i with
    | analyze | buildTree | genCodes | encode | unpack => cases hi
    | pack | decode => rfl
  rw [hbuf, Memory.read_writeBytes_outside _ (by rwa [drawBytes_length])]

/-- Settles O31: the frame fits, and PACK writes its bytes. -/
theorem packWritesFrame : Obligations.PackWritesFrame := by
  unfold Obligations.PackWritesFrame
  intro s T p tb hT hp hv htb hfit
  refine ⟨bytesOf (frameBits s.cfg tb p), padBits (s.cfg.markerW + tb.length + p.length),
    padBits_eq _, padBits_le _, frame_length _ _ _, ?_, exec_pack_of_done hT hp hv ?_⟩
  · rw [bitsOf_frame, frameBits_eq]
  · rw [packFrame_eq htb, if_neg (by omega)]

/-- Settles O32: the frame does not fit, which is an execution error of PACK. -/
theorem packReportsCapacity : Obligations.PackReportsCapacity := by
  unfold Obligations.PackReportsCapacity
  intro s T p tb hT hp hv htb hlong
  refine ⟨s.raise .pack .capacityExceeded, exec_pack_of_raised hT hp hv ?_, rfl,
    fun _ => raise_read_outside rfl s _⟩
  rw [packFrame_eq htb, if_pos hlong]

end Sys2Proof.Machine
end

section
/-! PROOFS. The frame of the commands that write a destination region
(spec/45_bitstream_packer.md R193, spec/46_bitstream_unpacker.md R214, spec/60_exceptions.md R251). -/

namespace Sys2Proof.Machine

/-- Which bytes of BUF may differ after a command with a destination region has ended, by the code it
ended with (60_exceptions.md R250, R251). -/
def BufFrame (s t : State) : Prop :=
  (t.status.errcode = .success →
    ∀ a, ¬ s.inDst t.resultLen.toNat a → t.buf.read a = s.buf.read a) ∧
  (t.status.errcode = .notReady ∨ t.status.errcode = .regionFault →
    ∀ a, t.buf.read a = s.buf.read a) ∧
  ∀ a, ¬ s.inDst s.latch.args.dstCap.toNat a → t.buf.read a = s.buf.read a

/-- A pre-check error writes no byte. -/
theorem finish_bufFrame (s : State) (e : ErrCode) : BufFrame s (s.finish e) :=
  ⟨fun _ _ _ => rfl, fun _ _ => rfl, fun _ _ => rfl⟩

/-- An execution error, which is no success and no pre-check error, writes inside the region. -/
theorem raise_bufFrame {i : Instr} (hi : writesDest i = true) (s : State) {e : ErrCode}
    (hok : e ≠ .success) (hpre : ¬ (e = .notReady ∨ e = .regionFault)) :
    BufFrame s (s.raise i e) :=
  ⟨fun h => absurd h hok, fun h => absurd h hpre, fun _ => raise_read_outside hi s e⟩

/-- A success writes the bytes whose number RESULT_LEN says, which is exact because they fit
DST_CAP. -/
theorem stored_bufFrame {s t : State} {bs : List Byte} (hok : t.status.errcode = .success)
    (hbuf : t.buf = s.buf.writeBytes s.latch.args.dstBase.toNat bs)
    (hlen : t.resultLen = BitVec.ofNat 32 bs.length)
    (hfit : bs.length ≤ s.latch.args.dstCap.toNat) : BufFrame s t := by
  have hexact : t.resultLen.toNat = bs.length := by
    rw [hlen, BitVec.toNat_ofNat, Nat.mod_eq_of_lt (hfit.trans_lt s.latch.args.dstCap.isLt)]
  have hread : ∀ a, ¬ s.inDst bs.length a → t.buf.read a = s.buf.read a := fun a ha => by
    rw [hbuf, Memory.read_writeBytes_outside _ ha]
  refine ⟨fun _ a ha => hread a (hexact ▸ ha), ?_, fun a ha => hread a fun ⟨hlo, hhi⟩ => ha ?_⟩
  · rw [hok]
    exact nofun
  · exact ⟨hlo, by omega⟩

theorem pack_raise_bufFrame {s : State} {T : Table} {p : Bits} {cap : Nat} {e : ErrCode}
    (h : packFrame s.cfg s.status.ftMode T p cap = .raised e) : BufFrame s (s.raise .pack e) := by
  rcases packFrame_raised h with rfl | rfl <;> exact raise_bufFrame rfl s (by decide) (by decide)

theorem decode_raise_bufFrame {s : State} {T : Table} {r : HuffTree} {p : Bits} {cap : Nat}
    {e : ErrCode} (h : decodePayload s.status.ftMode T cap r p = .raised e) :
    BufFrame s (s.raise .decode e) := by
  rcases decodePayload_raised h with rfl | rfl <;> exact raise_bufFrame rfl s (by decide) (by decide)

/-- Settles O41: each way such a command can end is an update of its own outputs and of STATUS, and
changes the bytes that `BufFrame` says. -/
theorem destinationCommandsFrame : Obligations.DestinationCommandsFrame := by
  unfold Obligations.DestinationCommandsFrame
  intro i s t hi h
  simp only [List.mem_cons, List.not_mem_nil, or_false] at hi
  rcases hi with rfl | rfl
  · rcases execPack_cases h with ⟨_, rfl⟩ |
      ⟨_, _, _, _, ⟨_, rfl⟩ | ⟨_, ⟨e, he, rfl⟩ | ⟨bs, hbs, rfl⟩⟩⟩
    · exact ⟨rfl, finish_bufFrame s _⟩
    · exact ⟨rfl, finish_bufFrame s _⟩
    · exact ⟨rfl, pack_raise_bufFrame he⟩
    · exact ⟨rfl, stored_bufFrame rfl rfl rfl (packFrame_done hbs)⟩
  · rcases execDecode_cases h with ⟨_, rfl⟩ |
      ⟨_, _, _, _, _, _, ⟨_, rfl⟩ | ⟨_, ⟨e, he, rfl⟩ | ⟨d, hd, rfl⟩⟩⟩
    · exact ⟨rfl, finish_bufFrame s _⟩
    · exact ⟨rfl, finish_bufFrame s _⟩
    · exact ⟨rfl, decode_raise_bufFrame he⟩
    · exact ⟨rfl, stored_bufFrame rfl rfl rfl (decodePayload_done hd)⟩

end Sys2Proof.Machine
end

section
/-! PROOFS. UNPACK: a frame taken apart, and what the command makes of it
(spec/46_bitstream_unpacker.md R210, R211, R218; spec/60_exceptions.md R247, R250). -/

namespace Sys2Proof.Machine

/-! ### The frame -/

/-- A source with no 1 bit has no frame (46_bitstream_unpacker.md R210). -/
theorem locateFrame_zeros (w pad : Nat) : locateFrame w (zeros pad) = .raised .incompleteTable := by
  unfold locateFrame
  rw [dropWhile_zeros]
  exact if_pos (.inl rfl)

/-- From the first 1 bit on, the marker must be whole (46_bitstream_unpacker.md R210). -/
theorem locateFrame_short {w : Nat} (pad : Nat) {m : Bits} (h : m.length + 1 < w) :
    locateFrame w (zeros pad ++ true :: m) = .raised .incompleteTable := by
  unfold locateFrame
  rw [dropWhile_zeros_one]
  exact if_pos (.inr h)

section

variable {cfg : Params} {mode : Mode}

/-- An error of the marker comes before the table's (60_exceptions.md R247). -/
theorem unpackFrame_of_locate_raised {s : Bits} {e : ErrCode}
    (h : locateFrame cfg.markerW s = .raised e) : unpackFrame cfg mode s = .raised e := by
  simp only [unpackFrame, h]

variable {pad : Nat} {marker rest : Bits} (hm : marker.length + 1 = cfg.markerW)

include hm

/-- An error of the table comes before the payload's (60_exceptions.md R247). -/
theorem unpackFrame_of_parse_raised {e : ErrCode} (h : parseTable cfg.nMax mode rest = .raised e) :
    unpackFrame cfg mode (zeros pad ++ true :: marker ++ rest) = .raised e := by
  simp only [unpackFrame, locateFrame_marker pad rest hm, h]

/-- Past the marker, the table and the payload are what ParseTable answers, if the payload fits PBUF
(46_bitstream_unpacker.md R211). -/
theorem unpackFrame_of_parsed {T : Table} {p : Bits}
    (h : parseTable cfg.nMax mode rest = .done (T, p)) :
    unpackFrame cfg mode (zeros pad ++ true :: marker ++ rest) =
      if cfg.pbufBits < p.length then .raised .capacityExceeded else .done (T, p) := by
  simp only [unpackFrame, locateFrame_marker pad rest hm, h]

end

/-- A numeric table whose header says wide enough fields parses back from its body
(44_table_codec.md R168, R173). -/
theorem parseTable_numeric_wide {nMax f k : Nat} {T : Table} (hok : TableOk nMax .numeric T)
    (hcnt : T.length < 2 ^ 32) (hf : f < 64) (hk : k < 64)
    (hfit : ∀ e ∈ T, e.freq < 2 ^ f ∧ e.key.value < 2 ^ k) (rest : Bits) :
    parseTable nMax .numeric (u T.length 32 ++ u f 6 ++ u k 6 ++ numericBody k f T ++ rest) =
      .done (T, rest) := by
  have hkeys : ∀ e ∈ T, ∃ v, e.key = .num v ∧ v < 2 ^ k := by
    intro e he
    obtain ⟨v, hv, -⟩ := num_of_okFor (hok.keysFit e he)
    exact ⟨v, hv, by simpa [hv, Symbol.value] using (hfit e he).2⟩
  have hroom := hok.room
  rw [List.append_assoc, parseTable, parseNumeric_header hcnt hf hk, if_neg (by omega),
    parseNumericRecords_body [] rest hkeys (fun e he => (hfit e he).1) hok.keysDistinct,
    List.nil_append]

/-! ### The command -/

section

variable {s : State} {src : List Byte} (hv : s.srcValid) (hs : s.srcBytes = some src)

include hv hs

/-- UNPACK ends well with the table and the payload of the frame (46_bitstream_unpacker.md R211,
R218). -/
theorem exec_unpack_of_done {T : Table} {p : Bits}
    (h : unpackFrame s.cfg s.latch.mode (bitsOf src) = .done (T, p)) :
    exec .unpack s = .next
      { s with
        status := { s.status.ended .success with ftMode := s.latch.mode }
        ft := some T, pbuf := some p, tree := none, crom := none
        payloadOff := BitVec.ofNat 32 ((bitsOf src).length - p.length) } :=
  (withSource_of_bytes _ hv hs).trans (by simp only [h]; rfl)

/-- UNPACK reports the frame's error, with the effects of 60_exceptions.md R250. -/
theorem exec_unpack_of_raised {e : ErrCode}
    (h : unpackFrame s.cfg s.latch.mode (bitsOf src) = .raised e) :
    exec .unpack s = .next
      { s with
        status := { s.status.ended e with ftMode := s.latch.mode }
        ft := none, tree := none, crom := none, pbuf := none, payloadOff := 0 } :=
  (withSource_of_bytes _ hv hs).trans (by simp only [h]; rfl)

/-- UNPACK of a frame whose table parses and whose payload fits: the payload starts behind the
padding, the marker and the table (46_bitstream_unpacker.md R211, R218). -/
theorem exec_unpack_of_frame {T : Table} {pad : Nat} {marker tb p : Bits}
    (hm : marker.length + 1 = s.cfg.markerW)
    (hbits : bitsOf src = zeros pad ++ true :: marker ++ tb ++ p)
    (hparse : parseTable s.cfg.nMax s.latch.mode (tb ++ p) = .done (T, p))
    (hfit : p.length ≤ s.cfg.pbufBits) :
    exec .unpack s = .next
      { s with
        status := { s.status.ended .success with ftMode := s.latch.mode }
        ft := some T, pbuf := some p, tree := none, crom := none
        payloadOff := BitVec.ofNat 32 (pad + s.cfg.markerW + tb.length) } := by
  have hframe : unpackFrame s.cfg s.latch.mode (bitsOf src) = .done (T, p) := by
    rw [hbits, List.append_assoc, unpackFrame_of_parsed hm hparse, if_neg (by omega)]
  have hoff : (bitsOf src).length - p.length = pad + s.cfg.markerW + tb.length := by
    rw [hbits, List.length_append, Nat.add_sub_cancel]
    simp only [List.length_append, zeros_length, List.length_cons, hm]
  rw [exec_unpack_of_done hv hs hframe, hoff]

end

/-- Settles O33: the table parses back, with fields as narrow as SerTable's or wider. -/
theorem unpackRecoversFrame : Obligations.UnpackRecoversFrame := by
  unfold Obligations.UnpackRecoversFrame
  intro s T src pad marker tb p hv hs hok htb hfit hm hbits
  refine exec_unpack_of_frame hv hs hm hbits ?_ hfit
  rcases htb with htb | ⟨hmode, hcnt, f, k, hf, hk, hwide, rfl⟩
  · exact tableRoundTrip _ _ _ _ _ htb hok.keysDistinct hok.room hok.keysFit
  · rw [hmode] at hok ⊢
    exact parseTable_numeric_wide hok hcnt hf hk hwide p

/-- Settles O34: no frame is located. -/
theorem unpackWithoutFrameIsIncomplete : Obligations.UnpackWithoutFrameIsIncomplete := by
  unfold Obligations.UnpackWithoutFrameIsIncomplete
  intro s src pad marker hv hs hbits
  refine exec_unpack_of_raised hv hs (unpackFrame_of_locate_raised ?_)
  rcases hbits with hbits | ⟨hbits, hshort⟩
  · rw [hbits, locateFrame_zeros]
  · rw [hbits, locateFrame_short pad hshort]

/-- Settles O35: the table's error, or a payload longer than PBUF. -/
theorem unpackReportsFirstError : Obligations.UnpackReportsFirstError := by
  unfold Obligations.UnpackReportsFirstError
  intro s src pad marker rest hv hs hm hbits
  refine ⟨fun e he => ⟨parseTable_raised he, exec_unpack_of_raised hv hs ?_⟩,
    fun T p hparse hlong => exec_unpack_of_raised hv hs ?_⟩
  · rw [hbits, unpackFrame_of_parse_raised hm he]
  · rw [hbits, unpackFrame_of_parsed hm hparse, if_pos hlong]

end Sys2Proof.Machine
end

section
/-! PROOFS. DECODE: the walk of a payload from the root, and what the command makes of it
(spec/46_bitstream_unpacker.md R213 to R216; spec/60_exceptions.md R250). -/

namespace Sys2Proof.Machine

/-! ### The walk from the root -/

/-- The walk of DECODE from the root on, with `d` put out so far, whichever form the root has
(46_bitstream_unpacker.md R214, R215). -/
def walkFromRoot (mode : Mode) (T : Table) (cap : Nat) (root : HuffTree) (bs : Bits) (d : Emitted) :
    Attempt Emitted :=
  match root with
  | .leaf sym _ => walkLeaf cap (recordAt mode T sym) bs d
  | .internal k f a b => walkTree mode T cap (.internal k f a b) (.internal k f a b) bs d

/-- DECODE walks the whole payload from the root (46_bitstream_unpacker.md R214). -/
theorem decodePayload_eq_walkFromRoot (mode : Mode) (T : Table) (cap : Nat) (root : HuffTree)
    (p : Bits) : decodePayload mode T cap root p = walkFromRoot mode T cap root p ⟨[], 0⟩ := by
  cases root <;> rfl

/-- A payload that is used up at the root ends the walk well (46_bitstream_unpacker.md R214). -/
theorem walkFromRoot_nil (mode : Mode) (T : Table) (cap : Nat) (root : HuffTree) (d : Emitted) :
    walkFromRoot mode T cap root [] d = .done d := by
  cases root with
  | leaf sym f => rfl
  | internal k f a b => exact if_pos rfl

theorem emit_of_full {cap : Nat} {r : List Byte} {d : Emitted} (h : cap < d.out.length + r.length) :
    emit cap r d = .raised .capacityExceeded := if_pos h

section

variable {mode : Mode} {T : Table} {cap : Nat} {r : HuffTree} (hb : buildTree T = some r)

include hb

/-- Codes at the head of a payload are walked to the records of their symbols, if these fit
(46_bitstream_unpacker.md R213 to R215). -/
theorem walkFromRoot_codes {is : List Nat} (his : ∀ i ∈ is, i < T.length) (bs : Bits) (d : Emitted)
    (hcap : d.out.length + (is.flatMap (recordAt mode T)).length ≤ cap) :
    walkFromRoot mode T cap r (is.flatMap (codeAt (genCodes r)) ++ bs) d =
      walkFromRoot mode T cap r bs
        ⟨d.out ++ is.flatMap (recordAt mode T), d.count + is.length⟩ := by
  cases r with
  | leaf sym f =>
    obtain ⟨hone, rfl, hrom⟩ := buildTree_leaf hb
    rw [hone] at his
    rw [hrom]
    exact walkLeaf_codes his bs d hcap
  | internal k f a b => exact walkTree_codes hb his bs d hcap

/-- A code whose record does not fit ends the walk (46_bitstream_unpacker.md R214). -/
theorem walkFromRoot_code_full {i : Nat} (hi : i < T.length) (bs : Bits) {d : Emitted}
    (hfull : cap < d.out.length + (recordAt mode T i).length) :
    walkFromRoot mode T cap r (codeAt (genCodes r) i ++ bs) d = .raised .capacityExceeded := by
  cases r with
  | leaf sym f =>
    obtain ⟨hone, rfl, hrom⟩ := buildTree_leaf hb
    obtain rfl : i = 0 := by omega
    have hcode : codeAt (genCodes (.leaf 0 f)) 0 = [false] := by rw [hrom]; rfl
    rw [hcode, List.singleton_append, walkFromRoot, walkLeaf, emit_of_full hfull]
  | internal k f a b =>
    obtain ⟨p, hp, hcode⟩ := exists_code hb hi
    rw [hcode, walkFromRoot, walkTree_path (c := []) bs d hp, emit_of_full hfull]

/-- Codes whose records do not all fit end the walk at the first one that does not. -/
theorem walkFromRoot_codes_full {is : List Nat} (his : ∀ i ∈ is, i < T.length) (bs : Bits)
    {d : Emitted} (hd : d.out.length ≤ cap)
    (hfull : cap < d.out.length + (is.flatMap (recordAt mode T)).length) :
    walkFromRoot mode T cap r (is.flatMap (codeAt (genCodes r)) ++ bs) d =
      .raised .capacityExceeded := by
  induction is generalizing d with
  | nil => simp at hfull; omega
  | cons i is ih =>
    obtain ⟨hi, his⟩ := List.forall_mem_cons.mp his
    rw [List.flatMap_cons, List.length_append] at hfull
    rw [List.flatMap_cons, List.append_assoc]
    by_cases hfit : d.out.length + (recordAt mode T i).length ≤ cap
    · have hone := walkFromRoot_codes hb (is := [i]) (List.forall_mem_singleton.mpr hi)
        (is.flatMap (codeAt (genCodes r)) ++ bs) d (by simpa using hfit)
      simp only [List.flatMap_singleton] at hone
      rw [hone]
      exact ih his (by simpa using hfit) (by simp only [List.length_append]; omega)
    · exact walkFromRoot_code_full hb hi _ (by omega)

/-- A payload of codes whose records fit decodes to them (46_bitstream_unpacker.md R214). -/
theorem decodePayload_codes {is : List Nat} (his : ∀ i ∈ is, i < T.length)
    (hcap : (is.flatMap (recordAt mode T)).length ≤ cap) :
    decodePayload mode T cap r (is.flatMap (codeAt (genCodes r))) =
      .done ⟨is.flatMap (recordAt mode T), is.length⟩ := by
  have hwalk := walkFromRoot_codes hb his [] ⟨[], 0⟩ (by simpa using hcap)
  rw [List.append_nil, walkFromRoot_nil, List.nil_append, Nat.zero_add] at hwalk
  rw [decodePayload_eq_walkFromRoot, hwalk]

end

/-! ### A payload that ends inside a code, or leaves a one-leaf tree -/

/-- Under a one-leaf tree a 1 bit is an error (46_bitstream_unpacker.md R215). -/
theorem walkFromRoot_one {T : Table} {r : HuffTree} (hb : buildTree T = some r)
    (hone : T.length = 1) (mode : Mode) (cap : Nat) (rest : Bits) (d : Emitted) :
    walkFromRoot mode T cap r (true :: rest) d = .raised .corruptStream := by
  obtain ⟨e, rfl⟩ := List.length_eq_one_iff.mp hone
  rw [buildTree_singleton] at hb
  cases hb
  rfl

/-- Going down never adds leaves, and from an internal node it sheds some. -/
theorem child_leaves_lt (k f : Nat) (a b : HuffTree) (x : Bool) :
    ((HuffTree.internal k f a b).child x).leaves.length <
      (HuffTree.internal k f a b).leaves.length := by
  have ha := leaves_length_pos a
  have hb := leaves_length_pos b
  cases x <;> simp [HuffTree.child, HuffTree.leaves] <;> omega

theorem foldl_child_leaves_le (t : HuffTree) (p : Bits) :
    (p.foldl HuffTree.child t).leaves.length ≤ t.leaves.length := by
  induction p generalizing t with
  | nil => exact le_rfl
  | cons x p ih =>
    refine (ih (t.child x)).trans ?_
    cases t with
    | leaf sym f => exact le_rfl
    | internal k f a b => exact (child_leaves_lt k f a b x).le

/-- A descent of at least one branch does not lead back to the internal node it left. -/
theorem foldl_child_ne {k f : Nat} {a b : HuffTree} {p : Bits} (hp : p ≠ []) :
    p.foldl HuffTree.child (.internal k f a b) ≠ .internal k f a b := by
  obtain ⟨x, p, rfl⟩ := List.exists_cons_of_ne_nil hp
  intro heq
  have hle := foldl_child_leaves_le ((HuffTree.internal k f a b).child x) p
  rw [← List.foldl_cons, heq] at hle
  exact absurd (child_leaves_lt k f a b x) (not_lt.mpr hle)

/-- Bits that reach no leaf put out nothing, and the payload must not end below the root
(46_bitstream_unpacker.md R213, R216). -/
theorem walkTree_descent {mode : Mode} {T : Table} {cap : Nat} {root cur : HuffTree} {p : Bits}
    (d : Emitted)
    (h : ∀ q, q <+: p → ∃ k f a b, q.foldl HuffTree.child cur = .internal k f a b) :
    walkTree mode T cap root cur p d =
      if p.foldl HuffTree.child cur = root then .done d else .raised .corruptStream := by
  induction p generalizing cur with
  | nil => rfl
  | cons x p ih =>
    obtain ⟨k, f, a, b, hchild⟩ := h [x] (by simp)
    have hchild : cur.child x = .internal k f a b := hchild
    rw [walkTree, hchild, List.foldl_cons, hchild]
    refine ih fun q hq => ?_
    rw [← hchild]
    exact h (x :: q) (List.cons_prefix_cons.mpr ⟨rfl, hq⟩)

/-- A payload that ends inside a code ends the walk off the root (46_bitstream_unpacker.md R216). -/
theorem walkFromRoot_truncated {T : Table} {r : HuffTree} {i : Nat} {tail : Bits}
    (hb : buildTree T = some r) (htwo : 2 ≤ T.length) (hi : i < T.length) (hne : tail ≠ [])
    (hpre : tail <+: codeAt (genCodes r) i) (hcut : tail ≠ codeAt (genCodes r) i) (mode : Mode)
    (cap : Nat) (d : Emitted) : walkFromRoot mode T cap r tail d = .raised .corruptStream := by
  obtain ⟨-, hinside⟩ := codeAt_genCodes_child hb hi htwo
  cases r with
  | leaf sym f =>
    obtain ⟨hone, -⟩ := buildTree_leaf hb
    omega
  | internal k f a b =>
    rw [walkFromRoot, walkTree_descent d fun q hq => hinside q (hq.trans hpre) ?_,
      if_neg (foldl_child_ne hne)]
    · rintro rfl
      exact hcut (hpre.eq_of_length_le hq.length_le)

/-! ### The command -/

section

variable {s : State} {T : Table} {r : HuffTree} {p : Bits} (hT : s.ft = some T)
  (hr : s.tree = some r) (hp : s.pbuf = some p) (hv : s.dstValid)

include hT hr hp hv

/-- DECODE ends well with its records in the destination (46_bitstream_unpacker.md R214). -/
theorem exec_decode_of_done {d : Emitted}
    (h : decodePayload s.status.ftMode T s.latch.args.dstCap.toNat r p = .done d) :
    exec .decode s = .next
      { s with
        status := s.status.ended .success
        buf := s.buf.writeBytes s.latch.args.dstBase.toNat d.out
        resultLen := BitVec.ofNat 32 d.out.length
        symCount := BitVec.ofNat 32 d.count } := by
  have hexec : exec .decode s = .next ((s.storeDecoded d).finish .success) := by
    simp only [exec, execDecode, hT, hr, hp, withDest_of_valid _ hv, h]
  exact hexec

/-- DECODE reports an error of the walk, as an execution error (60_exceptions.md R250). -/
theorem exec_decode_of_raised {e : ErrCode}
    (h : decodePayload s.status.ftMode T s.latch.args.dstCap.toNat r p = .raised e) :
    exec .decode s = .next (s.raise .decode e) := by
  simp only [exec, execDecode, hT, hr, hp, withDest_of_valid _ hv, h]

end

/-- Settles O36: the codes are walked to their records, and the payload is used up at the root. -/
theorem decodeInvertsCodes : Obligations.DecodeInvertsCodes := by
  unfold Obligations.DecodeInvertsCodes
  exact fun _ _ _ _ hT hr hb his hp hv hfit =>
    exec_decode_of_done hT hr hp hv (decodePayload_codes hb his hfit)

/-- Settles O37: the walk goes wrong past the codes that fit, or at a record that does not. -/
theorem decodeReportsFirstError : Obligations.DecodeReportsFirstError := by
  unfold Obligations.DecodeReportsFirstError
  intro s T r is tail hT hr hb his hv hp
  refine ⟨fun hfit hone htwo => ?_, fun hfull => ?_⟩
  · refine ⟨s.raise .decode .corruptStream, exec_decode_of_raised hT hr hp hv ?_, rfl,
      fun _ => raise_read_outside rfl s _⟩
    rw [decodePayload_eq_walkFromRoot, walkFromRoot_codes hb his tail _ (by simpa using hfit)]
    rcases Nat.lt_or_ge T.length 2 with hlt | hge
    · have hpos := List.length_pos_iff.mpr (ne_nil_of_buildTree hb)
      have hlen : T.length = 1 := by omega
      obtain ⟨rest, rfl⟩ := hone hlen
      exact walkFromRoot_one hb hlen _ _ _ _
    · obtain ⟨hne, i, hi, hpre, hcut⟩ := htwo hge
      exact walkFromRoot_truncated hb hge hi hne hpre hcut _ _ _
  · refine ⟨s.raise .decode .capacityExceeded, exec_decode_of_raised hT hr hp hv ?_, rfl,
      fun _ => raise_read_outside rfl s _⟩
    rw [decodePayload_eq_walkFromRoot,
      walkFromRoot_codes_full hb his tail (Nat.zero_le _) (by simpa using hfull)]

end Sys2Proof.Machine
end

section
/-! PROOFS. COMPRESS and DECOMPRESS, one command after another, and that the second undoes the first
(spec/30_encoding.md R77, spec/46_bitstream_unpacker.md R217). -/

namespace Sys2Proof.Machine

/-! ### Commands one after another -/

/-- The command `i`, accepted in `s`, ends well in `t` (60_exceptions.md R240, R241). -/
def EndsWell (s : State) (i : Instr) (t : State) : Prop :=
  exec i (s.accept (encode i)) = .next t ∧ t.status.errcode = .success

/-- A command that ends well is followed by the next one (30_encoding.md R77). -/
theorem EndsWell.runAll_cons {s t : State} {i : Instr} (h : EndsWell s i t) (is : List Instr) :
    runAll s (i :: is) = runAll t is := by
  obtain ⟨hexec, hok⟩ := h
  have hrun : runCommand s i = some t := by
    rw [runCommand, completionStep_of_cmd rfl, hexec]
  rw [runAll, hrun]
  exact if_pos hok

/-- The block `s` has come to `t` by commands that wrote its stores only: what the next command can
see. -/
structure StoresFilled (s t : State) (T : Table) (tree : Option HuffTree) (rom : Option CodeRom)
    (p : Option Bits) : Prop where
  cfg : t.cfg = s.cfg
  operands : t.operands = s.operands
  buf : t.buf = s.buf
  ftMode : t.status.ftMode = s.ctrl.mode
  ft : t.ft = some T
  tree : t.tree = tree
  crom : t.crom = rom
  pbuf : t.pbuf = p

section

variable {s : State} {src : List Byte} {T : Table}
  (hsrc : regionValid s.cfg s.operands.srcBase s.operands.srcLen)
  (hbytes : s.buf.readBytes s.operands.srcBase.toNat s.operands.srcLen.toNat = some src)

include hsrc hbytes

/-- ANALYZE fills FT (41_frequency_analyzer.md R104). -/
theorem endsWell_analyze {n : Nat} (h : analyzeSource s.cfg.nMax s.ctrl.mode src = .done (T, n)) :
    ∃ t, EndsWell s .analyze t ∧ StoresFilled s t T none none none :=
  ⟨_, ⟨exec_analyze_of_done (s := s.accept (encode .analyze)) hsrc hbytes h, rfl⟩,
    ⟨rfl, rfl, rfl, rfl, rfl, rfl, rfl, rfl⟩⟩

/-- UNPACK fills FT and PBUF (46_bitstream_unpacker.md R211). -/
theorem endsWell_unpack {p : Bits}
    (h : unpackFrame s.cfg s.ctrl.mode (bitsOf src) = .done (T, p)) :
    ∃ t, EndsWell s .unpack t ∧ StoresFilled s t T none none (some p) :=
  ⟨_, ⟨exec_unpack_of_done (s := s.accept (encode .unpack)) hsrc hbytes h, rfl⟩,
    ⟨rfl, rfl, rfl, rfl, rfl, rfl, rfl, rfl⟩⟩

/-- ENCODE fills PBUF (45_bitstream_packer.md R190). -/
theorem StoresFilled.endsWell_encode {t : State} {tree : Option HuffTree} {rom : CodeRom}
    {p : Option Bits} (ht : StoresFilled s t T tree (some rom) p) {q : Bits} {n : Nat}
    (h : encodeSource s.cfg.pbufBits s.ctrl.mode T rom src = .done (q, n)) :
    ∃ t', EndsWell t .encode t' ∧ StoresFilled s t' T tree (some rom) (some q) := by
  obtain ⟨hcfg, hops, hbuf, hmode, hft, htree, hrom, -⟩ := ht
  rw [← hcfg, ← hops] at hsrc
  rw [← hbuf, ← hops] at hbytes
  rw [← hcfg, ← hmode] at h
  exact ⟨_, ⟨exec_encode_of_done (s := t.accept (encode .encode)) hft hrom hsrc hbytes h, rfl⟩,
    ⟨hcfg, hops, hbuf, hmode, hft, htree, hrom, rfl⟩⟩

end

namespace StoresFilled

variable {s t : State} {T : Table} {tree : Option HuffTree} {rom : Option CodeRom} {p : Option Bits}

/-- BUILD_TREE fills TREE (42_tree_builder.md R123). -/
theorem endsWell_buildTree (ht : StoresFilled s t T tree rom p) {r : HuffTree}
    (h : buildTree T = some r) :
    ∃ t', EndsWell t .buildTree t' ∧ StoresFilled s t' T (some r) none p := by
  obtain ⟨hcfg, hops, hbuf, hmode, hft, -, -, hp⟩ := ht
  exact ⟨_, ⟨exec_buildTree_of_some (s := t.accept (encode .buildTree)) hft h, rfl⟩,
    ⟨hcfg, hops, hbuf, hmode, hft, rfl, rfl, hp⟩⟩

/-- GEN_CODES fills CROM (43_code_generator.md R142). -/
theorem endsWell_genCodes {r : HuffTree} (ht : StoresFilled s t T (some r) rom p) :
    ∃ t', EndsWell t .genCodes t' ∧
      StoresFilled s t' T (some r) (some (genCodes r)) p := by
  obtain ⟨hcfg, hops, hbuf, hmode, hft, htree, -, hp⟩ := ht
  exact ⟨_, ⟨genCodesStoresRom (t.accept (encode .genCodes)) r htree, rfl⟩,
    ⟨hcfg, hops, hbuf, hmode, hft, htree, rfl, hp⟩⟩

/-- PACK writes the frame of FT and PBUF (45_bitstream_packer.md R193). -/
theorem endsWell_pack {q : Bits} (ht : StoresFilled s t T tree rom (some q)) {bs : List Byte}
    (hdst : regionValid s.cfg s.operands.dstBase s.operands.dstCap)
    (h : packFrame s.cfg s.ctrl.mode T q s.operands.dstCap.toNat = .done bs) :
    ∃ t', EndsWell t .pack t' ∧ t'.resultLen = BitVec.ofNat 32 bs.length ∧
      t'.buf = s.buf.writeBytes s.operands.dstBase.toNat bs := by
  obtain ⟨hcfg, hops, hbuf, hmode, hft, -, -, hp⟩ := ht
  rw [← hcfg, ← hops] at hdst
  rw [← hcfg, ← hmode, ← hops] at h
  rw [← hbuf, ← hops]
  exact ⟨_, ⟨exec_pack_of_done (s := t.accept (encode .pack)) hft hp hdst h, rfl⟩, rfl, rfl⟩

/-- DECODE writes the records that PBUF is walked to (46_bitstream_unpacker.md R214). -/
theorem endsWell_decode {r : HuffTree} {q : Bits} (ht : StoresFilled s t T (some r) rom (some q))
    {d : Emitted} (hdst : regionValid s.cfg s.operands.dstBase s.operands.dstCap)
    (h : decodePayload s.ctrl.mode T s.operands.dstCap.toNat r q = .done d) :
    ∃ t', EndsWell t .decode t' ∧ t'.buf = s.buf.writeBytes s.operands.dstBase.toNat d.out ∧
      t'.symCount = BitVec.ofNat 32 d.count ∧ t'.resultLen = BitVec.ofNat 32 d.out.length := by
  obtain ⟨hcfg, hops, hbuf, hmode, hft, htree, -, hp⟩ := ht
  rw [← hcfg, ← hops] at hdst
  rw [← hmode, ← hops] at h
  rw [← hbuf, ← hops]
  exact ⟨_, ⟨exec_decode_of_done (s := t.accept (encode .decode)) hft htree hp hdst h,
    rfl⟩, rfl, rfl, rfl⟩

end StoresFilled

/-! ### The codes of a source, by symbol and by table index -/

/-- The table index of each symbol (45_bitstream_packer.md R190). -/
def indices (T : Table) (ks : List Symbol) : List Nat := ks.map fun k => (indexOf T k).getD 0

@[simp] theorem indices_length (T : Table) (ks : List Symbol) :
    (indices T ks).length = ks.length := by simp [indices]

section

variable {T : Table} {ks : List Symbol} (hks : ∀ k ∈ ks, k ∈ T.map (·.key))

include hks

theorem indices_lt : ∀ i ∈ indices T ks, i < T.length := by
  intro i hi
  obtain ⟨k, hk, rfl⟩ := List.mem_map.mp hi
  obtain ⟨i, hlt, hidx, -⟩ := indexOf_mem (hks k hk)
  simpa [hidx] using hlt

/-- The codes of symbols are those of their table indices (45_bitstream_packer.md R191). -/
theorem flatMap_codeOf (rom : CodeRom) :
    ks.flatMap (codeOf T rom) = (indices T ks).flatMap (codeAt rom) := by
  rw [indices, List.flatMap_map]
  refine List.flatMap_congr fun k hk => ?_
  obtain ⟨i, -, hidx, -⟩ := indexOf_mem (hks k hk)
  simp [codeOf, hidx]

/-- The records at the table indices of symbols are those of the symbols
(46_bitstream_unpacker.md R214). -/
theorem flatMap_recordAt (mode : Mode) :
    (indices T ks).flatMap (recordAt mode T) = records mode ks := by
  rw [indices, records, List.flatMap_map]
  refine List.flatMap_congr fun k hk => ?_
  obtain ⟨i, hlt, hidx, hkey⟩ := indexOf_mem (hks k hk)
  simp [recordAt, hidx, List.getElem?_eq_getElem hlt, hkey]

end

theorem mem_tally_keys {ks : List Symbol} {k : Symbol} (hk : k ∈ ks) :
    k ∈ (tally ks).map (·.key) := by
  rw [tally_keys]
  exact List.mem_eraseDups.mpr hk

/-! ### COMPRESS -/

/-- The payload of a source that was compressed with the tree `r` (45_bitstream_packer.md R191). -/
def compressedPayload (ks : List Symbol) (r : HuffTree) : Bits :=
  ks.flatMap (codeOf (tally ks) (genCodes r))

/-- The frame of a source that was compressed with the tree `r`: its tally serialized, then its
payload (45_bitstream_packer.md R193, R194). -/
def compressedFrame (cfg : Params) (mode : Mode) (ks : List Symbol) (r : HuffTree) : List Byte :=
  bytesOf (frameBits cfg (tableBits mode (tally ks)) (compressedPayload ks r))

/-- COMPRESS of a well-formed source that fits every store leaves its frame in the destination, and
its length in RESULT_LEN. -/
theorem runAll_compress {s : State} {ks : List Symbol} {r : HuffTree} (hne : ks ≠ [])
    (hok : ∀ k ∈ ks, k.okFor s.ctrl.mode = true) (hroom : ks.eraseDups.length ≤ s.cfg.nMax)
    (hsrc : regionValid s.cfg s.operands.srcBase s.operands.srcLen)
    (hdst : regionValid s.cfg s.operands.dstBase s.operands.dstCap)
    (hbytes : s.buf.readBytes s.operands.srcBase.toNat s.operands.srcLen.toNat =
      some (records s.ctrl.mode ks))
    (hr : buildTree (tally ks) = some r)
    (htb : serTable s.ctrl.mode (tally ks) = .done (tableBits s.ctrl.mode (tally ks)))
    (hpbuf : (compressedPayload ks r).length ≤ s.cfg.pbufBits)
    (hcap : (compressedFrame s.cfg s.ctrl.mode ks r).length ≤ s.operands.dstCap.toNat) :
    ∃ t, runAll s [.analyze, .buildTree, .genCodes, .encode, .pack] = some t ∧
      t.resultLen = BitVec.ofNat 32 (compressedFrame s.cfg s.ctrl.mode ks r).length ∧
      t.buf = s.buf.writeBytes s.operands.dstBase.toNat
        (compressedFrame s.cfg s.ctrl.mode ks r) := by
  have hkeys : ∀ k ∈ ks, k.okFor s.ctrl.mode = true ∧ k ∈ (tally ks).map (·.key) :=
    fun k hk => ⟨hok k hk, mem_tally_keys hk⟩
  have hpack := packFrame_eq htb s.cfg (compressedPayload ks r) s.operands.dstCap.toNat
  rw [compressedFrame, frame_length] at hcap
  rw [if_neg (by omega)] at hpack
  obtain ⟨s1, hrun1, hs1⟩ :=
    endsWell_analyze hsrc hbytes (analyzeSource_records hok hne hroom)
  obtain ⟨s2, hrun2, hs2⟩ := hs1.endsWell_buildTree hr
  obtain ⟨s3, hrun3, hs3⟩ := hs2.endsWell_genCodes
  obtain ⟨s4, hrun4, hs4⟩ := hs3.endsWell_encode hsrc hbytes (encodeSource_records hkeys hpbuf)
  obtain ⟨t, hrun5, hresult⟩ := hs4.endsWell_pack hdst hpack
  refine ⟨t, ?_, hresult⟩
  rw [hrun1.runAll_cons, hrun2.runAll_cons, hrun3.runAll_cons, hrun4.runAll_cons,
    hrun5.runAll_cons, runAll]

/-- The frame's bits: padding, a marker whose first bit is 1, the table, the payload
(00_scope.md R9; 45_bitstream_packer.md R194). -/
theorem bitsOf_compressedFrame {cfg : Params} (hcfg : cfg.WellFormed) (mode : Mode)
    (ks : List Symbol) (r : HuffTree) :
    ∃ (pad : Nat) (marker : Bits), marker.length + 1 = cfg.markerW ∧
      bitsOf (compressedFrame cfg mode ks r) =
        zeros pad ++ true :: marker ++ tableBits mode (tally ks) ++ compressedPayload ks r := by
  obtain ⟨-, -, -, ⟨hpos, -⟩, ⟨-, hfirst⟩, -⟩ := hcfg
  obtain ⟨w, hw⟩ : ∃ w, cfg.markerW = w + 1 := ⟨cfg.markerW - 1, by omega⟩
  have hmarker : u cfg.marker.toNat cfg.markerW = true :: u cfg.marker.toNat w := by
    rw [hw, Nat.add_sub_cancel] at hfirst
    rw [hw, u, BitVec.testBit_toNat, hfirst]
  refine ⟨padBits
      (cfg.markerW + (tableBits mode (tally ks)).length + (compressedPayload ks r).length),
    u cfg.marker.toNat w, by rw [u_length, hw], ?_⟩
  rw [compressedFrame, bitsOf_frame, frameBits_eq, hmarker]

/-! ### DECOMPRESS -/

/-- UNPACK takes such a frame apart into the tally and the payload. -/
theorem unpackFrame_compressedFrame {cfg : Params} {mode : Mode} {ks : List Symbol} {r : HuffTree}
    (hcfg : cfg.WellFormed) (htable : TableOk cfg.nMax mode (tally ks))
    (hpbuf : (compressedPayload ks r).length ≤ cfg.pbufBits) :
    unpackFrame cfg mode (bitsOf (compressedFrame cfg mode ks r)) =
      .done (tally ks, compressedPayload ks r) := by
  obtain ⟨pad, marker, hm, hbits⟩ := bitsOf_compressedFrame hcfg mode ks r
  obtain ⟨⟨-, hmax⟩, -⟩ := hcfg
  have hparse := parseTable_tableBits (htable.fieldsFit hmax) htable.keysDistinct htable.room
    htable.keysFit (compressedPayload ks r)
  rw [hbits, List.append_assoc, unpackFrame_of_parsed hm hparse, if_neg (by omega)]

/-- DECODE walks such a payload back to the records of the source. -/
theorem decodePayload_compressedPayload {mode : Mode} {cap : Nat} {ks : List Symbol} {r : HuffTree}
    (hr : buildTree (tally ks) = some r) (hcap : (records mode ks).length ≤ cap) :
    decodePayload mode (tally ks) cap r (compressedPayload ks r) =
      .done ⟨records mode ks, ks.length⟩ := by
  have hkeys : ∀ k ∈ ks, k ∈ (tally ks).map (·.key) := fun k => mem_tally_keys
  rw [← flatMap_recordAt hkeys] at hcap ⊢
  rw [compressedPayload, flatMap_codeOf hkeys, decodePayload_codes hr (indices_lt hkeys) hcap,
    indices_length]

/-- DECOMPRESS of such a frame, on a block with the same parameters and mode, leaves the records of
the source in the destination, and their length and number in RESULT_LEN and SYM_COUNT. -/
theorem runAll_decompress {v : State} {cfg : Params} {mode : Mode} {ks : List Symbol}
    {r : HuffTree} (hvcfg : v.cfg = cfg) (hvmode : v.ctrl.mode = mode) (hcfg : cfg.WellFormed)
    (htable : TableOk cfg.nMax mode (tally ks)) (hr : buildTree (tally ks) = some r)
    (hpbuf : (compressedPayload ks r).length ≤ cfg.pbufBits)
    (hsrc : regionValid v.cfg v.operands.srcBase v.operands.srcLen)
    (hdst : regionValid v.cfg v.operands.dstBase v.operands.dstCap)
    (hbytes : v.buf.readBytes v.operands.srcBase.toNat v.operands.srcLen.toNat =
      some (compressedFrame cfg mode ks r))
    (hcap : (records mode ks).length ≤ v.operands.dstCap.toNat) :
    ∃ w, runAll v [.unpack, .buildTree, .decode] = some w ∧
      w.buf = v.buf.writeBytes v.operands.dstBase.toNat (records mode ks) ∧
      w.symCount = BitVec.ofNat 32 ks.length ∧
      w.resultLen = BitVec.ofNat 32 (records mode ks).length := by
  subst hvcfg hvmode
  obtain ⟨v1, hrun1, hv1⟩ :=
    endsWell_unpack hsrc hbytes (unpackFrame_compressedFrame hcfg htable hpbuf)
  obtain ⟨v2, hrun2, hv2⟩ := hv1.endsWell_buildTree hr
  obtain ⟨w, hrun3, hresult⟩ := hv2.endsWell_decode hdst (decodePayload_compressedPayload hr hcap)
  refine ⟨w, ?_, hresult⟩
  rw [hrun1.runAll_cons, hrun2.runAll_cons, hrun3.runAll_cons, runAll]

/-! ### Both -/

/-- A source that stands in a region has fewer than 2³² symbols. -/
theorem length_lt_of_readBytes {m : Memory} {base len : Word} {mode : Mode} {ks : List Symbol}
    (h : m.readBytes base.toNat len.toNat = some (records mode ks)) : ks.length < 2 ^ 32 :=
  calc ks.length ≤ (records mode ks).length := records_length_le mode ks
    _ = len.toNat := Memory.readBytes_length h
    _ < 2 ^ 32 := len.isLt

/-- A length that fits a register reads back from it. -/
theorem toNat_ofNat_of_le {n : Nat} {w : Word} (h : n ≤ w.toNat) :
    (BitVec.ofNat 32 n).toNat = n := by
  rw [BitVec.toNat_ofNat, Nat.mod_eq_of_lt (h.trans_lt w.isLt)]

/-- Settles O38: COMPRESS leaves the frame of the source, whose table and payload UNPACK takes apart
again, whose tree BUILD_TREE builds again, and whose codes DECODE walks back to the records. -/
theorem compressDecompressRoundTrip : Obligations.CompressDecompressRoundTrip := by
  unfold Obligations.CompressDecompressRoundTrip
  intro s ks r tb hcfg hne hok hroom hsrc hdst hbytes hr htb hpbuf hcap
  obtain ⟨-, rfl⟩ := serTable_done_iff.mp htb
  have hlen : ks.length < 2 ^ 32 := length_lt_of_readBytes hbytes
  have htable : TableOk s.cfg.nMax s.ctrl.mode (tally ks) :=
    tally_ok (by simpa using hroom) hok hlen
  have hframe : (compressedFrame s.cfg s.ctrl.mode ks r).length ≤ s.operands.dstCap.toNat :=
    (frame_length _ _ _).trans_le hcap
  obtain ⟨t, hrun, hresult, hbuf⟩ :=
    runAll_compress hne hok hroom hsrc hdst hbytes hr htb hpbuf hframe
  have hexact : t.resultLen.toNat = (compressedFrame s.cfg s.ctrl.mode ks r).length := by
    rw [hresult, toNat_ofNat_of_le hframe]
  refine ⟨t, _, hrun, hexact, ?_, ?_⟩
  · rw [hbuf, Memory.readBytes_writeBytes_same]
  · intro v hvcfg hvmode hvsrc hvdst hvlen hvbytes hvcap
    rw [← hexact, ← hvlen] at hvbytes
    obtain ⟨w, hrun', hbuf', hcount, hlength⟩ :=
      runAll_decompress hvcfg hvmode hcfg htable hr hpbuf hvsrc hvdst hvbytes hvcap
    refine ⟨w, hrun', ?_, ?_, ?_⟩
    · rw [hbuf', Memory.readBytes_writeBytes_same]
    · rw [hcount, BitVec.toNat_ofNat, Nat.mod_eq_of_lt hlen]
    · rw [hlength, toNat_ofNat_of_le hvcap]

end Sys2Proof.Machine
end

section
/-! PROOFS. A write to CMD: accepted while no command runs, dropped while one does
(spec/60_exceptions.md R240, R242). -/

namespace Sys2Proof.Machine

theorem writeReg_cmd_of_idle {s : State} (hb : s.status.busy = false) (w : Word) :
    s.writeReg .cmd w = s.accept w :=
  if_neg (by simp [hb])

theorem writeReg_cmd_of_busy {s : State} (hb : s.status.busy = true) (w : Word) :
    s.writeReg .cmd w = s.setHaz :=
  if_pos hb

/-- Settles O4: the write of the register is the acceptance. -/
theorem cmdWriteIsAccepted : Obligations.CmdWriteIsAccepted := by
  unfold Obligations.CmdWriteIsAccepted
  intro s w rest h hb
  refine ⟨_, step_writeReg (r := .cmd) h, ?_⟩
  rw [writeReg_cmd_of_idle (s := { s with agenda := rest }) hb]
  rfl

/-- Settles O5: the write of the register sets HAZ alone. -/
theorem cmdWriteWhileBusyIsDropped : Obligations.CmdWriteWhileBusyIsDropped := by
  unfold Obligations.CmdWriteWhileBusyIsDropped
  intro s w rest h hb
  refine ⟨_, step_writeReg (r := .cmd) h, ?_⟩
  rw [writeReg_cmd_of_busy (s := { s with agenda := rest }) hb]
  rfl

end Sys2Proof.Machine
end

section
/-! PROOFS. How a command ends: a pre-check error, a success or an execution error, and what each of
them changes (spec/60_exceptions.md R241, R246, R250). -/

namespace Sys2Proof.Machine

/-- Settles O6: the completion step answers a next state unless a source byte holds no value, which a
command finds only once its region has passed the pre-check. -/
theorem everyCommandCompletes : Obligations.EveryCommandCompletes := by
  unfold Obligations.EveryCommandCompletes
  intro s rest hm hheld
  rw [step_of_coreMoves hm]
  rcases completionStep_total { s with agenda := rest } with ⟨t, ht⟩ | ⟨i, hi, hstop, _⟩
  · have hc := completionStep_completed ht
    exact ⟨t, ht, hc.busy, hc.done, hc.agenda⟩
  · obtain ⟨hreads, hchecked, hnone⟩ := hstop
    have hvalid : s.srcValid := ((preCheck_readsSource hreads _).mp hchecked).2
    obtain ⟨src, hsrc⟩ := hheld ⟨i, hi, hreads⟩ hvalid
    exact nomatch hsrc.symm.trans hnone

/-! ### The pre-checks -/

section

variable {i : Instr} {s : State}

theorem preCheck_of_not_ready (hr : s.ready i = false) : preCheck i s = some .notReady := if_pos hr

theorem preCheck_of_src_invalid (hi : readsSource i = true) (hr : s.ready i = true)
    (hv : ¬ s.srcValid) : preCheck i s = some .regionFault := by
  cases i with
  | analyze | encode | unpack => simp only [preCheck, hr, hv, Bool.true_eq_false, ↓reduceIte]
  | buildTree | genCodes | pack | decode => cases hi

theorem preCheck_of_dst_invalid (hi : writesDest i = true) (hr : s.ready i = true)
    (hv : ¬ s.dstValid) : preCheck i s = some .regionFault := by
  cases i with
  | pack | decode => simp only [preCheck, hr, hv, Bool.true_eq_false, ↓reduceIte]
  | analyze | buildTree | genCodes | encode | unpack => cases hi

/-- A command without a region has only its flags to check. -/
theorem preCheck_of_no_region (hsrc : readsSource i = false) (hdst : writesDest i = false)
    (hr : s.ready i = true) : preCheck i s = none := by
  cases i with
  | buildTree | genCodes => simp only [preCheck, hr, Bool.true_eq_false, ↓reduceIte]
  | analyze | encode | unpack => cases hsrc
  | pack | decode => cases hdst

end

/-! ### The three ways to end -/

/-- The state in which a command works once its pre-checks have passed: ANALYZE and UNPACK have sampled
the latched mode into FT_MODE (10_state.md R33). -/
def State.started (s : State) : Instr → State
  | .analyze => s.sampleMode
  | .buildTree => s
  | .genCodes => s
  | .encode => s
  | .pack => s
  | .unpack => s.sampleMode
  | .decode => s

/-- How the command `i`, run in the state `s`, has ended in the state `t` (60_exceptions.md R246). -/
inductive Ended (i : Instr) (s t : State) : Prop
  | preCheckError (e : ErrCode) (he : preCheck i s = some e) (ht : t = s.finish e)
  | success (hp : preCheck i s = none) (hok : t.status.errcode = .success)
  | executionError (hp : preCheck i s = none) (e : ErrCode) (ht : t = (s.started i).raise i e)

section

variable {i : Instr} {s : State}

theorem Ended.of_not_ready (hr : s.ready i = false) : Ended i s (s.finish .notReady) :=
  .preCheckError _ (preCheck_of_not_ready hr) rfl

theorem Ended.of_src_invalid (hi : readsSource i = true) (hr : s.ready i = true)
    (hv : ¬ s.srcValid) : Ended i s (s.finish .regionFault) :=
  .preCheckError _ (preCheck_of_src_invalid hi hr hv) rfl

theorem Ended.of_dst_invalid (hi : writesDest i = true) (hr : s.ready i = true)
    (hv : ¬ s.dstValid) : Ended i s (s.finish .regionFault) :=
  .preCheckError _ (preCheck_of_dst_invalid hi hr hv) rfl

end

/-- Under the invariant, which gives a command the stores that come with the flags it checks
(10_state.md R38), every command ends in one of the three ways. -/
theorem exec_ended {i : Instr} {s t : State} (h : Inv s) (he : exec i s = .next t) : Ended i s t := by
  cases i with
  | analyze =>
    rcases execAnalyze_cases he with ⟨hv, rfl⟩ | ⟨hv, _, _, ⟨e, _, rfl⟩ | ⟨_, _, _, rfl⟩⟩
    · exact .of_src_invalid rfl rfl hv
    · exact .executionError ((preCheck_readsSource rfl s).mpr ⟨rfl, hv⟩) e rfl
    · exact .success ((preCheck_readsSource rfl s).mpr ⟨rfl, hv⟩) rfl
  | buildTree =>
    rcases execBuildTree_cases he with ⟨hT, rfl⟩ | ⟨T, hT, hend⟩
    · exact .of_not_ready (congrArg Option.isSome hT)
    · have hp : preCheck .buildTree s = none :=
        preCheck_of_no_region rfl rfl (congrArg Option.isSome hT)
      rcases hend with ⟨_, rfl⟩ | ⟨_, _, rfl⟩
      · exact .executionError hp _ rfl
      · exact .success hp rfl
  | genCodes =>
    rcases execGenCodes_cases he with ⟨hr, rfl⟩ | ⟨r, hr, rfl⟩
    · exact .of_not_ready (congrArg Option.isSome hr)
    · exact .success (preCheck_of_no_region rfl rfl (congrArg Option.isSome hr)) rfl
  | encode =>
    rcases execEncode_cases he with ⟨hno, rfl⟩ | ⟨T, rom, _, hrom, hend⟩
    · refine .of_not_ready ?_
      cases hrom : s.crom with
      | none => exact congrArg Option.isSome hrom
      | some rom =>
        obtain ⟨T, hT⟩ := exists_ft_of_crom h hrom
        simp only [hT, hrom, reduceCtorEq, or_self] at hno
    · have hr : s.ready .encode = true := congrArg Option.isSome hrom
      rcases hend with ⟨hv, rfl⟩ | ⟨hv, _, _, ⟨e, _, rfl⟩ | ⟨_, _, _, rfl⟩⟩
      · exact .of_src_invalid rfl hr hv
      · exact .executionError ((preCheck_readsSource rfl s).mpr ⟨hr, hv⟩) e rfl
      · exact .success ((preCheck_readsSource rfl s).mpr ⟨hr, hv⟩) rfl
  | pack =>
    rcases execPack_cases he with ⟨hno, rfl⟩ | ⟨T, p, hT, hpb, hend⟩
    · refine .of_not_ready ?_
      rcases hno with hno | hno <;> simp [State.ready, State.ftValid, State.pbufValid, hno]
    · have hr : s.ready .pack = true := by
        simp [State.ready, State.ftValid, State.pbufValid, hT, hpb]
      rcases hend with ⟨hv, rfl⟩ | ⟨hv, ⟨e, _, rfl⟩ | ⟨_, _, rfl⟩⟩
      · exact .of_dst_invalid rfl hr hv
      · exact .executionError ((preCheck_writesDest rfl s).mpr ⟨hr, hv⟩) e rfl
      · exact .success ((preCheck_writesDest rfl s).mpr ⟨hr, hv⟩) rfl
  | unpack =>
    rcases execUnpack_cases he with ⟨hv, rfl⟩ | ⟨hv, _, _, ⟨e, _, rfl⟩ | ⟨_, _, _, rfl⟩⟩
    · exact .of_src_invalid rfl rfl hv
    · exact .executionError ((preCheck_readsSource rfl s).mpr ⟨rfl, hv⟩) e rfl
    · exact .success ((preCheck_readsSource rfl s).mpr ⟨rfl, hv⟩) rfl
  | decode =>
    rcases execDecode_cases he with ⟨hno, rfl⟩ | ⟨T, r, p, _, hr, hpb, hend⟩
    · refine .of_not_ready ?_
      cases hr : s.tree with
      | none => simp [State.ready, State.treeValid, hr]
      | some r =>
        obtain ⟨T, hT, _⟩ := h.exists_table hr
        simp only [hT, hr, reduceCtorEq, false_or] at hno
        simp [State.ready, State.pbufValid, hno]
    · have hr : s.ready .decode = true := by
        simp [State.ready, State.treeValid, State.pbufValid, hr, hpb]
      rcases hend with ⟨hv, rfl⟩ | ⟨hv, ⟨e, _, rfl⟩ | ⟨_, _, rfl⟩⟩
      · exact .of_dst_invalid rfl hr hv
      · exact .executionError ((preCheck_writesDest rfl s).mpr ⟨hr, hv⟩) e rfl
      · exact .success ((preCheck_writesDest rfl s).mpr ⟨hr, hv⟩) rfl

/-- A command that fails a pre-check reports it and changes nothing but STATUS: it reads no source byte,
so it does not stop either (60_exceptions.md R246). -/
theorem exec_of_preCheck {i : Instr} {s : State} {e : ErrCode} (h : Inv s)
    (hp : preCheck i s = some e) : exec i s = .next (s.finish e) := by
  rcases exec_total i s with ⟨t, ht⟩ | ⟨hstop, _⟩
  · cases exec_ended h ht with
    | preCheckError e' he' hfin =>
      obtain rfl : e' = e := Option.some.inj (he'.symm.trans hp)
      rw [ht, hfin]
    | success hnone _ => exact nomatch hp.symm.trans hnone
    | executionError hnone _ _ => exact nomatch hp.symm.trans hnone
  · exact nomatch hp.symm.trans hstop.checked

/-- Settles O7: the completion step is the command, which reports what its pre-checks find, or the word
is no command's. -/
theorem preCheckErrorChangesOnlyStatus : Obligations.PreCheckErrorChangesOnlyStatus := by
  unfold Obligations.PreCheckErrorChangesOnlyStatus
  intro s hinv
  exact ⟨completionStep_of_illegal, fun i e hi hp =>
    (completionStep_of_cmd hi).trans (exec_of_preCheck hinv hp)⟩

/-! ### An execution error -/

/-- An execution error of a command without a destination region leaves BUF alone. -/
theorem raise_buf_of_no_dest {i : Instr} (hi : writesDest i = false) (s : State) (e : ErrCode) :
    (s.raise i e).buf = s.buf := by
  cases i with
  | analyze | buildTree | genCodes | encode | unpack => rfl
  | pack | decode => cases hi

/-- An execution error of a command with a destination region fills it with free values
(60_exceptions.md R250 (c)). -/
theorem raise_buf_of_dest {i : Instr} (hi : writesDest i = true) (s : State) (e : ErrCode) :
    (s.raise i e).buf = s.buf.writeBytes s.latch.args.dstBase.toNat
      (drawBytes s.draws s.latch.args.dstCap.toNat) := by
  cases i with
  | analyze | buildTree | genCodes | encode | unpack => cases hi
  | pack | decode => rfl

/-- So each byte of the region then holds a value. -/
theorem raise_read_inside {i : Instr} (hi : writesDest i = true) (s : State) (e : ErrCode) {a : Nat}
    (ha : s.inDst s.latch.args.dstCap.toNat a) : ((s.raise i e).buf.read a).isSome = true := by
  obtain ⟨hlo, hhi⟩ := ha
  obtain ⟨k, rfl⟩ := Nat.exists_eq_add_of_le hlo
  rw [raise_buf_of_dest hi,
    Memory.read_writeBytes_inside _ _ _ (by rw [drawBytes_length]; omega), Option.isSome_some]

theorem started_buf (s : State) (i : Instr) : (s.started i).buf = s.buf := by cases i <;> rfl

/-- The commands that sample the mode have no destination region. -/
theorem started_of_dest {i : Instr} (hi : writesDest i = true) (s : State) : s.started i = s := by
  cases i with
  | analyze | unpack => cases hi
  | buildTree | genCodes | encode | pack | decode => rfl

/-- Settles O8: past its pre-checks a command that has not ended well has raised an error from the state
it worked in. -/
theorem executionErrorEffects : Obligations.ExecutionErrorEffects := by
  unfold Obligations.ExecutionErrorEffects
  intro i s t hinv hp he hbad
  cases exec_ended hinv he with
  | preCheckError e he' _ => exact nomatch hp.symm.trans he'
  | success _ hok => exact absurd hok hbad
  | executionError _ e ht =>
    subst ht
    refine ⟨⟨((s.started i).raise i e).buf, ((s.started i).raise i e).draws, ?_⟩, fun a ha => ?_,
      fun hi a ha => ?_⟩
    · cases i <;> rfl
    · cases hi : writesDest i with
      | true =>
        rw [started_of_dest hi]
        exact raise_read_outside hi s e ha
      | false => rw [raise_buf_of_no_dest hi, started_buf]
    · rw [started_of_dest hi]
      exact raise_read_inside hi s e ha

end Sys2Proof.Machine
end

section
/-! PROOFS. The interrupt (spec/60_exceptions.md R260): IRQ follows IRQ_EN and DONE, so it moves only
where one of the two does. -/

namespace Sys2Proof.Machine

theorem irq_eq_true_iff (s : State) :
    s.irq = true ↔ s.ctrl.irqEn = true ∧ s.status.done = true := by
  rw [State.irq, Bool.and_eq_true]

theorem irq_eq_of_eq {s t : State} (hctrl : t.ctrl = s.ctrl) (hdone : t.status.done = s.status.done) :
    t.irq = s.irq := by
  rw [State.irq, State.irq, hctrl, hdone]

/-- A completion raises DONE, so IRQ is IRQ_EN (60_exceptions.md R241). -/
theorem Completed.irq {s t : State} (h : Completed s t) : t.irq = s.ctrl.irqEn := by
  rw [State.irq, h.ctrl, h.done, Bool.and_true]

/-- A step whose event is a well-formed write of a register does that write and answers no data. -/
theorem step_of_writes {s : State} {r : Reg} {d : Word} (h : s.writes r d) :
    ∃ rest, step s = .next ((({ s with agenda := rest } : State).writeReg r d).answer none) := by
  obtain ⟨p, w, rest, hnext, htg⟩ := h
  refine ⟨rest, ?_⟩
  rw [step_hostWrite hnext]
  simp only [State.hostWrite, htg]

/-! ### Who writes CTRL -/

theorem writeReg_ctrl_of_ne (s : State) {r : Reg} (hr : r ≠ .ctrl) (d : Word) :
    (s.writeReg r d).ctrl = s.ctrl := by
  cases r with
  | ctrl => exact absurd rfl hr
  | cmd => simp only [State.writeReg, State.writeCmd]; split <;> rfl
  | status => simp only [State.writeReg, writeStatus_eq]
  | _ => rfl

theorem illFormedBuf_ctrl (s : State) : s.illFormedBuf.ctrl = s.ctrl := by
  unfold State.illFormedBuf
  split <;> rfl

theorem hostWriteBuf_ctrl (s : State) (a n : Nat) (d : Word) :
    (s.hostWriteBuf a n d).ctrl = s.ctrl := by
  unfold State.hostWriteBuf
  split <;> rfl

theorem hostReadBuf_ctrl {s t : State} {a n : Nat} (h : s.hostReadBuf a n = .next t) :
    t.ctrl = s.ctrl := by
  rcases hostReadBuf_next h with ⟨_, rfl⟩ | ⟨_, _, _, rfl⟩ <;> rfl

/-- A host access changes CTRL only by a write to it (10_state.md R23). -/
theorem hostAccess_ctrl {a : Access} {s t : State} (h : hostAccess a s = .next t) :
    t.ctrl = s.ctrl ∨ ∃ p w d, a = .write p w d ∧ target s.cfg p w = .reg .ctrl := by
  cases a with
  | read p w =>
    left
    simp only [hostAccess, State.hostRead] at h
    split at h
    · cases h; rfl
    · exact hostReadBuf_ctrl h
    · exact hostReadBuf_ctrl h
    · cases h; rfl
    · cases h; exact illFormedBuf_ctrl s
    · cases h; rfl
  | write p w d =>
    obtain rfl : s.hostWrite p w d = t := by cases h; rfl
    unfold State.hostWrite
    split
    · next r htg =>
      by_cases hr : r = .ctrl
      · exact .inr ⟨p, w, d, rfl, hr ▸ htg⟩
      · exact .inl (writeReg_ctrl_of_ne s hr d)
    · exact .inl (hostWriteBuf_ctrl s _ _ d)
    · exact .inl (hostWriteBuf_ctrl s _ _ d)
    · exact .inl rfl
    · exact .inl (illFormedBuf_ctrl s)
    · exact .inl rfl

/-! ### Who moves IRQ -/

/-- A host access that moves IRQ is an acceptance, an acknowledgement or a write to CTRL: no other one
changes IRQ_EN or DONE. -/
theorem hostAccess_irq {a : Access} {s t : State} (h : hostAccess a s = .next t)
    (hne : t.irq ≠ s.irq) :
    ∃ p w d, a = .write p w d ∧ (target s.cfg p w = .reg .cmd ∧ s.status.busy = false ∨
      target s.cfg p w = .reg .status ∧ d.getLsbD 1 = true ∨ target s.cfg p w = .reg .ctrl) := by
  rcases hostAccess_ctrl h with hctrl | ⟨p, w, d, ha, htg⟩
  · rcases hostAccess_status_cases h with ⟨p, w, d, ha, htg, hb, _⟩ | ⟨p, w, d, ha, htg, rfl⟩ |
      ⟨_, _, _, hs⟩
    · exact ⟨p, w, d, ha, .inl ⟨htg, hb⟩⟩
    · refine ⟨p, w, d, ha, .inr (.inl ⟨htg, ?_⟩)⟩
      cases hd : d.getLsbD 1 with
      | true => rfl
      | false =>
        refine absurd (irq_eq_of_eq hctrl ?_) hne
        simp only [State.answer_status, writeStatus_status, hd, Bool.not_false, Bool.and_true]
    · exact absurd (irq_eq_of_eq hctrl (by rw [hs])) hne
  · exact ⟨p, w, d, ha, .inr (.inr htg)⟩

/-- Settles O45: IRQ after a completion and after each of the three writes, and a step that moves it is
one of them or a reset. -/
theorem irqIsLevelOfDone : Obligations.IrqIsLevelOfDone := by
  unfold Obligations.IrqIsLevelOfDone
  refine ⟨irq_eq_true_iff, fun s t h => ⟨?_, ?_, ?_, ?_, ?_⟩⟩
  · rintro ⟨rest, hm⟩
    exact (completionStep_completed ((step_of_coreMoves hm).symm.trans h)).irq
  · intro d hw hb
    obtain ⟨rest, hstep⟩ := step_of_writes hw
    obtain rfl := Host.Outcome.next.inj (hstep.symm.trans h)
    rw [writeReg_cmd_of_idle (s := { s with agenda := rest }) hb]
    exact Bool.and_false _
  · intro d hw hd
    obtain ⟨rest, hstep⟩ := step_of_writes hw
    obtain rfl := Host.Outcome.next.inj (hstep.symm.trans h)
    simp only [State.irq, State.answer_status, State.writeReg, writeStatus_status, hd, Bool.not_true,
      Bool.and_false]
  · intro d hw
    obtain ⟨rest, hstep⟩ := step_of_writes hw
    obtain rfl := Host.Outcome.next.inj (hstep.symm.trans h)
    rfl
  · intro hne
    rcases step_cases h with ⟨rest, hm, _⟩ | ⟨_, ⟨_, rfl⟩ | ⟨_, _, rfl⟩⟩ | ⟨rest, hr, _⟩ |
      ⟨a, rest, ha, hacc⟩
    · exact .inl ⟨rest, hm⟩
    · exact absurd rfl hne
    · exact absurd rfl hne
    · exact .inr (.inr (.inr (.inr ⟨rest, hr⟩)))
    · obtain ⟨p, w, d, rfl, ⟨htg, hb⟩ | ⟨htg, hd⟩ | htg⟩ := hostAccess_irq hacc hne
      · exact .inr (.inl ⟨d, ⟨p, w, rest, ha, htg⟩, hb⟩)
      · exact .inr (.inr (.inl ⟨d, ⟨p, w, rest, ha, htg⟩, hd⟩))
      · exact .inr (.inr (.inr (.inl ⟨d, p, w, rest, ha, htg⟩)))

end Sys2Proof.Machine
end

section
/-! PROOFS. The state after the platform's reset (spec/70_reset_and_hazards.md R280, R281). -/

namespace Sys2Proof.Machine

/-- The region a reset leaves with any value is the destination region of a command that may have
written it, and empty otherwise (93_implementation_defined.md U7). -/
theorem inDst_abandonedBytes_iff (s : State) (a : Nat) :
    s.inDst s.abandonedBytes a ↔ s.inDst s.latch.args.dstCap.toNat a ∧ s.mayHaveWritten = true := by
  unfold State.abandonedBytes
  split
  · next hm => exact (and_iff_left hm).symm
  · next hm => exact iff_of_false (fun ⟨hle, hlt⟩ => Nat.not_lt.mpr hle hlt) fun h => hm h.2

/-- The pre-checks do not look at what happens next (60_exceptions.md R246). -/
theorem preCheck_agenda (i : Instr) (s : State) (rest : List Event) :
    preCheck i { s with agenda := rest } = preCheck i s := by
  cases i <;> rfl

/-- The step of a reset event. -/
theorem step_of_reset {s : State} {rest : List Event} (h : s.nextIs .reset rest) :
    step s = .next ({ s with agenda := rest } : State).platformReset :=
  step_cons h

/-- After reset CTRL reads 0 (10_state.md R22). -/
theorem platformReset_ctrlWord (s : State) : s.platformReset.ctrl.word = 0 :=
  show State.reset.ctrl.word = 0 by decide

/-- After reset STATUS reads 0: the core is idle and no store holds a value (10_state.md R22, R41). -/
theorem platformReset_statusWord (s : State) : s.platformReset.statusWord = 0 :=
  show State.reset.statusWord = 0 by decide

/-- Settles O56: a reset puts the reset values in every field but BUF, and in BUF exactly the region
of the command it abandons holds values. -/
theorem resetState : Obligations.ResetState := by
  unfold Obligations.ResetState
  intro s rest h
  refine ⟨_, step_of_reset h, rfl, rfl, rfl, rfl, rfl, rfl, rfl, rfl, rfl, fun a => ?_, fun r => ?_⟩
  · rw [platformReset_read_isSome, inDst_abandonedBytes_iff, mayHaveWritten_iff]
    simp only [preCheck_agenda]
  · cases r with
    | ctrl => exact platformReset_ctrlWord _
    | status => exact platformReset_statusWord _
    | _ => rfl

end Sys2Proof.Machine
end
